-- ==== Sys2Proof/Word.lean ====
section
/-! DEFINITION. The word types of the core (spec 00_scope.md R9, 10_state.md R15) and the bit-vector shapes that name them.
Only the types stand here; every computation a test could show wrong is in Decode.lean or under Machine/. -/

namespace Sys2Proof

/-- A 32-bit register value, address or decoded immediate (R7 `XLEN` = 32, R9). -/
abbrev Word := BitVec 32

/-- One byte of memory, the smallest addressable unit (R27, R38). -/
abbrev Byte := BitVec 8

/-- A register number, five bits wide, so that it is in 0..31 by construction (R15, R61). -/
abbrev RegIdx := BitVec 5

end Sys2Proof
end

