-- ==== Sys2Proof/Config.lean ====
section
/-! DEFINITION. The implementation parameters of spec 00_scope.md R7, as plain data, with the conditions R7 puts on them.
A parameter the spec marks fixed (XLEN, NREGS, ILEN) is a type of Word.lean or State.lean.
A parameter the spec marks OPEN or gives a default is a field of `Params`: a launch supplies it, no step changes it, and
every statement about the machine holds for every value of it that the statement's hypotheses admit (log entry 1). -/

namespace Sys2Proof

/-- The caller's termination policy `STOP` (R7, R164). -/
inductive StopPolicy where
  /-- `HaltAt(H)`: the run ends when the fetch PC is `H` and the pipeline has drained. -/
  | haltAt (h : Word)
  /-- `RetireCount(N)`: the run ends right after the `N`-th retirement. -/
  | retireCount (n : Nat)
  deriving DecidableEq, Repr

/-- The parameters of one core (R7). `INIT_REGS` and `INIT_MEM` are arguments of `State.launch`. -/
structure Params where
  /-- `MEM_SIZE`, bytes of memory; OPEN. -/
  memSize : Nat
  /-- `LINE_BYTES`, bytes of one L1I line; default 64. -/
  lineBytes : Nat
  /-- `NUM_LINES`, lines of the direct-mapped L1I; default 1. -/
  numLines : Nat
  /-- `MISS_PENALTY`, bubble cycles of one L1I miss; OPEN. -/
  missPenalty : Nat
  /-- `ENTRY`, the reset value of the fetch PC; OPEN. -/
  entry : Word
  /-- `STOP`; OPEN. -/
  stop : StopPolicy
  deriving DecidableEq, Repr

/-- `n` is a power of two. -/
abbrev isPowerOfTwo (n : Nat) : Prop := 2 ^ n.log2 = n

/-- The conditions R7 puts on the parameters. -/
abbrev Params.Valid (p : Params) : Prop :=
  1 ≤ p.memSize ∧ p.memSize ≤ 2 ^ 32 ∧ p.memSize % p.lineBytes = 0 ∧
  4 ≤ p.lineBytes ∧ isPowerOfTwo p.lineBytes ∧
  1 ≤ p.numLines ∧ isPowerOfTwo p.numLines ∧ 1 ≤ p.missPenalty

/-- The parameters of `State.reset`: the launch conventions of spec 95_test_vectors.md section 0, with a halt address
that no fetch PC that is a multiple of 4 ever equals, so that no policy of the caller ends a run.
DESIGN CHOICE (log entries 1 and 2): the spec leaves these to the caller. -/
def Params.conventional : Params where
  memSize := 4096
  lineBytes := 64
  numLines := 1
  missPenalty := 2
  entry := 0x00000000#32
  stop := .haltAt 0xFFFFFFFF#32

end Sys2Proof
end

