-- ==== Sys2Proof/Machine/State.lean ====
section
/-! DEFINITION. The state of one core (spec 10_state.md R15 to R36) as plain data, its errors, the reasons a step stops,
and the state a launch gives (70_reset_and_hazards.md R149). Everything of R36's table is a field; the parameters of R7
stand beside it as the field `cfg`, which no step changes (log entry 1). -/

namespace Sys2Proof.Machine

/-- The three kinds of fatal error, each with its record (R135). -/
inductive FatalError where
  /-- The decoder matched no row (R136): the address and the word as fetched. -/
  | unknownInstruction (pc word : Word)
  /-- An access whose bytes are not all below MEM_SIZE (R137). -/
  | memoryOutOfBounds (pc addr : Word) (width : Nat)
  /-- An access at an address that is not a multiple of its width (R138). -/
  | misalignedAccess (pc addr : Word) (width : Nat)
  deriving DecidableEq, Repr

/-- Run status (R35). Raising a fatal error is a NEXT state whose status is `halted` (R142). -/
inductive RunStatus where
  | running
  | stopped
  | halted (err : FatalError)
  deriving DecidableEq, Repr

/-- A valid L1I line: its base address and its bytes, lowest address first (R28). -/
structure CacheLine where
  base : Word
  data : List Byte
  deriving DecidableEq, Repr

/-- The latch between Fetch and Decode (R30). -/
inductive FdLatch where
  | empty
  | fetched (pc word predNext : Word)
  | fault (pc : Word) (err : FatalError)
  deriving DecidableEq, Repr

/-- The latch between Decode and Execute (R30): `a` and `b` are the operand values read for rs1 and rs2. -/
inductive DeLatch where
  | empty
  | decoded (pc : Word) (ins : Instr) (a b predNext : Word)
  | fault (pc : Word) (err : FatalError)
  deriving DecidableEq, Repr

/-- The latch between Execute and Write-back (R30). -/
inductive EwLatch where
  | empty
  | executed (pc : Word) (ins : Instr) (result addr data : Word)
  deriving DecidableEq, Repr

/-- Memory: the bytes that differ from `unlistedByte`, as (address, byte) pairs in strictly rising order of address. -/
abbrev Memory := List Host.Cell

/-- What an address that the memory does not list reads as: the byte 0 of the launch conventions (spec 95_test_vectors.md
section 0, "every other byte 0"). DESIGN CHOICE (log entry 4): R27 leaves such bytes to the caller's INIT_MEM. -/
def unlistedByte : Byte := 0x00#8

/-- The canonical form: addresses strictly rising, and no listed byte equal to what an unlisted address reads as. -/
abbrev Memory.wf (m : Memory) : Prop := m.Pairwise (fun c d => c.1 < d.1) ∧ ∀ c ∈ m, c.2 ≠ unlistedByte

/-- The complete state of one core (R36). -/
structure State where
  /-- The launch's parameters (R7): configuration, constant during a run. -/
  cfg : Params
  /-- x0..x31 (R15). Slot 0 is hard-wired: no operation writes it or reads it (R16). -/
  regs : Vector Word 32
  /-- The Fetch unit's fetch PC (R20). -/
  fpc : Word
  /-- mem[0..MEM_SIZE-1] (R27). -/
  mem : Memory
  /-- The NUM_LINES lines of the L1I (R28); `none` is a line with valid = 0 (log entry 8). -/
  l1i : List (Option CacheLine)
  /-- Bubble cycles still owed to the current L1I miss (R29). -/
  fwait : Nat
  /-- Latch FD (R30). -/
  fd : FdLatch
  /-- Latch DE (R30). -/
  de : DeLatch
  /-- Latch EW (R30). -/
  ew : EwLatch
  /-- Ticks executed (R34). -/
  cycles : Nat
  /-- Instructions that completed Write-back (R34). -/
  retired : Nat
  /-- L1I lookups that hit (R34, R165). -/
  l1iHits : Nat
  /-- L1I lookups that missed (R34, R165). -/
  l1iMisses : Nat
  /-- Mispredictions detected in Execute (R34, R165). -/
  flushes : Nat
  /-- Run status (R35). -/
  status : RunStatus
  deriving DecidableEq, Repr

/-- Why a step has no next state. Both are raised by `Sys2Proof.Machine.step` alone, in a state whose run has ended. -/
inductive Fault where
  /-- The status is `halted err`: a fatal error ended the run, and the core takes no further tick (R35, R143).
  Safe: the spec gives such a state no successor. -/
  | halted (err : FatalError)
  /-- The status is `stopped`: the caller's policy ended the run, and the core takes no further tick (R35, R164).
  Safe: the spec gives such a state no successor. -/
  | stopped
  deriving DecidableEq, Repr

/-- Why an instruction has no meaning. -/
inductive Refusal where
  /-- An instruction of the opcode table without a meaning here; no arm of `exec` answers it. Safe. -/
  | notModelled (mnemonic : String)
  deriving DecidableEq, Repr

/-- The state reset sets, before the termination check that follows it (R149, R36): `initRegs` gives x1..x31 and x0 is 0. -/
def State.launch (cfg : Params) (initRegs : Vector Word 32) (initMem : Memory) : State where
  cfg := cfg
  regs := initRegs.set 0 0#32
  fpc := cfg.entry
  mem := initMem
  l1i := List.replicate cfg.numLines none
  fwait := 0
  fd := .empty
  de := .empty
  ew := .empty
  cycles := 0
  retired := 0
  l1iHits := 0
  l1iMisses := 0
  flushes := 0
  status := .running

/-- The machine right after reset: the launch conventions' parameters (log entries 1 and 2), INIT_REGS at its default of
zero (R19, log entry 3) and memory with nothing listed (log entry 4). A program is loaded from outside (log entry 10). -/
def State.reset : State := State.launch Params.conventional (Vector.replicate 32 0#32) []

end Sys2Proof.Machine
end

