-- ==== Sys2Proof/Machine/Flags.lean ====
section
/-! DEFINITION. The core has no status flags and no condition codes (spec 10_state.md R25). What stands in their place:
the comparisons that SLT, SLTI, SLTU and SLTIU write as 0 or 1 (R82), and that the conditional branches test (R124). -/

namespace Sys2Proof.Machine

/-- A comparison's result as a register value: exactly 0 or 1 (R82). -/
def boolWord (c : Bool) : Word := if c then 1#32 else 0#32

/-- `a <s b` (R9). -/
def ltSigned (a b : Word) : Bool := decide (a.toInt < b.toInt)

/-- `a <u b` (R9). -/
def ltUnsigned (a b : Word) : Bool := decide (a.toNat < b.toNat)

/-- The condition of BEQ (R127). -/
def condEq (a b : Word) : Bool := decide (a = b)
/-- The condition of BNE (R128). -/
def condNe (a b : Word) : Bool := decide (a ≠ b)
/-- The condition of BLT (R129). -/
def condLt (a b : Word) : Bool := decide (a.toInt < b.toInt)
/-- The condition of BGE (R130). -/
def condGe (a b : Word) : Bool := decide (b.toInt ≤ a.toInt)
/-- The condition of BLTU (R131). -/
def condLtu (a b : Word) : Bool := decide (a.toNat < b.toNat)
/-- The condition of BGEU (R132). -/
def condGeu (a b : Word) : Bool := decide (b.toNat ≤ a.toNat)

end Sys2Proof.Machine
end

