-- ==== Sys2Proof/Machine/Memory.lean ====
section
/-! DEFINITION. Memory as bytes and as little-endian values (spec 20_memory.md R38 to R41). These operations are total on
every address; the bounds and alignment rules (R43, R44) are in Ops.lean and are checked before any of them is called. -/

namespace Sys2Proof.Machine

/-- The byte at an address. -/
def Memory.read : Memory → Nat → Byte
  | [], _ => unlistedByte
  | c :: rest, a => if a = c.1 then c.2 else Memory.read rest a

/-- A listed byte put in front of the bytes at higher addresses, unless it is what an unlisted address reads as. -/
def Memory.consByte (a : Nat) (v : Byte) (rest : Memory) : Memory := if v = unlistedByte then rest else (a, v) :: rest

/-- Writes one byte, keeping the canonical form. -/
def Memory.write : Memory → Nat → Byte → Memory
  | [], a, v => Memory.consByte a v []
  | c :: rest, a, v =>
    if a < c.1 then Memory.consByte a v (c :: rest)
    else if a = c.1 then Memory.consByte a v rest
    else c :: Memory.write rest a v

/-- `MemRead(addr, n)`: `mem[addr] + 2^8 * mem[addr+1] + ... + 2^(8(n-1)) * mem[addr+n-1]` (R39). -/
def Memory.readBytes (m : Memory) (addr : Nat) : Nat → Nat
  | 0 => 0
  | n + 1 => Memory.readBytes m addr n + 2 ^ (8 * n) * (Memory.read m (addr + n)).toNat

/-- `MemWrite(addr, n, v)`: `mem[addr+k] <- v[8k+7:8k]` for k = 0..n-1 (R40). -/
def Memory.writeBytes (m : Memory) (addr : Nat) : Nat → Word → Memory
  | 0, _ => m
  | n + 1, v => Memory.write (Memory.writeBytes m addr n v) (addr + n) (v.extractLsb' (8 * n) 8)

/-- `ReadBlock(base, n)`: the n bytes mem[base..base+n-1], lowest address first (R41). -/
def Memory.readBlock (m : Memory) (base n : Nat) : List Byte := (List.range n).map fun k => Memory.read m (base + k)

end Sys2Proof.Machine
end

