-- ==== Sys2Proof/Machine/Operands.lean ====
section
/-! DEFINITION. Operand forms: which fields an instruction has (spec 30_encoding.md R69, R70), the addresses and targets
computed from them (R106, R123, R134), and the extension of loaded values (R10, R109). -/

namespace Sys2Proof.Machine

/-! ### The decoded record (R69) -/

/-- The destination register, for the formats that have one: R, I, U and J. -/
def rdOf : Instr → Option RegIdx
  | .lui rd _ | .auipc rd _ | .jal rd _ | .jalr rd _ _ => some rd
  | .beq _ _ _ | .bne _ _ _ | .blt _ _ _ | .bge _ _ _ | .bltu _ _ _ | .bgeu _ _ _ => none
  | .lb rd _ _ | .lh rd _ _ | .lw rd _ _ | .lbu rd _ _ | .lhu rd _ _ => some rd
  | .sb _ _ _ | .sh _ _ _ | .sw _ _ _ => none
  | .addi rd _ _ | .slti rd _ _ | .sltiu rd _ _ | .xori rd _ _ | .ori rd _ _ | .andi rd _ _ => some rd
  | .slli rd _ _ | .srli rd _ _ | .srai rd _ _ => some rd
  | .add rd _ _ | .sub rd _ _ | .sll rd _ _ | .slt rd _ _ | .sltu rd _ _ | .xor rd _ _ | .srl rd _ _ | .sra rd _ _
  | .or rd _ _ | .and rd _ _ => some rd

/-- The first source register, for the formats that have one: R, I, S and B. -/
def rs1Of : Instr → Option RegIdx
  | .lui _ _ | .auipc _ _ | .jal _ _ => none
  | .jalr _ rs1 _ => some rs1
  | .beq rs1 _ _ | .bne rs1 _ _ | .blt rs1 _ _ | .bge rs1 _ _ | .bltu rs1 _ _ | .bgeu rs1 _ _ => some rs1
  | .lb _ rs1 _ | .lh _ rs1 _ | .lw _ rs1 _ | .lbu _ rs1 _ | .lhu _ rs1 _ => some rs1
  | .sb rs1 _ _ | .sh rs1 _ _ | .sw rs1 _ _ => some rs1
  | .addi _ rs1 _ | .slti _ rs1 _ | .sltiu _ rs1 _ | .xori _ rs1 _ | .ori _ rs1 _ | .andi _ rs1 _ => some rs1
  | .slli _ rs1 _ | .srli _ rs1 _ | .srai _ rs1 _ => some rs1
  | .add _ rs1 _ | .sub _ rs1 _ | .sll _ rs1 _ | .slt _ rs1 _ | .sltu _ rs1 _ | .xor _ rs1 _ | .srl _ rs1 _
  | .sra _ rs1 _ | .or _ rs1 _ | .and _ rs1 _ => some rs1

/-- The second source register, for the formats that have one: R, S and B. -/
def rs2Of : Instr → Option RegIdx
  | .lui _ _ | .auipc _ _ | .jal _ _ | .jalr _ _ _ => none
  | .beq _ rs2 _ | .bne _ rs2 _ | .blt _ rs2 _ | .bge _ rs2 _ | .bltu _ rs2 _ | .bgeu _ rs2 _ => some rs2
  | .lb _ _ _ | .lh _ _ _ | .lw _ _ _ | .lbu _ _ _ | .lhu _ _ _ => none
  | .sb _ rs2 _ | .sh _ rs2 _ | .sw _ rs2 _ => some rs2
  | .addi _ _ _ | .slti _ _ _ | .sltiu _ _ _ | .xori _ _ _ | .ori _ _ _ | .andi _ _ _ => none
  | .slli _ _ _ | .srli _ _ _ | .srai _ _ _ => none
  | .add _ _ rs2 | .sub _ _ rs2 | .sll _ _ rs2 | .slt _ _ rs2 | .sltu _ _ rs2 | .xor _ _ rs2 | .srl _ _ rs2
  | .sra _ _ rs2 | .or _ _ rs2 | .and _ _ rs2 => some rs2

/-- The immediate of the decoded record: 0 for the R format, and the zero-extended amount for a shift (R68, R69). -/
def immOf : Instr → Word
  | .lui _ imm | .auipc _ imm | .jal _ imm | .jalr _ _ imm => imm
  | .beq _ _ imm | .bne _ _ imm | .blt _ _ imm | .bge _ _ imm | .bltu _ _ imm | .bgeu _ _ imm => imm
  | .lb _ _ imm | .lh _ _ imm | .lw _ _ imm | .lbu _ _ imm | .lhu _ _ imm => imm
  | .sb _ _ imm | .sh _ _ imm | .sw _ _ imm => imm
  | .addi _ _ imm | .slti _ _ imm | .sltiu _ _ imm | .xori _ _ imm | .ori _ _ imm | .andi _ _ imm => imm
  | .slli _ _ shamt | .srli _ _ shamt | .srai _ _ shamt => shamt.setWidth 32
  | .add _ _ _ | .sub _ _ _ | .sll _ _ _ | .slt _ _ _ | .sltu _ _ _ | .xor _ _ _ | .srl _ _ _ | .sra _ _ _
  | .or _ _ _ | .and _ _ _ => 0#32

/-- The format tag of the decoded record (R62, R69). -/
def formatOf : Instr → Format
  | .lui _ _ | .auipc _ _ => .u
  | .jal _ _ => .j
  | .jalr _ _ _ => .i
  | .beq _ _ _ | .bne _ _ _ | .blt _ _ _ | .bge _ _ _ | .bltu _ _ _ | .bgeu _ _ _ => .b
  | .lb _ _ _ | .lh _ _ _ | .lw _ _ _ | .lbu _ _ _ | .lhu _ _ _ => .i
  | .sb _ _ _ | .sh _ _ _ | .sw _ _ _ => .s
  | .addi _ _ _ | .slti _ _ _ | .sltiu _ _ _ | .xori _ _ _ | .ori _ _ _ | .andi _ _ _ => .i
  | .slli _ _ _ | .srli _ _ _ | .srai _ _ _ => .i
  | .add _ _ _ | .sub _ _ _ | .sll _ _ _ | .slt _ _ _ | .sltu _ _ _ | .xor _ _ _ | .srl _ _ _ | .sra _ _ _
  | .or _ _ _ | .and _ _ _ => .r

/-- `srcs(ins)`, the source registers of the instruction's format (R70). -/
def srcsOf (i : Instr) : List RegIdx := (rs1Of i).toList ++ (rs2Of i).toList

/-- Whether the instruction is one of LB, LH, LW, LBU, LHU (R158, R159). -/
def isLoad : Instr → Bool
  | .lb _ _ _ | .lh _ _ _ | .lw _ _ _ | .lbu _ _ _ | .lhu _ _ _ => true
  | .lui _ _ | .auipc _ _ | .jal _ _ | .jalr _ _ _ => false
  | .beq _ _ _ | .bne _ _ _ | .blt _ _ _ | .bge _ _ _ | .bltu _ _ _ | .bgeu _ _ _ => false
  | .sb _ _ _ | .sh _ _ _ | .sw _ _ _ => false
  | .addi _ _ _ | .slti _ _ _ | .sltiu _ _ _ | .xori _ _ _ | .ori _ _ _ | .andi _ _ _ => false
  | .slli _ _ _ | .srli _ _ _ | .srai _ _ _ => false
  | .add _ _ _ | .sub _ _ _ | .sll _ _ _ | .slt _ _ _ | .sltu _ _ _ | .xor _ _ _ | .srl _ _ _ | .sra _ _ _
  | .or _ _ _ | .and _ _ _ => false

/-! ### Addresses and targets, modulo 2^32 (R23, R106, R123, R134) -/

/-- The address of the next word: `pc + 4`, also the branch unit's prediction (R21, R121). -/
def nextPc (pc : Word) : Word := pc + 4#32

/-- The effective address of a load or store: `x[rs1] + imm` (R106). -/
def effectiveAddress (base imm : Word) : Word := base + imm

/-- The target of a branch or JAL: `pc + imm` (R123). -/
def relativeTarget (pc imm : Word) : Word := pc + imm

/-- The target of JALR: `(x[rs1] + imm) & 0xFFFFFFFE` (R134). -/
def jalrTarget (base imm : Word) : Word := (base + imm) &&& 0xFFFFFFFE#32

/-- Whether an instruction may stand at the address: it is a multiple of 4 (R45). -/
abbrev wordAligned (a : Word) : Prop := a.toNat % 4 = 0

/-! ### Extension of loaded values (R10, R109) -/

/-- `sext_8`, for LB. -/
def sext8 (v : Nat) : Word := (BitVec.ofNat 8 v).signExtend 32
/-- `sext_16`, for LH. -/
def sext16 (v : Nat) : Word := (BitVec.ofNat 16 v).signExtend 32
/-- `zext_8`, for LBU. -/
def zext8 (v : Nat) : Word := (BitVec.ofNat 8 v).setWidth 32
/-- `zext_16`, for LHU. -/
def zext16 (v : Nat) : Word := (BitVec.ofNat 16 v).setWidth 32
/-- The 32 loaded bits themselves, for LW. -/
def loadedWord (v : Nat) : Word := BitVec.ofNat 32 v

/-- The amount of a register shift: `b[4:0]` (R83). -/
def shiftAmount (b : Word) : Nat := (b.extractLsb' 0 5).toNat

end Sys2Proof.Machine
end

