-- ==== Sys2Proof/Machine/Ops.lean ====
section
/-! DEFINITION. The named operations over registers and memory, raising a fatal error, and the shape every instruction's
meaning has: what Execute computes and what Write-back commits (spec 00_scope.md R12), with the one-instruction-at-a-time
execution built from the two parts (R6, R167).

The core takes no exception in the sense of a trap: the only response to an error is the halt (R142, R144). `raise` is that
one operation, and there is no return from it (R143). -/

namespace Sys2Proof.Machine

/-! ### Registers (R16) -/

/-- `read(i)`: 0 for x0, otherwise the stored value. -/
def State.readReg (s : State) (r : RegIdx) : Word :=
  if r = 0#5 then 0#32 else s.regs[r.toNat]'(r.isLt)

/-- `write(i, v)`: a no-op for x0, otherwise it stores v. -/
def State.writeReg (s : State) (r : RegIdx) (v : Word) : State :=
  if r = 0#5 then s else { s with regs := s.regs.set r.toNat v r.isLt }

/-- The value of a source field in the register file: 0 for a source the format lacks (R156). -/
def State.readSource (s : State) : Option RegIdx → Word
  | none => 0#32
  | some r => s.readReg r

/-! ### Raising an error (R142) -/

/-- Halts the core with the error: only the run status changes, so every register, memory byte, latch and counter is as
the raising stage found it (R142). -/
def raise (e : FatalError) (s : State) : State := { s with status := .halted e }

/-- The number the spec gives a kind of error (R135). -/
def FatalError.code : FatalError → Nat
  | .unknownInstruction _ _ => 1
  | .memoryOutOfBounds _ _ _ => 2
  | .misalignedAccess _ _ _ => 3

/-! ### Data accesses (R43, R44, R108) -/

/-- The checks of a load or store of width n at addr, in the order of R108. -/
def checkAccess (memSize : Nat) (pc addr : Word) (n : Nat) : Except FatalError Unit :=
  if addr.toNat % n ≠ 0 then .error (.misalignedAccess pc addr n)
  else if memSize < addr.toNat + n then .error (.memoryOutOfBounds pc addr n)
  else .ok ()

/-- Write-back of a load: the checks, the read, and `x[rd] <- ` the extended value (R108). -/
def loadAccess (s : State) (pc addr : Word) (n : Nat) (extend : Nat → Word) (rd : RegIdx) : Except FatalError State :=
  match checkAccess s.cfg.memSize pc addr n with
  | .error e => .error e
  | .ok _ => .ok (s.writeReg rd (extend (Memory.readBytes s.mem addr.toNat n)))

/-- Write-back of a store: the checks, and the write of the low n bytes of the data (R108, R110). The L1I stays (R57). -/
def storeAccess (s : State) (pc addr : Word) (n : Nat) (data : Word) : Except FatalError State :=
  match checkAccess s.cfg.memSize pc addr n with
  | .error e => .error e
  | .ok _ => .ok { s with mem := Memory.writeBytes s.mem addr.toNat n data }

/-! ### The shape of a meaning (R12, R161, R163) -/

/-- What the branch unit is told of an instruction in Execute (R122). -/
inductive Transfer where
  /-- No control transfer. -/
  | none
  /-- A conditional branch: its condition and its target. -/
  | branch (taken : Bool) (target : Word)
  /-- JAL or JALR: its target. -/
  | jump (target : Word)
  deriving DecidableEq, Repr

/-- What Execute computes; a field the instruction does not use is 0 (R161). -/
structure Computed where
  result : Word := 0#32
  addr : Word := 0#32
  data : Word := 0#32
  transfer : Transfer := .none
  deriving DecidableEq, Repr

/-- The two parts of an instruction's meaning (R12): Execute, from pc and the operands a and b; and Write-back, from pc and
the result, address and data that EW carries. Each may raise a fatal error. -/
structure StageSplit where
  execute : (pc a b : Word) → Except FatalError Computed
  commit : (pc result addr data : Word) → State → Except FatalError State

/-- The address of the next instruction in program order (R11 `next_pc`, R122 `actual_next`). -/
def Transfer.actualNext (pc : Word) : Transfer → Word
  | .none => nextPc pc
  | .branch true target => target
  | .branch false _ => nextPc pc
  | .jump target => target

/-- Execution of one instruction by itself, the `depth-1 pipeline, no speculation` of R6 and R167 step 4: the operands from
the register file, Execute, Write-back, then `pc <- next_pc` and one more retirement. The instruction's address is the
fetch PC. The fetch machinery, the latches and the other counters take no part (log entry 6). -/
def runAlone (m : StageSplit) (a b : Word) (s : State) : Host.Outcome State Fault Refusal :=
  match m.execute s.fpc a b with
  | .error e => .next (raise e s)
  | .ok c =>
    match m.commit s.fpc c.result c.addr c.data s with
    | .error e => .next (raise e s)
    | .ok t => .next { t with fpc := c.transfer.actualNext s.fpc, retired := t.retired + 1 }

/-! ### Write-back shapes (R163) -/

/-- Write-back of an ALU, upper-immediate or jump instruction: `x[rd] <- result`. -/
def commitResult (rd : RegIdx) (_pc result _addr _data : Word) (s : State) : Except FatalError State :=
  .ok (s.writeReg rd result)

/-- Write-back of a conditional branch: nothing is written (R126). -/
def commitNothing (_pc _result _addr _data : Word) (s : State) : Except FatalError State := .ok s

/-- Write-back of a load (R107, R108). -/
def commitLoad (n : Nat) (extend : Nat → Word) (rd : RegIdx) (pc _result addr _data : Word) (s : State) :
    Except FatalError State :=
  loadAccess s pc addr n extend rd

/-- Write-back of a store (R107, R108). -/
def commitStore (n : Nat) (pc _result addr data : Word) (s : State) : Except FatalError State :=
  storeAccess s pc addr n data

/-! ### Execute shapes (R81, R107, R125, R126) -/

/-- Execute of an ALU or upper-immediate instruction: a result, no error, no transfer (R81). -/
def executeResult (result : Word) : Except FatalError Computed := .ok { result := result }

/-- Execute of a load: the effective address (R107). -/
def executeLoad (imm a : Word) : Except FatalError Computed := .ok { addr := effectiveAddress a imm }

/-- Execute of a store: the effective address, and the value of rs2 as data (R107). -/
def executeStore (imm a b : Word) : Except FatalError Computed := .ok { addr := effectiveAddress a imm, data := b }

/-- Execute of a conditional branch: a taken branch to a target that is not a multiple of 4 raises (R125, R126). -/
def executeBranch (taken : Bool) (imm pc : Word) : Except FatalError Computed :=
  let target := relativeTarget pc imm
  if taken = true ∧ ¬ wordAligned target then .error (.misalignedAccess pc target 4)
  else .ok { transfer := .branch taken target }

/-- Execute of a jump: a target that is not a multiple of 4 raises; the result is the link pc + 4 (R125, R133, R134). -/
def executeJump (target pc : Word) : Except FatalError Computed :=
  if ¬ wordAligned target then .error (.misalignedAccess pc target 4)
  else .ok { result := nextPc pc, transfer := .jump target }

end Sys2Proof.Machine
end

