-- ==== Sys2Proof/Machine/ControlTransfer.lean ====
section
/-! DEFINITION. The branch unit and the eight control transfers (spec 43_control_transfer.md R121 to R134). -/

namespace Sys2Proof.Machine

/-! ### The branch unit -/

/-- The predicted next PC of every fetched word, whatever its kind: `pred_next = pc + 4` (R121). -/
def predictedNext (pc : Word) : Word := nextPc pc

/-- Validation, in Execute (R122): a conditional branch mispredicts iff it is taken, a jump iff its target differs from the
prediction, and no other instruction does. -/
def mispredicts (predNext : Word) : Transfer → Bool
  | .none => false
  | .branch taken _ => taken
  | .jump target => decide (target ≠ predNext)

/-! ### Conditional branches -/

/-- BEQ, the stage split: `if x[rs1] = x[rs2] then next_pc <- pc + imm else next_pc <- pc + 4` (R127). -/
def splitBeq (imm : Word) : StageSplit where
  execute pc a b := executeBranch (condEq a b) imm pc
  commit := commitNothing

/-- BEQ (R127). -/
def execBeq (rs1 rs2 : RegIdx) (imm : Word) (s : State) : Host.Outcome State Fault Refusal :=
  runAlone (splitBeq imm) (s.readReg rs1) (s.readReg rs2) s

/-- BNE, the stage split: `if x[rs1] != x[rs2] then next_pc <- pc + imm else next_pc <- pc + 4` (R128). -/
def splitBne (imm : Word) : StageSplit where
  execute pc a b := executeBranch (condNe a b) imm pc
  commit := commitNothing

/-- BNE (R128). -/
def execBne (rs1 rs2 : RegIdx) (imm : Word) (s : State) : Host.Outcome State Fault Refusal :=
  runAlone (splitBne imm) (s.readReg rs1) (s.readReg rs2) s

/-- BLT, the stage split: `if x[rs1] <s x[rs2] then next_pc <- pc + imm else next_pc <- pc + 4` (R129). -/
def splitBlt (imm : Word) : StageSplit where
  execute pc a b := executeBranch (condLt a b) imm pc
  commit := commitNothing

/-- BLT (R129). -/
def execBlt (rs1 rs2 : RegIdx) (imm : Word) (s : State) : Host.Outcome State Fault Refusal :=
  runAlone (splitBlt imm) (s.readReg rs1) (s.readReg rs2) s

/-- BGE, the stage split: `if x[rs1] >=s x[rs2] then next_pc <- pc + imm else next_pc <- pc + 4` (R130). -/
def splitBge (imm : Word) : StageSplit where
  execute pc a b := executeBranch (condGe a b) imm pc
  commit := commitNothing

/-- BGE (R130). -/
def execBge (rs1 rs2 : RegIdx) (imm : Word) (s : State) : Host.Outcome State Fault Refusal :=
  runAlone (splitBge imm) (s.readReg rs1) (s.readReg rs2) s

/-- BLTU, the stage split: `if x[rs1] <u x[rs2] then next_pc <- pc + imm else next_pc <- pc + 4` (R131). -/
def splitBltu (imm : Word) : StageSplit where
  execute pc a b := executeBranch (condLtu a b) imm pc
  commit := commitNothing

/-- BLTU (R131). -/
def execBltu (rs1 rs2 : RegIdx) (imm : Word) (s : State) : Host.Outcome State Fault Refusal :=
  runAlone (splitBltu imm) (s.readReg rs1) (s.readReg rs2) s

/-- BGEU, the stage split: `if x[rs1] >=u x[rs2] then next_pc <- pc + imm else next_pc <- pc + 4` (R132). -/
def splitBgeu (imm : Word) : StageSplit where
  execute pc a b := executeBranch (condGeu a b) imm pc
  commit := commitNothing

/-- BGEU (R132). -/
def execBgeu (rs1 rs2 : RegIdx) (imm : Word) (s : State) : Host.Outcome State Fault Refusal :=
  runAlone (splitBgeu imm) (s.readReg rs1) (s.readReg rs2) s

/-! ### Jumps -/

/-- JAL, the stage split: `target <- pc + imm; x[rd] <- pc + 4; next_pc <- target` (R133). -/
def splitJal (rd : RegIdx) (imm : Word) : StageSplit where
  execute pc _a _b := executeJump (relativeTarget pc imm) pc
  commit := commitResult rd

/-- JAL (R133). -/
def execJal (rd : RegIdx) (imm : Word) (s : State) : Host.Outcome State Fault Refusal :=
  runAlone (splitJal rd imm) (0#32) (0#32) s

/-- JALR, the stage split: `target <- (x[rs1] + imm) & 0xFFFFFFFE; x[rd] <- pc + 4; next_pc <- target` (R134). -/
def splitJalr (rd : RegIdx) (imm : Word) : StageSplit where
  execute pc a _b := executeJump (jalrTarget a imm) pc
  commit := commitResult rd

/-- JALR (R134). -/
def execJalr (rd rs1 : RegIdx) (imm : Word) (s : State) : Host.Outcome State Fault Refusal :=
  runAlone (splitJalr rd imm) (s.readReg rs1) (0#32) s

end Sys2Proof.Machine
end

