-- ==== Sys2Proof/Machine/IntegerAlu.lean ====
section
/-! DEFINITION. The 19 integer ALU instructions (spec 40_integer_alu.md R79 to R103). Each has its stage split (R81) and its
meaning, which runs the split on the operands of the register file. -/

namespace Sys2Proof.Machine

/-! ### Register-immediate -/

/-- ADDI, the stage split: `x[rd] <- x[rs1] + imm` (R85). -/
def splitAddi (rd : RegIdx) (imm : Word) : StageSplit where
  execute _pc a _b := executeResult (a + imm)
  commit := commitResult rd

/-- ADDI (R85). -/
def execAddi (rd rs1 : RegIdx) (imm : Word) (s : State) : Host.Outcome State Fault Refusal :=
  runAlone (splitAddi rd imm) (s.readReg rs1) (0#32) s

/-- SLTI, the stage split: `x[rd] <- (signed(x[rs1]) < signed(imm)) ? 1 : 0` (R86). -/
def splitSlti (rd : RegIdx) (imm : Word) : StageSplit where
  execute _pc a _b := executeResult (boolWord (ltSigned a imm))
  commit := commitResult rd

/-- SLTI (R86). -/
def execSlti (rd rs1 : RegIdx) (imm : Word) (s : State) : Host.Outcome State Fault Refusal :=
  runAlone (splitSlti rd imm) (s.readReg rs1) (0#32) s

/-- SLTIU, the stage split: `x[rd] <- (x[rs1] <u imm) ? 1 : 0` (R87). -/
def splitSltiu (rd : RegIdx) (imm : Word) : StageSplit where
  execute _pc a _b := executeResult (boolWord (ltUnsigned a imm))
  commit := commitResult rd

/-- SLTIU (R87). -/
def execSltiu (rd rs1 : RegIdx) (imm : Word) (s : State) : Host.Outcome State Fault Refusal :=
  runAlone (splitSltiu rd imm) (s.readReg rs1) (0#32) s

/-- XORI, the stage split: `x[rd] <- x[rs1] ^ imm` (R88). -/
def splitXori (rd : RegIdx) (imm : Word) : StageSplit where
  execute _pc a _b := executeResult (a ^^^ imm)
  commit := commitResult rd

/-- XORI (R88). -/
def execXori (rd rs1 : RegIdx) (imm : Word) (s : State) : Host.Outcome State Fault Refusal :=
  runAlone (splitXori rd imm) (s.readReg rs1) (0#32) s

/-- ORI, the stage split: `x[rd] <- x[rs1] | imm` (R89). -/
def splitOri (rd : RegIdx) (imm : Word) : StageSplit where
  execute _pc a _b := executeResult (a ||| imm)
  commit := commitResult rd

/-- ORI (R89). -/
def execOri (rd rs1 : RegIdx) (imm : Word) (s : State) : Host.Outcome State Fault Refusal :=
  runAlone (splitOri rd imm) (s.readReg rs1) (0#32) s

/-- ANDI, the stage split: `x[rd] <- x[rs1] & imm` (R90). -/
def splitAndi (rd : RegIdx) (imm : Word) : StageSplit where
  execute _pc a _b := executeResult (a &&& imm)
  commit := commitResult rd

/-- ANDI (R90). -/
def execAndi (rd rs1 : RegIdx) (imm : Word) (s : State) : Host.Outcome State Fault Refusal :=
  runAlone (splitAndi rd imm) (s.readReg rs1) (0#32) s

/-- SLLI, the stage split: `x[rd] <- (x[rs1] << shamt) mod 2^32` (R91). -/
def splitSlli (rd : RegIdx) (shamt : BitVec 5) : StageSplit where
  execute _pc a _b := executeResult (a <<< shamt.toNat)
  commit := commitResult rd

/-- SLLI (R91). -/
def execSlli (rd rs1 : RegIdx) (shamt : BitVec 5) (s : State) : Host.Outcome State Fault Refusal :=
  runAlone (splitSlli rd shamt) (s.readReg rs1) (0#32) s

/-- SRLI, the stage split: `x[rd] <- x[rs1] >>u shamt` (R92). -/
def splitSrli (rd : RegIdx) (shamt : BitVec 5) : StageSplit where
  execute _pc a _b := executeResult (a >>> shamt.toNat)
  commit := commitResult rd

/-- SRLI (R92). -/
def execSrli (rd rs1 : RegIdx) (shamt : BitVec 5) (s : State) : Host.Outcome State Fault Refusal :=
  runAlone (splitSrli rd shamt) (s.readReg rs1) (0#32) s

/-- SRAI, the stage split: `x[rd] <- x[rs1] >>s shamt` (R93). -/
def splitSrai (rd : RegIdx) (shamt : BitVec 5) : StageSplit where
  execute _pc a _b := executeResult (a.sshiftRight shamt.toNat)
  commit := commitResult rd

/-- SRAI (R93). -/
def execSrai (rd rs1 : RegIdx) (shamt : BitVec 5) (s : State) : Host.Outcome State Fault Refusal :=
  runAlone (splitSrai rd shamt) (s.readReg rs1) (0#32) s

/-! ### Register-register -/

/-- ADD, the stage split: `x[rd] <- x[rs1] + x[rs2]` (R94). -/
def splitAdd (rd : RegIdx) : StageSplit where
  execute _pc a b := executeResult (a + b)
  commit := commitResult rd

/-- ADD (R94). -/
def execAdd (rd rs1 rs2 : RegIdx) (s : State) : Host.Outcome State Fault Refusal :=
  runAlone (splitAdd rd) (s.readReg rs1) (s.readReg rs2) s

/-- SUB, the stage split: `x[rd] <- x[rs1] - x[rs2]` (R95). -/
def splitSub (rd : RegIdx) : StageSplit where
  execute _pc a b := executeResult (a - b)
  commit := commitResult rd

/-- SUB (R95). -/
def execSub (rd rs1 rs2 : RegIdx) (s : State) : Host.Outcome State Fault Refusal :=
  runAlone (splitSub rd) (s.readReg rs1) (s.readReg rs2) s

/-- SLL, the stage split: `x[rd] <- (x[rs1] << x[rs2][4:0]) mod 2^32` (R96). -/
def splitSll (rd : RegIdx) : StageSplit where
  execute _pc a b := executeResult (a <<< shiftAmount b)
  commit := commitResult rd

/-- SLL (R96). -/
def execSll (rd rs1 rs2 : RegIdx) (s : State) : Host.Outcome State Fault Refusal :=
  runAlone (splitSll rd) (s.readReg rs1) (s.readReg rs2) s

/-- SLT, the stage split: `x[rd] <- (signed(x[rs1]) < signed(x[rs2])) ? 1 : 0` (R97). -/
def splitSlt (rd : RegIdx) : StageSplit where
  execute _pc a b := executeResult (boolWord (ltSigned a b))
  commit := commitResult rd

/-- SLT (R97). -/
def execSlt (rd rs1 rs2 : RegIdx) (s : State) : Host.Outcome State Fault Refusal :=
  runAlone (splitSlt rd) (s.readReg rs1) (s.readReg rs2) s

/-- SLTU, the stage split: `x[rd] <- (x[rs1] <u x[rs2]) ? 1 : 0` (R98). -/
def splitSltu (rd : RegIdx) : StageSplit where
  execute _pc a b := executeResult (boolWord (ltUnsigned a b))
  commit := commitResult rd

/-- SLTU (R98). -/
def execSltu (rd rs1 rs2 : RegIdx) (s : State) : Host.Outcome State Fault Refusal :=
  runAlone (splitSltu rd) (s.readReg rs1) (s.readReg rs2) s

/-- XOR, the stage split: `x[rd] <- x[rs1] ^ x[rs2]` (R99). -/
def splitXor (rd : RegIdx) : StageSplit where
  execute _pc a b := executeResult (a ^^^ b)
  commit := commitResult rd

/-- XOR (R99). -/
def execXor (rd rs1 rs2 : RegIdx) (s : State) : Host.Outcome State Fault Refusal :=
  runAlone (splitXor rd) (s.readReg rs1) (s.readReg rs2) s

/-- SRL, the stage split: `x[rd] <- x[rs1] >>u x[rs2][4:0]` (R100). -/
def splitSrl (rd : RegIdx) : StageSplit where
  execute _pc a b := executeResult (a >>> shiftAmount b)
  commit := commitResult rd

/-- SRL (R100). -/
def execSrl (rd rs1 rs2 : RegIdx) (s : State) : Host.Outcome State Fault Refusal :=
  runAlone (splitSrl rd) (s.readReg rs1) (s.readReg rs2) s

/-- SRA, the stage split: `x[rd] <- x[rs1] >>s x[rs2][4:0]` (R101). -/
def splitSra (rd : RegIdx) : StageSplit where
  execute _pc a b := executeResult (a.sshiftRight (shiftAmount b))
  commit := commitResult rd

/-- SRA (R101). -/
def execSra (rd rs1 rs2 : RegIdx) (s : State) : Host.Outcome State Fault Refusal :=
  runAlone (splitSra rd) (s.readReg rs1) (s.readReg rs2) s

/-- OR, the stage split: `x[rd] <- x[rs1] | x[rs2]` (R102). -/
def splitOr (rd : RegIdx) : StageSplit where
  execute _pc a b := executeResult (a ||| b)
  commit := commitResult rd

/-- OR (R102). -/
def execOr (rd rs1 rs2 : RegIdx) (s : State) : Host.Outcome State Fault Refusal :=
  runAlone (splitOr rd) (s.readReg rs1) (s.readReg rs2) s

/-- AND, the stage split: `x[rd] <- x[rs1] & x[rs2]` (R103). -/
def splitAnd (rd : RegIdx) : StageSplit where
  execute _pc a b := executeResult (a &&& b)
  commit := commitResult rd

/-- AND (R103). -/
def execAnd (rd rs1 rs2 : RegIdx) (s : State) : Host.Outcome State Fault Refusal :=
  runAlone (splitAnd rd) (s.readReg rs1) (s.readReg rs2) s

end Sys2Proof.Machine
end

