-- ==== Sys2Proof/Machine/LoadStore.lean ====
section
/-! DEFINITION. The five loads and three stores (spec 42_loads_stores.md R106 to R120): Execute computes the address, Write-back
makes the checks and the access (R107, R108). -/

namespace Sys2Proof.Machine

/-- LB, the stage split: `addr <- x[rs1] + imm; x[rd] <- sext_8(MemRead(addr, 1))` (R113). -/
def splitLb (rd : RegIdx) (imm : Word) : StageSplit where
  execute _pc a _b := executeLoad imm a
  commit := commitLoad 1 sext8 rd

/-- LB (R113). -/
def execLb (rd rs1 : RegIdx) (imm : Word) (s : State) : Host.Outcome State Fault Refusal :=
  runAlone (splitLb rd imm) (s.readReg rs1) (0#32) s

/-- LH, the stage split: `addr <- x[rs1] + imm; x[rd] <- sext_16(MemRead(addr, 2))` (R114). -/
def splitLh (rd : RegIdx) (imm : Word) : StageSplit where
  execute _pc a _b := executeLoad imm a
  commit := commitLoad 2 sext16 rd

/-- LH (R114). -/
def execLh (rd rs1 : RegIdx) (imm : Word) (s : State) : Host.Outcome State Fault Refusal :=
  runAlone (splitLh rd imm) (s.readReg rs1) (0#32) s

/-- LW, the stage split: `addr <- x[rs1] + imm; x[rd] <- MemRead(addr, 4)` (R115). -/
def splitLw (rd : RegIdx) (imm : Word) : StageSplit where
  execute _pc a _b := executeLoad imm a
  commit := commitLoad 4 loadedWord rd

/-- LW (R115). -/
def execLw (rd rs1 : RegIdx) (imm : Word) (s : State) : Host.Outcome State Fault Refusal :=
  runAlone (splitLw rd imm) (s.readReg rs1) (0#32) s

/-- LBU, the stage split: `addr <- x[rs1] + imm; x[rd] <- zext_8(MemRead(addr, 1))` (R116). -/
def splitLbu (rd : RegIdx) (imm : Word) : StageSplit where
  execute _pc a _b := executeLoad imm a
  commit := commitLoad 1 zext8 rd

/-- LBU (R116). -/
def execLbu (rd rs1 : RegIdx) (imm : Word) (s : State) : Host.Outcome State Fault Refusal :=
  runAlone (splitLbu rd imm) (s.readReg rs1) (0#32) s

/-- LHU, the stage split: `addr <- x[rs1] + imm; x[rd] <- zext_16(MemRead(addr, 2))` (R117). -/
def splitLhu (rd : RegIdx) (imm : Word) : StageSplit where
  execute _pc a _b := executeLoad imm a
  commit := commitLoad 2 zext16 rd

/-- LHU (R117). -/
def execLhu (rd rs1 : RegIdx) (imm : Word) (s : State) : Host.Outcome State Fault Refusal :=
  runAlone (splitLhu rd imm) (s.readReg rs1) (0#32) s

/-- SB, the stage split: `addr <- x[rs1] + imm; MemWrite(addr, 1, x[rs2][7:0])` (R118). -/
def splitSb (imm : Word) : StageSplit where
  execute _pc a b := executeStore imm a b
  commit := commitStore 1

/-- SB (R118). -/
def execSb (rs1 rs2 : RegIdx) (imm : Word) (s : State) : Host.Outcome State Fault Refusal :=
  runAlone (splitSb imm) (s.readReg rs1) (s.readReg rs2) s

/-- SH, the stage split: `addr <- x[rs1] + imm; MemWrite(addr, 2, x[rs2][15:0])` (R119). -/
def splitSh (imm : Word) : StageSplit where
  execute _pc a b := executeStore imm a b
  commit := commitStore 2

/-- SH (R119). -/
def execSh (rs1 rs2 : RegIdx) (imm : Word) (s : State) : Host.Outcome State Fault Refusal :=
  runAlone (splitSh imm) (s.readReg rs1) (s.readReg rs2) s

/-- SW, the stage split: `addr <- x[rs1] + imm; MemWrite(addr, 4, x[rs2])` (R120). -/
def splitSw (imm : Word) : StageSplit where
  execute _pc a b := executeStore imm a b
  commit := commitStore 4

/-- SW (R120). -/
def execSw (rs1 rs2 : RegIdx) (imm : Word) (s : State) : Host.Outcome State Fault Refusal :=
  runAlone (splitSw imm) (s.readReg rs1) (s.readReg rs2) s

end Sys2Proof.Machine
end

