-- ==== Sys2Proof/Machine/UpperImmediate.lean ====
section
/-! DEFINITION. The two upper-immediate instructions (spec 41_upper_immediate.md R104, R105). -/

namespace Sys2Proof.Machine

/-- LUI, the stage split: `x[rd] <- imm` (R104). -/
def splitLui (rd : RegIdx) (imm : Word) : StageSplit where
  execute _pc _a _b := executeResult imm
  commit := commitResult rd

/-- LUI (R104). -/
def execLui (rd : RegIdx) (imm : Word) (s : State) : Host.Outcome State Fault Refusal :=
  runAlone (splitLui rd imm) (0#32) (0#32) s

/-- AUIPC, the stage split: `x[rd] <- pc + imm`, pc being the AUIPC's own address (R105). -/
def splitAuipc (rd : RegIdx) (imm : Word) : StageSplit where
  execute pc _a _b := executeResult (pc + imm)
  commit := commitResult rd

/-- AUIPC (R105). -/
def execAuipc (rd : RegIdx) (imm : Word) (s : State) : Host.Outcome State Fault Refusal :=
  runAlone (splitAuipc rd imm) (0#32) (0#32) s

end Sys2Proof.Machine
end

