-- ==== Sys2Proof/WellFormed.lean ====
section
/-! DEFINITION. Which instructions an encoding exists for: the ranges of the immediates (R63 to R67).
Register numbers and shift amounts are in range by their types. -/

namespace Sys2Proof

/-- An I- or S-type immediate: -2048..2047 as a signed number (R63, R64). -/
abbrev imm12Ok (imm : Word) : Prop := -2048 ≤ imm.toInt ∧ imm.toInt ≤ 2047

/-- A B-type offset: an even number in -4096..4094 (R65). -/
abbrev immBOk (imm : Word) : Prop := -4096 ≤ imm.toInt ∧ imm.toInt ≤ 4094 ∧ imm.toNat % 2 = 0

/-- A J-type offset: an even number in -1048576..1048574 (R67). -/
abbrev immJOk (imm : Word) : Prop := -1048576 ≤ imm.toInt ∧ imm.toInt ≤ 1048574 ∧ imm.toNat % 2 = 0

/-- A U-type immediate: its low 12 bits are zero (R66). -/
abbrev immUOk (imm : Word) : Prop := imm.toNat % 4096 = 0

/-- Every immediate of the instruction is one its format can hold. -/
def Instr.wf : Instr → Bool
  | .lui _ imm | .auipc _ imm => decide (immUOk imm)
  | .jal _ imm => decide (immJOk imm)
  | .jalr _ _ imm => decide (imm12Ok imm)
  | .beq _ _ imm | .bne _ _ imm | .blt _ _ imm | .bge _ _ imm | .bltu _ _ imm | .bgeu _ _ imm => decide (immBOk imm)
  | .lb _ _ imm | .lh _ _ imm | .lw _ _ imm | .lbu _ _ imm | .lhu _ _ imm => decide (imm12Ok imm)
  | .sb _ _ imm | .sh _ _ imm | .sw _ _ imm => decide (imm12Ok imm)
  | .addi _ _ imm | .slti _ _ imm | .sltiu _ _ imm | .xori _ _ imm | .ori _ _ imm | .andi _ _ imm => decide (imm12Ok imm)
  | .slli _ _ _ | .srli _ _ _ | .srai _ _ _ => true
  | .add _ _ _ | .sub _ _ _ | .sll _ _ _ | .slt _ _ _ | .sltu _ _ _ | .xor _ _ _ | .srl _ _ _ | .sra _ _ _
  | .or _ _ _ | .and _ _ _ => true

end Sys2Proof
end

