-- ==== Sys2Proof/Decode.lean ====
section
/-! DEFINITION. The decoder (R61 to R74), total on every word and on every list of bytes, and after it the encoder (R62),
written from the same tables. A word that matches no row of R73 is rejected by name. -/

namespace Sys2Proof

/-! ### Fields (R61) -/

/-- `w[6:0]`. -/
def fieldOpcode (w : Word) : BitVec 7 := w.extractLsb' 0 7
/-- `w[11:7]`. -/
def fieldRd (w : Word) : RegIdx := w.extractLsb' 7 5
/-- `w[14:12]`. -/
def fieldFunct3 (w : Word) : BitVec 3 := w.extractLsb' 12 3
/-- `w[19:15]`. -/
def fieldRs1 (w : Word) : RegIdx := w.extractLsb' 15 5
/-- `w[24:20]`. -/
def fieldRs2 (w : Word) : RegIdx := w.extractLsb' 20 5
/-- `w[31:25]`. -/
def fieldFunct7 (w : Word) : BitVec 7 := w.extractLsb' 25 7

/-! ### Immediates (R63 to R68) -/

/-- I-type: `sext_12(w[31:20])` (R63). -/
def fieldImmI (w : Word) : Word := (w.extractLsb' 20 12).signExtend 32
/-- S-type: `sext_12({w[31:25], w[11:7]})` (R64). -/
def fieldImmS (w : Word) : Word := (w.extractLsb' 25 7 ++ w.extractLsb' 7 5 : BitVec 12).signExtend 32
/-- B-type: `sext_13({w[31], w[7], w[30:25], w[11:8], 0})` (R65). -/
def fieldImmB (w : Word) : Word :=
  (w.extractLsb' 31 1 ++ w.extractLsb' 7 1 ++ w.extractLsb' 25 6 ++ w.extractLsb' 8 4 ++ 0#1 : BitVec 13).signExtend 32
/-- U-type: `{w[31:12], 000000000000}` (R66). -/
def fieldImmU (w : Word) : Word := (w.extractLsb' 12 20 ++ 0#12 : BitVec 32)
/-- J-type: `sext_21({w[31], w[19:12], w[20], w[30:21], 0})` (R67). -/
def fieldImmJ (w : Word) : Word :=
  (w.extractLsb' 31 1 ++ w.extractLsb' 12 8 ++ w.extractLsb' 20 1 ++ w.extractLsb' 21 10 ++ 0#1 : BitVec 21).signExtend 32
/-- Shift amount: `w[24:20]`, 0..31 (R68). -/
def fieldShamt (w : Word) : BitVec 5 := w.extractLsb' 20 5

/-! ### The decoder (R71, R72) -/

/-- Why bytes are no instruction. -/
inductive DecodeError where
  /-- The word matches no row of R73 (R74). -/
  | unknownInstruction (word : Word)
  /-- Fewer than four bytes: no whole instruction word (R60). -/
  | truncated
  deriving DecidableEq, Repr

/-- `decode(w)` (R71, R72): the instruction of the one row that matches, or UnknownInstruction. -/
def decode (w : Word) : Except DecodeError Instr :=
  let rd := fieldRd w
  let rs1 := fieldRs1 w
  let rs2 := fieldRs2 w
  let unknown := .error (.unknownInstruction w)
  match fieldOpcode w with
  | 0b0110111#7 => .ok (.lui rd (fieldImmU w))
  | 0b0010111#7 => .ok (.auipc rd (fieldImmU w))
  | 0b1101111#7 => .ok (.jal rd (fieldImmJ w))
  | 0b1100111#7 =>
    match fieldFunct3 w with
    | 0b000#3 => .ok (.jalr rd rs1 (fieldImmI w))
    | _ => unknown
  | 0b1100011#7 =>
    match fieldFunct3 w with
    | 0b000#3 => .ok (.beq rs1 rs2 (fieldImmB w))
    | 0b001#3 => .ok (.bne rs1 rs2 (fieldImmB w))
    | 0b100#3 => .ok (.blt rs1 rs2 (fieldImmB w))
    | 0b101#3 => .ok (.bge rs1 rs2 (fieldImmB w))
    | 0b110#3 => .ok (.bltu rs1 rs2 (fieldImmB w))
    | 0b111#3 => .ok (.bgeu rs1 rs2 (fieldImmB w))
    | _ => unknown
  | 0b0000011#7 =>
    match fieldFunct3 w with
    | 0b000#3 => .ok (.lb rd rs1 (fieldImmI w))
    | 0b001#3 => .ok (.lh rd rs1 (fieldImmI w))
    | 0b010#3 => .ok (.lw rd rs1 (fieldImmI w))
    | 0b100#3 => .ok (.lbu rd rs1 (fieldImmI w))
    | 0b101#3 => .ok (.lhu rd rs1 (fieldImmI w))
    | _ => unknown
  | 0b0100011#7 =>
    match fieldFunct3 w with
    | 0b000#3 => .ok (.sb rs1 rs2 (fieldImmS w))
    | 0b001#3 => .ok (.sh rs1 rs2 (fieldImmS w))
    | 0b010#3 => .ok (.sw rs1 rs2 (fieldImmS w))
    | _ => unknown
  | 0b0010011#7 =>
    match fieldFunct3 w with
    | 0b000#3 => .ok (.addi rd rs1 (fieldImmI w))
    | 0b010#3 => .ok (.slti rd rs1 (fieldImmI w))
    | 0b011#3 => .ok (.sltiu rd rs1 (fieldImmI w))
    | 0b100#3 => .ok (.xori rd rs1 (fieldImmI w))
    | 0b110#3 => .ok (.ori rd rs1 (fieldImmI w))
    | 0b111#3 => .ok (.andi rd rs1 (fieldImmI w))
    | 0b001#3 =>
      match fieldFunct7 w with
      | 0b0000000#7 => .ok (.slli rd rs1 (fieldShamt w))
      | _ => unknown
    | 0b101#3 =>
      match fieldFunct7 w with
      | 0b0000000#7 => .ok (.srli rd rs1 (fieldShamt w))
      | 0b0100000#7 => .ok (.srai rd rs1 (fieldShamt w))
      | _ => unknown
    | _ => unknown
  | 0b0110011#7 =>
    match fieldFunct7 w with
    | 0b0000000#7 =>
      match fieldFunct3 w with
      | 0b000#3 => .ok (.add rd rs1 rs2)
      | 0b001#3 => .ok (.sll rd rs1 rs2)
      | 0b010#3 => .ok (.slt rd rs1 rs2)
      | 0b011#3 => .ok (.sltu rd rs1 rs2)
      | 0b100#3 => .ok (.xor rd rs1 rs2)
      | 0b101#3 => .ok (.srl rd rs1 rs2)
      | 0b110#3 => .ok (.or rd rs1 rs2)
      | 0b111#3 => .ok (.and rd rs1 rs2)
      | _ => unknown
    | 0b0100000#7 =>
      match fieldFunct3 w with
      | 0b000#3 => .ok (.sub rd rs1 rs2)
      | 0b101#3 => .ok (.sra rd rs1 rs2)
      | _ => unknown
    | _ => unknown
  | _ => unknown

/-- Four bytes as the little-endian word they spell, the lowest address first (R38, R60). -/
def wordOfBytes (b0 b1 b2 b3 : Byte) : Word := (b3 ++ b2 ++ b1 ++ b0 : BitVec 32)

/-- Byte `k` (0..3) of a word: `w[8k+7:8k]` (R40). -/
def byteOfWord (w : Word) (k : Nat) : Byte := w.extractLsb' (8 * k) 8

/-- Decodes the instruction at the head of a list of bytes, lowest address first, and gives the bytes after it (R60). -/
def decodeBytes : List Byte → Except DecodeError (Instr × List Byte)
  | b0 :: b1 :: b2 :: b3 :: rest =>
    match decode (wordOfBytes b0 b1 b2 b3) with
    | .ok i => .ok (i, rest)
    | .error e => .error e
  | _ => .error .truncated

/-! ### The encoder (R62) -/

/-- R-type: funct7, rs2, rs1, funct3, rd, opcode. -/
def encodeR (funct7 : BitVec 7) (rs2 rs1 : RegIdx) (funct3 : BitVec 3) (rd : RegIdx) (opcode : BitVec 7) : Word :=
  (funct7 ++ rs2 ++ rs1 ++ funct3 ++ rd ++ opcode : BitVec 32)

/-- I-type: imm[11:0], rs1, funct3, rd, opcode. -/
def encodeI (imm : Word) (rs1 : RegIdx) (funct3 : BitVec 3) (rd : RegIdx) (opcode : BitVec 7) : Word :=
  (imm.extractLsb' 0 12 ++ rs1 ++ funct3 ++ rd ++ opcode : BitVec 32)

/-- S-type: imm[11:5], rs2, rs1, funct3, imm[4:0], opcode. -/
def encodeS (imm : Word) (rs2 rs1 : RegIdx) (funct3 : BitVec 3) (opcode : BitVec 7) : Word :=
  (imm.extractLsb' 5 7 ++ rs2 ++ rs1 ++ funct3 ++ imm.extractLsb' 0 5 ++ opcode : BitVec 32)

/-- B-type: imm[12], imm[10:5], rs2, rs1, funct3, imm[4:1], imm[11], opcode. -/
def encodeB (imm : Word) (rs2 rs1 : RegIdx) (funct3 : BitVec 3) (opcode : BitVec 7) : Word :=
  (imm.extractLsb' 12 1 ++ imm.extractLsb' 5 6 ++ rs2 ++ rs1 ++ funct3 ++ imm.extractLsb' 1 4 ++ imm.extractLsb' 11 1
    ++ opcode : BitVec 32)

/-- U-type: imm[31:12], rd, opcode. -/
def encodeU (imm : Word) (rd : RegIdx) (opcode : BitVec 7) : Word :=
  (imm.extractLsb' 12 20 ++ rd ++ opcode : BitVec 32)

/-- J-type: imm[20], imm[10:1], imm[11], imm[19:12], rd, opcode. -/
def encodeJ (imm : Word) (rd : RegIdx) (opcode : BitVec 7) : Word :=
  (imm.extractLsb' 20 1 ++ imm.extractLsb' 1 10 ++ imm.extractLsb' 11 1 ++ imm.extractLsb' 12 8 ++ rd ++ opcode : BitVec 32)

/-- The word of an instruction (R62, R73). -/
def encode : Instr → Word
  | .lui rd imm => encodeU imm rd 0b0110111#7
  | .auipc rd imm => encodeU imm rd 0b0010111#7
  | .jal rd imm => encodeJ imm rd 0b1101111#7
  | .jalr rd rs1 imm => encodeI imm rs1 0b000#3 rd 0b1100111#7
  | .beq rs1 rs2 imm => encodeB imm rs2 rs1 0b000#3 0b1100011#7
  | .bne rs1 rs2 imm => encodeB imm rs2 rs1 0b001#3 0b1100011#7
  | .blt rs1 rs2 imm => encodeB imm rs2 rs1 0b100#3 0b1100011#7
  | .bge rs1 rs2 imm => encodeB imm rs2 rs1 0b101#3 0b1100011#7
  | .bltu rs1 rs2 imm => encodeB imm rs2 rs1 0b110#3 0b1100011#7
  | .bgeu rs1 rs2 imm => encodeB imm rs2 rs1 0b111#3 0b1100011#7
  | .lb rd rs1 imm => encodeI imm rs1 0b000#3 rd 0b0000011#7
  | .lh rd rs1 imm => encodeI imm rs1 0b001#3 rd 0b0000011#7
  | .lw rd rs1 imm => encodeI imm rs1 0b010#3 rd 0b0000011#7
  | .lbu rd rs1 imm => encodeI imm rs1 0b100#3 rd 0b0000011#7
  | .lhu rd rs1 imm => encodeI imm rs1 0b101#3 rd 0b0000011#7
  | .sb rs1 rs2 imm => encodeS imm rs2 rs1 0b000#3 0b0100011#7
  | .sh rs1 rs2 imm => encodeS imm rs2 rs1 0b001#3 0b0100011#7
  | .sw rs1 rs2 imm => encodeS imm rs2 rs1 0b010#3 0b0100011#7
  | .addi rd rs1 imm => encodeI imm rs1 0b000#3 rd 0b0010011#7
  | .slti rd rs1 imm => encodeI imm rs1 0b010#3 rd 0b0010011#7
  | .sltiu rd rs1 imm => encodeI imm rs1 0b011#3 rd 0b0010011#7
  | .xori rd rs1 imm => encodeI imm rs1 0b100#3 rd 0b0010011#7
  | .ori rd rs1 imm => encodeI imm rs1 0b110#3 rd 0b0010011#7
  | .andi rd rs1 imm => encodeI imm rs1 0b111#3 rd 0b0010011#7
  | .slli rd rs1 shamt => encodeR 0b0000000#7 shamt rs1 0b001#3 rd 0b0010011#7
  | .srli rd rs1 shamt => encodeR 0b0000000#7 shamt rs1 0b101#3 rd 0b0010011#7
  | .srai rd rs1 shamt => encodeR 0b0100000#7 shamt rs1 0b101#3 rd 0b0010011#7
  | .add rd rs1 rs2 => encodeR 0b0000000#7 rs2 rs1 0b000#3 rd 0b0110011#7
  | .sub rd rs1 rs2 => encodeR 0b0100000#7 rs2 rs1 0b000#3 rd 0b0110011#7
  | .sll rd rs1 rs2 => encodeR 0b0000000#7 rs2 rs1 0b001#3 rd 0b0110011#7
  | .slt rd rs1 rs2 => encodeR 0b0000000#7 rs2 rs1 0b010#3 rd 0b0110011#7
  | .sltu rd rs1 rs2 => encodeR 0b0000000#7 rs2 rs1 0b011#3 rd 0b0110011#7
  | .xor rd rs1 rs2 => encodeR 0b0000000#7 rs2 rs1 0b100#3 rd 0b0110011#7
  | .srl rd rs1 rs2 => encodeR 0b0000000#7 rs2 rs1 0b101#3 rd 0b0110011#7
  | .sra rd rs1 rs2 => encodeR 0b0100000#7 rs2 rs1 0b101#3 rd 0b0110011#7
  | .or rd rs1 rs2 => encodeR 0b0000000#7 rs2 rs1 0b110#3 rd 0b0110011#7
  | .and rd rs1 rs2 => encodeR 0b0000000#7 rs2 rs1 0b111#3 rd 0b0110011#7

/-! ### The opcode table as data (R73) -/

/-- One row of R73: a word is the row's instruction iff `w & mask = match`. -/
structure OpcodeRow where
  mnemonic : String
  mask : Word
  bits : Word
  deriving DecidableEq, Repr

/-- `w & mask = match`. -/
def OpcodeRow.accepts (r : OpcodeRow) (w : Word) : Bool := w &&& r.mask == r.bits

/-- The rows with only a major opcode, or with an opcode and funct3 (R73). -/
def opcodeRowsUJIBS : List OpcodeRow :=
  [⟨"LUI", 0x0000007F, 0x00000037⟩, ⟨"AUIPC", 0x0000007F, 0x00000017⟩, ⟨"JAL", 0x0000007F, 0x0000006F⟩,
   ⟨"JALR", 0x0000707F, 0x00000067⟩,
   ⟨"BEQ", 0x0000707F, 0x00000063⟩, ⟨"BNE", 0x0000707F, 0x00001063⟩, ⟨"BLT", 0x0000707F, 0x00004063⟩,
   ⟨"BGE", 0x0000707F, 0x00005063⟩, ⟨"BLTU", 0x0000707F, 0x00006063⟩, ⟨"BGEU", 0x0000707F, 0x00007063⟩,
   ⟨"LB", 0x0000707F, 0x00000003⟩, ⟨"LH", 0x0000707F, 0x00001003⟩, ⟨"LW", 0x0000707F, 0x00002003⟩,
   ⟨"LBU", 0x0000707F, 0x00004003⟩, ⟨"LHU", 0x0000707F, 0x00005003⟩,
   ⟨"SB", 0x0000707F, 0x00000023⟩, ⟨"SH", 0x0000707F, 0x00001023⟩, ⟨"SW", 0x0000707F, 0x00002023⟩]

/-- The rows of OP-IMM and OP (R73). -/
def opcodeRowsAlu : List OpcodeRow :=
  [⟨"ADDI", 0x0000707F, 0x00000013⟩, ⟨"SLTI", 0x0000707F, 0x00002013⟩, ⟨"SLTIU", 0x0000707F, 0x00003013⟩,
   ⟨"XORI", 0x0000707F, 0x00004013⟩, ⟨"ORI", 0x0000707F, 0x00006013⟩, ⟨"ANDI", 0x0000707F, 0x00007013⟩,
   ⟨"SLLI", 0xFE00707F, 0x00001013⟩, ⟨"SRLI", 0xFE00707F, 0x00005013⟩, ⟨"SRAI", 0xFE00707F, 0x40005013⟩,
   ⟨"ADD", 0xFE00707F, 0x00000033⟩, ⟨"SUB", 0xFE00707F, 0x40000033⟩, ⟨"SLL", 0xFE00707F, 0x00001033⟩,
   ⟨"SLT", 0xFE00707F, 0x00002033⟩, ⟨"SLTU", 0xFE00707F, 0x00003033⟩, ⟨"XOR", 0xFE00707F, 0x00004033⟩,
   ⟨"SRL", 0xFE00707F, 0x00005033⟩, ⟨"SRA", 0xFE00707F, 0x40005033⟩, ⟨"OR", 0xFE00707F, 0x00006033⟩,
   ⟨"AND", 0xFE00707F, 0x00007033⟩]

/-- The complete opcode table (R73), 37 rows. -/
def opcodeTable : List OpcodeRow := opcodeRowsUJIBS ++ opcodeRowsAlu

/-- The mnemonic of an instruction, as the opcode table spells it. -/
def Instr.mnemonic : Instr → String
  | .lui .. => "LUI" | .auipc .. => "AUIPC" | .jal .. => "JAL" | .jalr .. => "JALR"
  | .beq .. => "BEQ" | .bne .. => "BNE" | .blt .. => "BLT" | .bge .. => "BGE" | .bltu .. => "BLTU" | .bgeu .. => "BGEU"
  | .lb .. => "LB" | .lh .. => "LH" | .lw .. => "LW" | .lbu .. => "LBU" | .lhu .. => "LHU"
  | .sb .. => "SB" | .sh .. => "SH" | .sw .. => "SW"
  | .addi .. => "ADDI" | .slti .. => "SLTI" | .sltiu .. => "SLTIU" | .xori .. => "XORI" | .ori .. => "ORI"
  | .andi .. => "ANDI" | .slli .. => "SLLI" | .srli .. => "SRLI" | .srai .. => "SRAI"
  | .add .. => "ADD" | .sub .. => "SUB" | .sll .. => "SLL" | .slt .. => "SLT" | .sltu .. => "SLTU" | .xor .. => "XOR"
  | .srl .. => "SRL" | .sra .. => "SRA" | .or .. => "OR" | .and .. => "AND"

/-- The 32-bit word of a table word of `nbits` bits: every bit above `nbits` is 0. -/
def wordOfTable (nbits w : Nat) : Word := BitVec.ofNat 32 (w % 2 ^ nbits)

/-- The instruction the decoder reads from the table's bits, laid out as four bytes in memory order. -/
def decodeTableWord (nbits w : Nat) : Option Instr :=
  let word := wordOfTable nbits w
  match decodeBytes [byteOfWord word 0, byteOfWord word 1, byteOfWord word 2, byteOfWord word 3] with
  | .ok (i, _) => some i
  | .error _ => none

end Sys2Proof
end

