-- ==== Sys2Proof/Machine/Cache.lean ====
section
/-! DEFINITION. The L1I instruction cache (spec 20_memory.md R48 to R53): lookup, the word of a line, and the fill.
Only Fetch calls these; no load and no store does (R53, R57). -/

namespace Sys2Proof.Machine

/-- `lbase(a) = a - (a mod LINE_BYTES)` (R48). -/
def lineBase (p : Params) (a : Word) : Word := BitVec.ofNat 32 (a.toNat - a.toNat % p.lineBytes)

/-- `lidx(a) = (a / LINE_BYTES) mod NUM_LINES` (R48). -/
def lineIndex (p : Params) (a : Word) : Nat := a.toNat / p.lineBytes % p.numLines

/-- Line i of the L1I, if it is valid. -/
def lineAt (lines : List (Option CacheLine)) (i : Nat) : Option CacheLine := (lines[i]?).join

/-- Byte `o` of a block. -/
def blockByte (data : List Byte) (o : Nat) : Byte := data.getD o unlistedByte

/-- The word at offset `o` of a block, little-endian (R49). -/
def blockWord (data : List Byte) (o : Nat) : Word :=
  wordOfBytes (blockByte data o) (blockByte data (o + 1)) (blockByte data (o + 2)) (blockByte data (o + 3))

/-- The word a line holds for the address, at offset `a - lbase(a)` (R49). -/
def lineWord (p : Params) (line : CacheLine) (a : Word) : Word := blockWord line.data (a.toNat % p.lineBytes)

/-- The lookup (R48, R49): the word on a hit, `none` on a miss. -/
def lookup (p : Params) (lines : List (Option CacheLine)) (a : Word) : Option Word :=
  match lineAt lines (lineIndex p a) with
  | some line => if line.base = lineBase p a then some (lineWord p line a) else none
  | none => none

/-- The miss fill (R50): one block read of the line that contains the address, installed over whatever the slot held. -/
def fill (p : Params) (mem : Memory) (lines : List (Option CacheLine)) (a : Word) : List (Option CacheLine) :=
  lines.set (lineIndex p a)
    (some { base := lineBase p a, data := Memory.readBlock mem (lineBase p a).toNat p.lineBytes })

/-- The word a miss fill has brought in, read from the line at the address's index when the wait ends (R153 case 1).
Without a valid line there, which R155 rules out, the word is 0 (log entry 9). -/
def deliveredWord (p : Params) (lines : List (Option CacheLine)) (a : Word) : Word :=
  match lineAt lines (lineIndex p a) with
  | some line => lineWord p line a
  | none => 0#32

end Sys2Proof.Machine
end

