-- ==== Sys2Proof/Machine/Fetch.lean ====
section
/-! DEFINITION. The Fetch unit, one tick (spec 70_reset_and_hazards.md R153, R154). -/

namespace Sys2Proof.Machine

/-- What Fetch does to the Fetch unit's state in one tick, and the value it offers to FD. -/
structure FetchOut where
  fd : FdLatch
  state : State

/-- Delivers a word: `FD' = Fetched{fpc, word, fpc + 4}` and `fpc <- fpc + 4` (R153, R121). -/
def deliver (s : State) (word : Word) : FetchOut where
  fd := .fetched s.fpc word (predictedNext s.fpc)
  state := { s with fpc := nextPc s.fpc }

/-- Delivers a fault token for the fetch address: `FD' = Fault{fpc, err}` and `fpc <- fpc + 4` (R153, R154). -/
def deliverToken (s : State) (err : FatalError) : FetchOut where
  fd := .fault s.fpc err
  state := { s with fpc := nextPc s.fpc }

/-- Case 1 of R153: a miss wait is in progress. -/
def fetchWaiting (s : State) : FetchOut :=
  let t := { s with fwait := s.fwait - 1 }
  if t.fwait = 0 then deliver t (deliveredWord s.cfg s.l1i s.fpc) else { fd := .empty, state := t }

/-- Case 5 of R153: the lookup, a hit or a miss. -/
def fetchLookup (s : State) : FetchOut :=
  match lookup s.cfg s.l1i s.fpc with
  | some word => deliver { s with l1iHits := s.l1iHits + 1 } word
  | none =>
    { fd := .empty,
      state := { s with
        l1iMisses := s.l1iMisses + 1
        l1i := fill s.cfg s.mem s.l1i s.fpc
        fwait := s.cfg.missPenalty } }

/-- Fetch, one tick, when Decode did not stall: the cases of R153 in order. -/
def fetchStage (s : State) : FetchOut :=
  if 0 < s.fwait then fetchWaiting s
  else if s.cfg.stop = .haltAt s.fpc then { fd := .empty, state := s }
  else if ¬ wordAligned s.fpc then deliverToken s (.misalignedAccess s.fpc s.fpc 4)
  else if s.cfg.memSize < s.fpc.toNat + 4 then deliverToken s (.memoryOutOfBounds s.fpc s.fpc 4)
  else fetchLookup s

end Sys2Proof.Machine
end

