-- ==== Sys2Proof/Machine/Splits.lean ====
section
/-! DEFINITION. The stage split of every instruction, for the pipeline's Execute and Write-back stages (spec 70_reset_and_hazards.md R161, R163). -/

namespace Sys2Proof.Machine

/-- The stage split (R12) of an instruction. -/
def splitOf : Instr → StageSplit
  | .lui rd imm => splitLui rd imm
  | .auipc rd imm => splitAuipc rd imm
  | .jal rd imm => splitJal rd imm
  | .jalr rd _ imm => splitJalr rd imm
  | .beq _ _ imm => splitBeq imm
  | .bne _ _ imm => splitBne imm
  | .blt _ _ imm => splitBlt imm
  | .bge _ _ imm => splitBge imm
  | .bltu _ _ imm => splitBltu imm
  | .bgeu _ _ imm => splitBgeu imm
  | .lb rd _ imm => splitLb rd imm
  | .lh rd _ imm => splitLh rd imm
  | .lw rd _ imm => splitLw rd imm
  | .lbu rd _ imm => splitLbu rd imm
  | .lhu rd _ imm => splitLhu rd imm
  | .sb _ _ imm => splitSb imm
  | .sh _ _ imm => splitSh imm
  | .sw _ _ imm => splitSw imm
  | .addi rd _ imm => splitAddi rd imm
  | .slti rd _ imm => splitSlti rd imm
  | .sltiu rd _ imm => splitSltiu rd imm
  | .xori rd _ imm => splitXori rd imm
  | .ori rd _ imm => splitOri rd imm
  | .andi rd _ imm => splitAndi rd imm
  | .slli rd _ shamt => splitSlli rd shamt
  | .srli rd _ shamt => splitSrli rd shamt
  | .srai rd _ shamt => splitSrai rd shamt
  | .add rd _ _ => splitAdd rd
  | .sub rd _ _ => splitSub rd
  | .sll rd _ _ => splitSll rd
  | .slt rd _ _ => splitSlt rd
  | .sltu rd _ _ => splitSltu rd
  | .xor rd _ _ => splitXor rd
  | .srl rd _ _ => splitSrl rd
  | .sra rd _ _ => splitSra rd
  | .or rd _ _ => splitOr rd
  | .and rd _ _ => splitAnd rd

end Sys2Proof.Machine
end

