-- ==== Sys2Proof/Machine/Pipeline.lean ====
section
/-! DEFINITION. The pipeline, one tick (spec 70_reset_and_hazards.md R151 to R165): Write-back, Execute, Decode, Fetch,
redirect, latch update and termination check, in that order; and a run of ticks up to the next retirement. -/

namespace Sys2Proof.Machine

/-! ### Write-back (R163) -/

/-- Write-back on EW: the instruction's commit, and one more retirement if nothing raised. -/
def writeBack (s : State) : Except FatalError State :=
  match s.ew with
  | .empty => .ok s
  | .executed pc ins result addr data =>
    match (splitOf ins).commit pc result addr data s with
    | .error e => .error e
    | .ok t => .ok { t with retired := t.retired + 1 }

/-- Whether the Write-back that led from `s` to `t` was the N-th under `RetireCount(N)` (R164). -/
def retireCountReached (s t : State) : Bool :=
  match s.cfg.stop with
  | .retireCount n => decide (s.ew ≠ .empty ∧ t.retired = n)
  | .haltAt _ => false

/-! ### Execute (R161) and forwarding (R158) -/

/-- What Execute hands on: the value for EW, the forwarded register and result, and a redirect target. -/
structure ExecuteOut where
  ew : EwLatch
  forward : Option (RegIdx × Word)
  redirect : Option Word
  deriving DecidableEq, Repr

/-- What the Execute-to-Decode path carries for an instruction with that result: rd and the result, for an instruction that
writes a register other than x0 and is not a load (R158). -/
def forwarded (ins : Instr) (result : Word) : Option (RegIdx × Word) :=
  match rdOf ins with
  | none => none
  | some rd => if isLoad ins = true ∨ rd = 0#5 then none else some (rd, result)

/-- Execute, on DE: a fault token raises its error; a misprediction asks for a redirect (R161, R122). -/
def executeStage : DeLatch → Except FatalError ExecuteOut
  | .empty => .ok { ew := .empty, forward := none, redirect := none }
  | .fault _ err => .error err
  | .decoded pc ins a b predNext =>
    match (splitOf ins).execute pc a b with
    | .error e => .error e
    | .ok c =>
      .ok { ew := .executed pc ins c.result c.addr c.data
            forward := forwarded ins c.result
            redirect := if mispredicts predNext c.transfer then some (c.transfer.actualNext pc) else none }

/-! ### Decode (R156, R157, R159) -/

/-- The operand read of R157: 0 for x0 and for a source the format lacks, else the forwarded result, else the register file
as Write-back of this tick left it. -/
def readOperand (s : State) (forward : Option (RegIdx × Word)) : Option RegIdx → Word
  | none => 0#32
  | some r =>
    if r = 0#5 then 0#32
    else
      match forward with
      | some (rd, v) => if rd = r then v else s.readReg r
      | none => s.readReg r

/-- The load-use condition (R159) for an instruction in Decode, given DE. -/
def loadUse (de : DeLatch) (d : Instr) : Bool :=
  match de with
  | .decoded _ ins _ _ _ =>
    match rdOf ins with
    | some rd => decide (isLoad ins = true ∧ rd ≠ 0#5 ∧ rd ∈ srcsOf d)
    | none => false
  | .empty => false
  | .fault _ _ => false

/-- What Decode does in one tick. -/
inductive DecodeOut where
  /-- The value for DE. -/
  | pass (de : DeLatch)
  /-- The load-use stall: a bubble for DE, FD held, no fetch. -/
  | stall
  deriving DecidableEq, Repr

/-- Decode, on FD (R156); `s` is the state after this tick's Write-back, whose DE is the one from before the tick. -/
def decodeStage (s : State) (forward : Option (RegIdx × Word)) : DecodeOut :=
  match s.fd with
  | .empty => .pass .empty
  | .fault pc err => .pass (.fault pc err)
  | .fetched pc word predNext =>
    match decode word with
    | .error _ => .pass (.fault pc (.unknownInstruction pc word))
    | .ok d =>
      if loadUse s.de d then .stall
      else .pass (.decoded pc d (readOperand s forward (rs1Of d)) (readOperand s forward (rs2Of d)) predNext)

/-! ### Redirect and latch update (R152, R162) -/

/-- A flush and redirect to `target` (R162): FD and DE are emptied, the fetch PC is the target, any miss wait is abandoned
(a line already installed stays), and the flush is counted. EW takes the mispredicting instruction. -/
def redirectTo (s : State) (ew : EwLatch) (target : Word) : State :=
  { s with fd := .empty, de := .empty, ew := ew, fpc := target, fwait := 0, flushes := s.flushes + 1 }

/-- Decode and Fetch of one tick, and the latch update or redirect after them (R151 steps 4 to 7); `s` is the state after
Write-back and `x` what Execute handed on. -/
def advance (s : State) (x : ExecuteOut) : State :=
  match decodeStage s x.forward with
  | .stall =>
    match x.redirect with
    | some target => redirectTo s x.ew target
    | none => { s with ew := x.ew, de := .empty }
  | .pass de =>
    let f := fetchStage s
    match x.redirect with
    | some target => redirectTo f.state x.ew target
    | none => { f.state with ew := x.ew, de := de, fd := f.fd }

/-! ### Termination (R164) -/

/-- Whether every latch is empty and no miss wait is in progress. -/
def State.drained (s : State) : Bool := decide (s.fd = .empty ∧ s.de = .empty ∧ s.ew = .empty ∧ s.fwait = 0)

/-- The check of `HaltAt(H)`: the run ends when fpc = H and the pipeline has drained. -/
def checkHaltAt (s : State) : State :=
  if s.cfg.stop = .haltAt s.fpc ∧ s.drained = true then { s with status := .stopped } else s

/-- The termination check made once right after reset, before the first tick (R149, R164). -/
def checkAfterReset (s : State) : State :=
  match s.cfg.stop with
  | .haltAt _ => checkHaltAt s
  | .retireCount n => if s.retired = n then { s with status := .stopped } else s

/-- A launch (R149): reset, then the termination check. -/
def boot (cfg : Params) (initRegs : Vector Word 32) (initMem : Memory) : State :=
  checkAfterReset (State.launch cfg initRegs initMem)

/-! ### The tick (R151) -/

/-- The tick from its Execute step on; `s` is the state after Write-back. -/
def tickAfterWriteBack (s : State) : State :=
  match executeStage s.de with
  | .error e => raise e s
  | .ok x => checkHaltAt (advance s x)

/-- The tick of a running core. -/
def tickRunning (s : State) : State :=
  let s1 := { s with cycles := s.cycles + 1 }
  match writeBack s1 with
  | .error e => raise e s1
  | .ok t => if retireCountReached s1 t then { t with status := .stopped } else tickAfterWriteBack t

/-- One tick; a core that is stopped or halted takes none (R35, R151). -/
def tick (s : State) : State :=
  match s.status with
  | .running => tickRunning s
  | .stopped => s
  | .halted _ => s

/-- `n` ticks. -/
def ticks : Nat → State → State
  | 0, s => s
  | n + 1, s => ticks n (tick s)

/-! ### Up to the next retirement -/

/-- Ticks until an instruction retires or the run ends, at most `n` (log entry 5). -/
def ticksToRetire : Nat → State → State
  | 0, s => s
  | n + 1, s =>
    let t := tick s
    if t.status = .running ∧ t.retired = s.retired then ticksToRetire n t else t

/-- A number of ticks in which an instruction retires or the run ends: a miss wait in progress, or a lookup that misses and
its wait, then the passage of Decode, Execute and Write-back. -/
def retireBound (s : State) : Nat := s.fwait + s.cfg.missPenalty + 5

end Sys2Proof.Machine
end

