-- ==== Sys2Proof/Machine/Step.lean ====
section
/-! DEFINITION. One step of the machine: the pipelined core ticks until its next instruction retires or its run ends
(log entry 5). Everything it calls is in Pipeline.lean. Also `withFetchWord`, the placing of one instruction. -/

namespace Sys2Proof.Machine

/-- One step. A running core takes the ticks up to and including the one in which an instruction completes Write-back, a
fatal error is raised, or the caller's policy stops the run; a core whose run has ended takes no tick (R35, R143). -/
def step (s : State) : Host.Outcome State Fault Refusal :=
  match s.status with
  | .running => .next (ticksToRetire (retireBound s) s)
  | .stopped => .fault .stopped
  | .halted err => .fault (.halted err)

/-- The state with the instruction of the table word placed where the next step fetches and runs it: its four bytes at the
fetch PC, no resident L1I line for that address, and nothing else in flight (log entry 10). -/
def State.withFetchWord (s : State) (nbits w : Nat) : State :=
  { s with
    mem := Memory.writeBytes s.mem s.fpc.toNat 4 (wordOfTable nbits w)
    l1i := s.l1i.set (lineIndex s.cfg s.fpc) none
    fwait := 0
    fd := .empty
    de := .empty
    ew := .empty }

end Sys2Proof.Machine
end

