-- ==== Sys2Proof/Machine/Sequential.lean ====
section
/-! DEFINITION. The sequential reference of spec 70_reset_and_hazards.md R167, over the same state: x, mem, pc and n are
the registers, the memory, the fetch PC and the retirement count; the instruction word is read from memory, not the L1I. -/

namespace Sys2Proof.Machine

/-- Whether the caller's policy stops the sequential reference here (R167 step 1). -/
def stopsHere (s : State) : Bool :=
  match s.cfg.stop with
  | .haltAt h => decide (s.fpc = h)
  | .retireCount n => decide (s.retired = n)

/-- The word at the pc, read from memory (R167 step 3). -/
def memoryWord (s : State) : Word := BitVec.ofNat 32 (Memory.readBytes s.mem s.fpc.toNat 4)

/-- One step of the reference while it runs (R167): stop, fetch error, unknown word, or the instruction's meaning. -/
def sequentialStep (s : State) : Host.Outcome State Fault Refusal :=
  match s.status with
  | .stopped => .fault .stopped
  | .halted err => .fault (.halted err)
  | .running =>
    if stopsHere s then .next { s with status := .stopped }
    else if ¬ wordAligned s.fpc then .next (raise (.misalignedAccess s.fpc s.fpc 4) s)
    else if s.cfg.memSize < s.fpc.toNat + 4 then .next (raise (.memoryOutOfBounds s.fpc s.fpc 4) s)
    else
      match decode (memoryWord s) with
      | .error _ => .next (raise (.unknownInstruction s.fpc (memoryWord s)) s)
      | .ok i => exec i s

/-- The reference after `n` steps; a run that has ended stays as it ended. -/
def sequentialRun : Nat → State → State
  | 0, s => s
  | n + 1, s =>
    match sequentialStep s with
    | .next t => sequentialRun n t
    | .fault _ => s
    | .refused _ => s

end Sys2Proof.Machine
end

