-- ==== Sys2Proof/Safety.lean ====
section
/-! DEFINITION. What the claims speak of: the sequential view of a pipelined state, the invariant of the core, the frames of
the instructions, and the launch premise of the equivalence (spec 70_reset_and_hazards.md R155, R167 to R169). -/

namespace Sys2Proof.Machine

/-! ### Addresses in flight -/

/-- The address of the instruction or token in FD. -/
def FdLatch.pc? : FdLatch → Option Word
  | .empty => none
  | .fetched pc _ _ => some pc
  | .fault pc _ => some pc

/-- The address of the instruction or token in DE. -/
def DeLatch.pc? : DeLatch → Option Word
  | .empty => none
  | .decoded pc _ _ _ _ => some pc
  | .fault pc _ => some pc

/-- The address of the instruction in EW. -/
def EwLatch.pc? : EwLatch → Option Word
  | .empty => none
  | .executed pc _ _ _ _ => some pc

/-- The oldest address Fetch has delivered but Decode has not passed on, or else the fetch PC. -/
def State.pcAfterDe (s : State) : Word := s.fd.pc?.getD s.fpc

/-- The oldest address in DE or FD, or else the fetch PC. -/
def State.pcAfterEw (s : State) : Word := s.de.pc?.getD s.pcAfterDe

/-- The address of the next instruction to retire, in a running core. -/
def State.pcToRetire (s : State) : Word := s.ew.pc?.getD s.pcAfterEw

/-- The state as the sequential reference sees it: nothing in flight, and the pc that of the next instruction to retire. -/
def State.sequentialView (s : State) : State :=
  { s with fpc := s.pcToRetire, fwait := 0, fd := .empty, de := .empty, ew := .empty }

/-- Two states agree on what the caller sees of registers and memory, and on the number of retirements (R166, R168). -/
structure SameResults (s t : State) : Prop where
  regs : s.regs = t.regs
  mem : s.mem = t.mem
  retired : s.retired = t.retired

/-- Two ended runs end in the same way: same status, with the same error record if it is Halted, and same results (R168). -/
structure SameEnd (s t : State) : Prop where
  status : s.status = t.status
  results : SameResults s t

/-! ### The invariant of the core -/

/-- A valid line stands at its own index, starts at a multiple of LINE_BYTES inside memory, and is a whole line (R28, R48). -/
structure LineOk (p : Params) (i : Nat) (line : CacheLine) : Prop where
  index : lineIndex p line.base = i
  base : line.base.toNat % p.lineBytes = 0
  bound : line.base.toNat + p.lineBytes ≤ p.memSize
  size : line.data.length = p.lineBytes

/-- An address Fetch may look up: aligned, inside memory, and not the halt address (R153, R164). -/
structure FetchAddressOk (p : Params) (pc : Word) : Prop where
  aligned : wordAligned pc
  bound : pc.toNat + 4 ≤ p.memSize
  notHalt : p.stop ≠ .haltAt pc

/-- The error of a fetch fault token is one of the two that Fetch makes for its address (R154). -/
inductive FetchTokenOk (p : Params) (pc : Word) : FatalError → Prop where
  | misaligned (h : ¬ wordAligned pc) (hs : p.stop ≠ .haltAt pc) : FetchTokenOk p pc (.misalignedAccess pc pc 4)
  | outOfBounds (h : wordAligned pc) (h' : p.memSize < pc.toNat + 4) (hs : p.stop ≠ .haltAt pc) :
      FetchTokenOk p pc (.memoryOutOfBounds pc pc 4)

/-- The error of a token in DE is a fetch error, or that of an unknown word (R156). -/
inductive DecodeTokenOk (p : Params) (pc : Word) : FatalError → Prop where
  | fetch (err : FatalError) (h : FetchTokenOk p pc err) : DecodeTokenOk p pc err
  | unknown (word : Word) (h : decode word = .error (.unknownInstruction word)) (ha : FetchAddressOk p pc) :
      DecodeTokenOk p pc (.unknownInstruction pc word)

/-- What holds of every state of a run, ended or not: the form of the data and the order of the addresses in flight. -/
structure StructureInv (s : State) : Prop where
  params : s.cfg.Valid
  /-- x0's slot holds 0 (R16, R169). -/
  slot0 : s.regs[0] = 0#32
  memForm : Memory.wf s.mem
  /-- Memory has the bytes 0..MEM_SIZE-1 (R27). -/
  memBound : ∀ c ∈ s.mem, c.1 < s.cfg.memSize
  lineCount : s.l1i.length = s.cfg.numLines
  lines : ∀ i line, lineAt s.l1i i = some line → LineOk s.cfg i line
  /-- 0 <= fwait <= MISS_PENALTY (R29). -/
  waitBound : s.fwait ≤ s.cfg.missPenalty
  /-- A miss wait: FD is empty, and the line the miss installed is there (R155). -/
  waiting : 0 < s.fwait → s.fd = .empty ∧ FetchAddressOk s.cfg s.fpc ∧
    ∃ line, lineAt s.l1i (lineIndex s.cfg s.fpc) = some line ∧ line.base = lineBase s.cfg s.fpc
  /-- fpc is a multiple of 4 whenever ENTRY is (R22). -/
  aligned : wordAligned s.cfg.entry → wordAligned s.fpc
  /-- Fetch is one word past FD (R21). -/
  fdOrder : ∀ pc, s.fd.pc? = some pc → s.fpc = nextPc pc
  /-- What follows DE is one word past it (R21, R169). -/
  deOrder : ∀ pc, s.de.pc? = some pc → s.pcAfterDe = nextPc pc
  /-- Every prediction record says pc + 4 (R31). -/
  fdPrediction : ∀ pc word predNext, s.fd = .fetched pc word predNext → predNext = nextPc pc
  dePrediction : ∀ pc ins a b predNext, s.de = .decoded pc ins a b predNext → predNext = nextPc pc
  /-- The instructions in flight come from addresses Fetch may look up (R153, R164). -/
  fdAddress : ∀ pc word predNext, s.fd = .fetched pc word predNext → FetchAddressOk s.cfg pc
  deAddress : ∀ pc ins a b predNext, s.de = .decoded pc ins a b predNext → FetchAddressOk s.cfg pc
  ewAddress : ∀ pc ins result addr data, s.ew = .executed pc ins result addr data → FetchAddressOk s.cfg pc
  fdToken : ∀ pc err, s.fd = .fault pc err → FetchTokenOk s.cfg pc err
  deToken : ∀ pc err, s.de = .fault pc err → DecodeTokenOk s.cfg pc err

/-- What Execute's part of the forwarding path carried for the instruction now in EW (R158). -/
def EwLatch.forward : EwLatch → Option (RegIdx × Word)
  | .empty => none
  | .executed _ ins result _ _ => forwarded ins result

/-- What holds of a running core besides: the operands and results in flight are those of program order (R157, R169). -/
structure ExecutionInv (s : State) : Prop where
  /-- An instruction in DE holds the operands it will have once EW has committed (R157). -/
  operands : ∀ pc ins a b predNext, s.de = .decoded pc ins a b predNext →
    a = readOperand s s.ew.forward (rs1Of ins) ∧ b = readOperand s s.ew.forward (rs2Of ins)
  /-- No instruction in DE reads the register of a load in EW: the interlock kept it back (R159). -/
  interlock : ∀ pc ins a b predNext pc' ins' result addr data rd, s.de = .decoded pc ins a b predNext →
    s.ew = .executed pc' ins' result addr data → isLoad ins' = true → rdOf ins' = some rd → rd ≠ 0#5 →
    rd ∉ srcsOf ins
  /-- EW holds what Execute computes from the registers as they stand, and what follows EW is its next address (R169). -/
  executed : ∀ pc ins result addr data, s.ew = .executed pc ins result addr data →
    ∃ c, (splitOf ins).execute pc (s.readSource (rs1Of ins)) (s.readSource (rs2Of ins)) = .ok c ∧
      result = c.result ∧ addr = c.addr ∧ data = c.data ∧ s.pcAfterEw = c.transfer.actualNext pc
  /-- The caller's policy does not stop the run here (R164). -/
  policy : match s.cfg.stop with
    | .haltAt h => ¬ (s.fpc = h ∧ s.drained = true)
    | .retireCount n => s.retired < n

/-- The invariant of the core: it holds after every launch, and every step keeps it. -/
structure CoreInv (s : State) : Prop where
  structural : StructureInv s
  execution : s.status = .running → ExecutionInv s

/-! ### Words of the claims about single instructions -/

/-- The state after an instruction has done its work and retired, the next one in program order being at `pc`. -/
def State.retireTo (s : State) (pc : Word) : State := { s with fpc := pc, retired := s.retired + 1 }

/-- The width in bytes of a load's or store's access (R42). -/
def accessWidth : Instr → Option Nat
  | .lb _ _ _ | .lbu _ _ _ | .sb _ _ _ => some 1
  | .lh _ _ _ | .lhu _ _ _ | .sh _ _ _ => some 2
  | .lw _ _ _ | .sw _ _ _ => some 4
  | _ => none

/-- The number a load makes of the little-endian value `v` of the bytes it reads: sign-extended from 8 or 16 bits by LB and
LH, as it is by LBU, LHU and LW (R109, R113 to R117). -/
def loadedNumber (i : Instr) (v : Nat) : Int :=
  match i with
  | .lb _ _ _ => if v < 128 then (v : Int) else (v : Int) - 256
  | .lh _ _ _ => if v < 32768 then (v : Int) else (v : Int) - 65536
  | _ => (v : Int)

/-- The effective address of a load or store: `x[rs1] + imm` modulo 2^32 (R106). -/
def accessAddress (i : Instr) (s : State) : Word := s.readSource (rs1Of i) + immOf i

/-- The five loads on these operands. -/
def loadInstrs (rd rs1 : RegIdx) (imm : Word) : List Instr :=
  [.lb rd rs1 imm, .lh rd rs1 imm, .lw rd rs1 imm, .lbu rd rs1 imm, .lhu rd rs1 imm]

/-- The three stores on these operands. -/
def storeInstrs (rs1 rs2 : RegIdx) (imm : Word) : List Instr := [.sb rs1 rs2 imm, .sh rs1 rs2 imm, .sw rs1 rs2 imm]

/-- The six conditional branches on these operands. -/
def branchInstrs (rs1 rs2 : RegIdx) (imm : Word) : List Instr :=
  [.beq rs1 rs2 imm, .bne rs1 rs2 imm, .blt rs1 rs2 imm, .bge rs1 rs2 imm, .bltu rs1 rs2 imm, .bgeu rs1 rs2 imm]

/-- The nineteen ALU instructions (OP-IMM and OP) on these operands. -/
def aluInstrs (rd rs1 rs2 : RegIdx) (imm : Word) (shamt : BitVec 5) : List Instr :=
  [.addi rd rs1 imm, .slti rd rs1 imm, .sltiu rd rs1 imm, .xori rd rs1 imm, .ori rd rs1 imm, .andi rd rs1 imm,
   .slli rd rs1 shamt, .srli rd rs1 shamt, .srai rd rs1 shamt,
   .add rd rs1 rs2, .sub rd rs1 rs2, .sll rd rs1 rs2, .slt rd rs1 rs2, .sltu rd rs1 rs2, .xor rd rs1 rs2,
   .srl rd rs1 rs2, .sra rd rs1 rs2, .or rd rs1 rs2, .and rd rs1 rs2]

/-- LUI and AUIPC. -/
def upperInstrs (rd : RegIdx) (imm : Word) : List Instr := [.lui rd imm, .auipc rd imm]

/-- JAL and JALR. -/
def jumpInstrs (rd rs1 : RegIdx) (imm : Word) : List Instr := [.jal rd imm, .jalr rd rs1 imm]

/-- The condition of a conditional branch on the values of rs1 and rs2, as the branch's rule writes it (R127 to R132). -/
def branchCondition (i : Instr) (a b : Word) : Prop :=
  match i with
  | .beq _ _ _ => a = b
  | .bne _ _ _ => a ≠ b
  | .blt _ _ _ => a.toInt < b.toInt
  | .bge _ _ _ => b.toInt ≤ a.toInt
  | .bltu _ _ _ => a.toNat < b.toNat
  | .bgeu _ _ _ => b.toNat ≤ a.toNat
  | _ => False

/-- What no instruction's own effect touches: the parameters, the L1I, the wait, the latches and the four counters that
count no retirement. -/
structure SameMachinery (s t : State) : Prop where
  cfg : t.cfg = s.cfg
  l1i : t.l1i = s.l1i
  fwait : t.fwait = s.fwait
  fd : t.fd = s.fd
  de : t.de = s.de
  ew : t.ew = s.ew
  cycles : t.cycles = s.cycles
  l1iHits : t.l1iHits = s.l1iHits
  l1iMisses : t.l1iMisses = s.l1iMisses
  flushes : t.flushes = s.flushes

/-! ### Words of the claims about a step -/

/-- A running core with nothing in flight, about to fetch the instruction `i` that memory holds at its fetch PC: the address
is one that Fetch looks up, and a line resident for it is no stale one. -/
structure ReadyToFetch (s : State) (i : Instr) : Prop where
  params : s.cfg.Valid
  lineCount : s.l1i.length = s.cfg.numLines
  running : s.status = .running
  nothingInFlight : s.fd = .empty ∧ s.de = .empty ∧ s.ew = .empty ∧ s.fwait = 0
  notHalt : s.cfg.stop ≠ .haltAt s.fpc
  aligned : s.fpc.toNat % 4 = 0
  bound : s.fpc.toNat + 4 ≤ s.cfg.memSize
  fresh : lookup s.cfg s.l1i s.fpc = none ∨ lookup s.cfg s.l1i s.fpc = some (memoryWord s)
  word : decode (memoryWord s) = .ok i

/-- A core's state `t` shows what the execution of one instruction by itself gave as `u`: the same results; the same error if
that execution raised one; and otherwise, if the core still runs, the same next address to retire. -/
structure ShowsExec (t u : State) : Prop where
  results : SameResults t u
  halted : ∀ e, u.status = .halted e → t.status = .halted e
  next : u.status = .running → t.status = .running → t.pcToRetire = u.fpc

/-! ### The launch premise of the equivalence (R168) -/

/-- A launch as R149 and R7 have it: valid parameters, and an INIT_MEM of the canonical form inside memory. -/
structure LaunchOk (cfg : Params) (initMem : Memory) : Prop where
  params : cfg.Valid
  memForm : Memory.wf initMem
  memBound : ∀ c ∈ initMem, c.1 < cfg.memSize

/-- The bytes a store writes: its effective address and its width (R106, R110). -/
def storeSpan (i : Instr) (s : State) : Option (Nat × Nat) :=
  match i with
  | .sb rs1 _ imm => some ((effectiveAddress (s.readReg rs1) imm).toNat, 1)
  | .sh rs1 _ imm => some ((effectiveAddress (s.readReg rs1) imm).toNat, 2)
  | .sw rs1 _ imm => some ((effectiveAddress (s.readReg rs1) imm).toNat, 4)
  | _ => none

/-- Whether the next step of the sequential reference fetches an instruction word at its pc (R167 steps 1 to 3). -/
structure Fetches (s : State) : Prop where
  running : s.status = .running
  goesOn : stopsHere s = false
  aligned : wordAligned s.fpc
  bound : s.fpc.toNat + 4 ≤ s.cfg.memSize

/-- The launch premise of R168: no store of the sequential reference's run writes a byte that the reference later fetches
as an instruction. -/
def CodeUnmodified (s : State) : Prop :=
  ∀ j k, j < k → Fetches (sequentialRun j s) → Fetches (sequentialRun k s) →
    ∀ i addr n, decode (memoryWord (sequentialRun j s)) = .ok i → storeSpan i (sequentialRun j s) = some (addr, n) →
      addr + n ≤ (sequentialRun k s).fpc.toNat ∨ (sequentialRun k s).fpc.toNat + 4 ≤ addr

end Sys2Proof.Machine
end

