-- ==== Sys2Proof/Certificates/Slice0/Obligations.lean ====
section
/-! DEFINITION. The statements for the provers. Each docstring names the rules of spec/ the statement formalises, or the
sections it rests on; where a clause is the model's own choice, the docstring names the log entry. -/

section
open Sys2Proof Sys2Proof.Machine

/-! ### State (10_state.md) -/

/-- R16: x0 reads as 0 and discards every write; every other register reads as stored, and a write changes it alone. -/
def Obligations.RegisterZeroIsHardwired : Prop :=
  ∀ s : State,
    (∀ v, s.readReg 0#5 = 0#32 ∧ s.writeReg 0#5 v = s) ∧
    ∀ (r : RegIdx) (v : Word), r ≠ 0#5 →
      s.readReg r = s.regs[r.toNat]'(r.isLt) ∧
      (s.writeReg r v).readReg r = v ∧
      ∀ q, q ≠ r → (s.writeReg r v).readReg q = s.readReg q

/-- R149: what reset sets, and the termination check made once right after it. -/
def Obligations.LaunchSetsEveryPiece : Prop :=
  ∀ (cfg : Params) (initRegs : Vector Word 32) (initMem : Memory),
    let s := State.launch cfg initRegs initMem
    (s.cfg = cfg ∧ s.readReg 0#5 = 0#32 ∧ s.regs[0] = 0#32 ∧
      ∀ r : RegIdx, r ≠ 0#5 → s.readReg r = initRegs[r.toNat]'(r.isLt)) ∧
    (s.fpc = cfg.entry ∧ s.fwait = 0 ∧ s.mem = initMem) ∧
    (s.l1i.length = cfg.numLines ∧ ∀ i, lineAt s.l1i i = none) ∧
    (s.fd = .empty ∧ s.de = .empty ∧ s.ew = .empty) ∧
    (s.cycles = 0 ∧ s.retired = 0 ∧ s.l1iHits = 0 ∧ s.l1iMisses = 0 ∧ s.flushes = 0) ∧
    s.status = .running ∧
    (∀ h, cfg.stop = .haltAt h →
      boot cfg initRegs initMem = if cfg.entry = h then { s with status := .stopped } else s) ∧
    (∀ n, cfg.stop = .retireCount n →
      boot cfg initRegs initMem = if n = 0 then { s with status := .stopped } else s)

/-- The model's own reset (DESIGN CHOICE, log entries 1 to 4): the launch conventions' parameters, INIT_REGS at its default
of zero, and memory with nothing listed, every byte of which reads as 0; nothing stops it right after reset. -/
def Obligations.ModelResetIsAConventionalLaunch : Prop :=
  State.reset = boot ⟨4096, 64, 1, 2, 0#32, .haltAt 0xFFFFFFFF#32⟩ (Vector.replicate 32 0#32) [] ∧
  (∀ r, State.reset.readReg r = 0#32) ∧
  (∀ a, Memory.read State.reset.mem a = 0#8) ∧
  State.reset.status = .running ∧ State.reset.fpc = 0#32 ∧ State.reset.retired = 0

/-! ### Memory (20_memory.md) -/

/-- R38: the byte at the lowest address is the least significant, for data of every width and for instruction fetch. -/
def Obligations.ByteOrderIsLittleEndian : Prop :=
  ∀ (m : Memory), Memory.wf m → ∀ (a : Nat) (v : Word),
    (Memory.readBytes (Memory.writeBytes m a 4 v) a 4 = v.toNat ∧
      Memory.readBytes (Memory.writeBytes m a 4 v) a 2 = v.toNat % 65536 ∧
      Memory.readBytes (Memory.writeBytes m a 4 v) (a + 2) 2 = v.toNat / 65536 ∧
      ∀ k, k < 4 → Memory.readBytes (Memory.writeBytes m a 4 v) (a + k) 1 = v.toNat / 2 ^ (8 * k) % 256) ∧
    (Memory.readBytes (Memory.writeBytes m a 2 v) a 2 = v.toNat % 65536 ∧
      ∀ k, k < 2 → Memory.readBytes (Memory.writeBytes m a 2 v) (a + k) 1 = v.toNat / 2 ^ (8 * k) % 256) ∧
    Memory.readBytes (Memory.writeBytes m a 1 v) a 1 = v.toNat % 256 ∧
    ∀ base n o, o + 4 ≤ n →
      blockWord (Memory.readBlock m base n) o = BitVec.ofNat 32 (Memory.readBytes m (base + o) 4)

/-- R43, R44: a misaligned data access raises MisalignedAccess, whatever its bounds; an aligned one past MEM_SIZE raises
MemoryOutOfBounds; neither performs an access. In one instruction's own execution, and in Write-back. -/
def Obligations.DataAccessChecksRaise : Prop :=
  ∀ (i : Instr) (n : Nat), accessWidth i = some n →
    (∀ s : State,
      ((accessAddress i s).toNat % n ≠ 0 →
        exec i s = .next { s with status := .halted (.misalignedAccess s.fpc (accessAddress i s) n) }) ∧
      ((accessAddress i s).toNat % n = 0 → s.cfg.memSize < (accessAddress i s).toNat + n →
        exec i s = .next { s with status := .halted (.memoryOutOfBounds s.fpc (accessAddress i s) n) }) ∧
      (n = 1 → (accessAddress i s).toNat % n = 0)) ∧
    (∀ (s : State) (pc result addr data : Word), s.ew = .executed pc i result addr data →
      (addr.toNat % n ≠ 0 → writeBack s = .error (.misalignedAccess pc addr n)) ∧
      (addr.toNat % n = 0 → s.cfg.memSize < addr.toNat + n → writeBack s = .error (.memoryOutOfBounds pc addr n)))

/-! ### Loads and stores (42_loads_stores.md) -/

/-- R109: LB, LH, LW, LBU and LHU complete when aligned and in bounds, and load the extended value. -/
def Obligations.LoadsCompleteWithExtendedValue : Prop :=
  ∀ (s : State) (rd rs1 : RegIdx) (imm : Word),
    let a := (s.readReg rs1 + imm).toNat
    let v := fun n => Memory.readBytes s.mem a n
    (a + 1 ≤ s.cfg.memSize →
      exec (.lb rd rs1 imm) s = .next ((s.writeReg rd
        (BitVec.ofInt 32 (if v 1 < 128 then (v 1 : Int) else (v 1 : Int) - 256))).retireTo (s.fpc + 4#32)) ∧
      exec (.lbu rd rs1 imm) s = .next ((s.writeReg rd (BitVec.ofNat 32 (v 1))).retireTo (s.fpc + 4#32))) ∧
    (a % 2 = 0 → a + 2 ≤ s.cfg.memSize →
      exec (.lh rd rs1 imm) s = .next ((s.writeReg rd
        (BitVec.ofInt 32 (if v 2 < 32768 then (v 2 : Int) else (v 2 : Int) - 65536))).retireTo (s.fpc + 4#32)) ∧
      exec (.lhu rd rs1 imm) s = .next ((s.writeReg rd (BitVec.ofNat 32 (v 2))).retireTo (s.fpc + 4#32))) ∧
    (a % 4 = 0 → a + 4 ≤ s.cfg.memSize →
      exec (.lw rd rs1 imm) s = .next ((s.writeReg rd (BitVec.ofNat 32 (v 4))).retireTo (s.fpc + 4#32)))

/-- R111: a load with rd = x0 makes the checks and the read, can raise either fault, discards its value, and never causes a
load-use stall. -/
def Obligations.LoadIntoX0StillChecks : Prop :=
  ∀ (rs1 : RegIdx) (imm : Word), ∀ i ∈ loadInstrs 0#5 rs1 imm, ∀ n, accessWidth i = some n →
    (∀ s : State,
      ((accessAddress i s).toNat % n ≠ 0 →
        exec i s = .next { s with status := .halted (.misalignedAccess s.fpc (accessAddress i s) n) }) ∧
      ((accessAddress i s).toNat % n = 0 → s.cfg.memSize < (accessAddress i s).toNat + n →
        exec i s = .next { s with status := .halted (.memoryOutOfBounds s.fpc (accessAddress i s) n) }) ∧
      ((accessAddress i s).toNat % n = 0 → (accessAddress i s).toNat + n ≤ s.cfg.memSize →
        exec i s = .next (s.retireTo (s.fpc + 4#32)))) ∧
    ∀ pc a b predNext d, loadUse (.decoded pc i a b predNext) d = false

/-- R110: SB, SH and SW complete when aligned and in bounds: the n stored bytes are the low n bytes of rs2, every other byte
of memory reads as before, and nothing but memory, the next address and the retirement count differs. -/
def Obligations.StoresCompleteWithLowBytes : Prop :=
  ∀ (s : State) (rs1 rs2 : RegIdx) (imm : Word), Memory.wf s.mem →
    ∀ i ∈ storeInstrs rs1 rs2 imm, ∀ n, accessWidth i = some n →
      let a := (s.readReg rs1 + imm).toNat
      a % n = 0 → a + n ≤ s.cfg.memSize →
      ∃ m, exec i s = .next (({ s with mem := m } : State).retireTo (s.fpc + 4#32)) ∧
        (∀ k, k < n → (Memory.read m (a + k)).toNat = (s.readReg rs2).toNat / 2 ^ (8 * k) % 256) ∧
        ∀ x, x < a ∨ a + n ≤ x → Memory.read m x = Memory.read s.mem x

/-- The frame of SB, SH and SW: no register, and no byte outside the stored ones, whose address and width `storeSpan`
computes from the state before; nothing else but the next address, the retirement count and the status. -/
def Obligations.StoreFrame : Prop :=
  ∀ (s t : State) (rs1 rs2 : RegIdx) (imm : Word), Memory.wf s.mem →
    ∀ i ∈ storeInstrs rs1 rs2 imm, exec i s = .next t →
      (∀ r, t.readReg r = s.readReg r) ∧ SameMachinery s t ∧
      ∀ addr n, storeSpan i s = some (addr, n) →
        ∀ x, x < addr ∨ addr + n ≤ x → Memory.read t.mem x = Memory.read s.mem x

/-- The frame of every instruction that writes a register (the loads, the ALU instructions, LUI, AUIPC, JAL, JALR): no
register but rd, no byte of memory; nothing else but the next address, the retirement count and the status. -/
def Obligations.RegisterWriterFrame : Prop :=
  ∀ (s t : State) (rd rs1 rs2 : RegIdx) (imm : Word) (shamt : BitVec 5),
    ∀ i ∈ loadInstrs rd rs1 imm ++ aluInstrs rd rs1 rs2 imm shamt ++ upperInstrs rd imm ++ jumpInstrs rd rs1 imm,
      exec i s = .next t →
        (∀ r, r ≠ rd → t.readReg r = s.readReg r) ∧ SameMachinery s t ∧
        ∀ x, Memory.read t.mem x = Memory.read s.mem x

/-- The frame of the six conditional branches: no register and no byte of memory; nothing else but the next address, the
retirement count and the status. -/
def Obligations.BranchFrame : Prop :=
  ∀ (s t : State) (rs1 rs2 : RegIdx) (imm : Word), ∀ i ∈ branchInstrs rs1 rs2 imm, exec i s = .next t →
    (∀ r, t.readReg r = s.readReg r) ∧ SameMachinery s t ∧ ∀ x, Memory.read t.mem x = Memory.read s.mem x

/-- R54's order of data accesses for one store and the load after it: the load of the same address and width returns what
the store wrote, extended as its mnemonic says. -/
def Obligations.LoadAfterStoreReturnsStoredValue : Prop :=
  ∀ (s t : State) (rs1 rs2 rd rs3 : RegIdx) (imm imm' : Word), Memory.wf s.mem → rd ≠ 0#5 → t.status = .running →
    s.readReg rs3 + imm' = s.readReg rs1 + imm →
    let v := (s.readReg rs2).toNat
    (exec (.sw rs1 rs2 imm) s = .next t →
      ∃ u, exec (.lw rd rs3 imm') t = .next u ∧ u.readReg rd = s.readReg rs2) ∧
    (exec (.sh rs1 rs2 imm) s = .next t →
      ∃ u, exec (.lhu rd rs3 imm') t = .next u ∧ (u.readReg rd).toNat = v % 65536) ∧
    (exec (.sb rs1 rs2 imm) s = .next t →
      ∃ u, exec (.lbu rd rs3 imm') t = .next u ∧ (u.readReg rd).toNat = v % 256)

/-! ### Integer ALU and upper immediates (40_integer_alu.md, 41_upper_immediate.md) -/

/-- R79: addition, subtraction and left shift give the low 32 bits of the exact result, and no ALU instruction raises. -/
def Obligations.AluWrapsAndNeverRaises : Prop :=
  ∀ (s : State) (rd rs1 rs2 : RegIdx) (imm : Word) (shamt : BitVec 5),
    let a := s.readReg rs1
    let b := s.readReg rs2
    exec (.addi rd rs1 imm) s = .next ((s.writeReg rd (BitVec.ofInt 32 (a.toInt + imm.toInt))).retireTo (s.fpc + 4#32)) ∧
    exec (.add rd rs1 rs2) s = .next ((s.writeReg rd (BitVec.ofNat 32 (a.toNat + b.toNat))).retireTo (s.fpc + 4#32)) ∧
    exec (.sub rd rs1 rs2) s =
      .next ((s.writeReg rd (BitVec.ofInt 32 ((a.toNat : Int) - (b.toNat : Int)))).retireTo (s.fpc + 4#32)) ∧
    exec (.slli rd rs1 shamt) s =
      .next ((s.writeReg rd (BitVec.ofNat 32 (a.toNat * 2 ^ shamt.toNat))).retireTo (s.fpc + 4#32)) ∧
    exec (.sll rd rs1 rs2) s =
      .next ((s.writeReg rd (BitVec.ofNat 32 (a.toNat * 2 ^ (b.toNat % 32)))).retireTo (s.fpc + 4#32)) ∧
    ∀ i ∈ aluInstrs rd rs1 rs2 imm shamt,
      (∃ v, exec i s = .next ((s.writeReg rd v).retireTo (s.fpc + 4#32))) ∧
      (∀ pc x y e, (splitOf i).execute pc x y ≠ .error e) ∧
      ∀ pc result addr data e, (splitOf i).commit pc result addr data s ≠ .error e

/-- R83: a register shift shifts by b[4:0] and an immediate shift by shamt; logical shifts fill with zeros, arithmetic right
shifts with copies of a[31] (the quotient rounded down, as a signed number). -/
def Obligations.ShiftsUseFiveBitAmounts : Prop :=
  ∀ (s : State) (rd rs1 rs2 : RegIdx) (shamt : BitVec 5),
    let a := s.readReg rs1
    let k := (s.readReg rs2).toNat % 32
    exec (.sll rd rs1 rs2) s = .next ((s.writeReg rd (BitVec.ofNat 32 (a.toNat * 2 ^ k))).retireTo (s.fpc + 4#32)) ∧
    exec (.srl rd rs1 rs2) s = .next ((s.writeReg rd (BitVec.ofNat 32 (a.toNat / 2 ^ k))).retireTo (s.fpc + 4#32)) ∧
    exec (.sra rd rs1 rs2) s = .next ((s.writeReg rd (BitVec.ofInt 32 (a.toInt / 2 ^ k))).retireTo (s.fpc + 4#32)) ∧
    exec (.slli rd rs1 shamt) s =
      .next ((s.writeReg rd (BitVec.ofNat 32 (a.toNat * 2 ^ shamt.toNat))).retireTo (s.fpc + 4#32)) ∧
    exec (.srli rd rs1 shamt) s =
      .next ((s.writeReg rd (BitVec.ofNat 32 (a.toNat / 2 ^ shamt.toNat))).retireTo (s.fpc + 4#32)) ∧
    exec (.srai rd rs1 shamt) s =
      .next ((s.writeReg rd (BitVec.ofInt 32 (a.toInt / 2 ^ shamt.toNat))).retireTo (s.fpc + 4#32))

/-- R82: SLT, SLTI, SLTU and SLTIU write exactly 0 or 1, by the signed or the unsigned order, and the immediate of SLTIU is
the sign-extended one, read as unsigned. -/
def Obligations.ComparisonsWriteZeroOrOne : Prop :=
  (∀ (s : State) (rd rs1 rs2 : RegIdx) (imm : Word),
    let a := s.readReg rs1
    let b := s.readReg rs2
    exec (.slt rd rs1 rs2) s =
      .next ((s.writeReg rd (if a.toInt < b.toInt then 1#32 else 0#32)).retireTo (s.fpc + 4#32)) ∧
    exec (.slti rd rs1 imm) s =
      .next ((s.writeReg rd (if a.toInt < imm.toInt then 1#32 else 0#32)).retireTo (s.fpc + 4#32)) ∧
    exec (.sltu rd rs1 rs2) s =
      .next ((s.writeReg rd (if a.toNat < b.toNat then 1#32 else 0#32)).retireTo (s.fpc + 4#32)) ∧
    exec (.sltiu rd rs1 imm) s =
      .next ((s.writeReg rd (if a.toNat < imm.toNat then 1#32 else 0#32)).retireTo (s.fpc + 4#32))) ∧
  ∀ (w : Word) (rd rs1 : RegIdx) (imm : Word), decode w = .ok (.sltiu rd rs1 imm) →
    imm = BitVec.ofInt 32 (if w.toNat / 2 ^ 20 < 2048 then ((w.toNat / 2 ^ 20 : Nat) : Int) else ((w.toNat / 2 ^ 20 : Nat) : Int) - 4096)

/-- Sections 2 and 3 of 40_integer_alu.md (R88 to R90, R99, R102, R103): bit k of the result of XORI, ORI, ANDI, XOR, OR and
AND is that connective of the operands' bits k, for every k below 32, and the instruction completes. -/
def Obligations.LogicInstructionsActBitwise : Prop :=
  ∀ (s : State) (rd rs1 rs2 : RegIdx) (imm : Word),
    let a := s.readReg rs1
    let b := s.readReg rs2
    (∃ v, exec (.xori rd rs1 imm) s = .next ((s.writeReg rd v).retireTo (s.fpc + 4#32)) ∧
      ∀ k, k < 32 → v.getLsbD k = (a.getLsbD k != imm.getLsbD k)) ∧
    (∃ v, exec (.ori rd rs1 imm) s = .next ((s.writeReg rd v).retireTo (s.fpc + 4#32)) ∧
      ∀ k, k < 32 → v.getLsbD k = (a.getLsbD k || imm.getLsbD k)) ∧
    (∃ v, exec (.andi rd rs1 imm) s = .next ((s.writeReg rd v).retireTo (s.fpc + 4#32)) ∧
      ∀ k, k < 32 → v.getLsbD k = (a.getLsbD k && imm.getLsbD k)) ∧
    (∃ v, exec (.xor rd rs1 rs2) s = .next ((s.writeReg rd v).retireTo (s.fpc + 4#32)) ∧
      ∀ k, k < 32 → v.getLsbD k = (a.getLsbD k != b.getLsbD k)) ∧
    (∃ v, exec (.or rd rs1 rs2) s = .next ((s.writeReg rd v).retireTo (s.fpc + 4#32)) ∧
      ∀ k, k < 32 → v.getLsbD k = (a.getLsbD k || b.getLsbD k)) ∧
    (∃ v, exec (.and rd rs1 rs2) s = .next ((s.writeReg rd v).retireTo (s.fpc + 4#32)) ∧
      ∀ k, k < 32 → v.getLsbD k = (a.getLsbD k && b.getLsbD k))

/-- R81: Execute of an ALU instruction computes a result and no more, Write-back writes it to rd, Decode gets it forwarded
in the same tick unless rd = 0, the next address is pc + 4, and nothing is flushed. -/
def Obligations.AluStageSplit : Prop :=
  ∀ (rd rs1 rs2 : RegIdx) (imm : Word) (shamt : BitVec 5), ∀ i ∈ aluInstrs rd rs1 rs2 imm shamt,
    ∀ pc a b : Word, ∃ v, (splitOf i).execute pc a b = .ok { result := v } ∧
      (∀ (pc' addr data : Word) (s : State), (splitOf i).commit pc' v addr data s = .ok (s.writeReg rd v)) ∧
      (∀ predNext, executeStage (.decoded pc i a b predNext) = .ok
        { ew := .executed pc i v 0#32 0#32
          forward := if rd = 0#5 then none else some (rd, v)
          redirect := none }) ∧
      ∀ s t : State, exec i s = .next t → t.fpc = s.fpc + 4#32

/-- R75: the ALU, LUI and AUIPC forms with rd = x0 are ordinary instructions whose write is discarded and which retire; the
word 0x00000013 is one of them, ADDI x0, x0, 0; the custom opcodes are illegal. -/
def Obligations.HintFormsAreOrdinary : Prop :=
  (∀ (s : State) (rs1 rs2 : RegIdx) (imm : Word) (shamt : BitVec 5),
    ∀ i ∈ aluInstrs 0#5 rs1 rs2 imm shamt ++ upperInstrs 0#5 imm, exec i s = .next (s.retireTo (s.fpc + 4#32))) ∧
  decode 0x00000013#32 = .ok (.addi 0#5 0#5 0#32) ∧
  ∀ w : Word, w.extractLsb' 0 7 ∈ [0b0001011#7, 0b0101011#7, 0b1011011#7, 0b1111011#7] →
    decode w = .error (.unknownInstruction w)

/-- R104, R105: the words of LUI and AUIPC, what each computes and writes, and that neither reads a register or waits for a
load, raises, transfers control or flushes. -/
def Obligations.UpperImmediateInstructions : Prop :=
  (∀ w : Word, w &&& 0x0000007F#32 = 0x00000037#32 → decode w = .ok (.lui (w.extractLsb' 7 5) (w &&& 0xFFFFF000#32))) ∧
  (∀ w : Word, w &&& 0x0000007F#32 = 0x00000017#32 → decode w = .ok (.auipc (w.extractLsb' 7 5) (w &&& 0xFFFFF000#32))) ∧
  (∀ (s : State) (rd : RegIdx) (imm : Word),
    exec (.lui rd imm) s = .next ((s.writeReg rd imm).retireTo (s.fpc + 4#32)) ∧
    exec (.auipc rd imm) s =
      .next ((s.writeReg rd (BitVec.ofNat 32 (s.fpc.toNat + imm.toNat))).retireTo (s.fpc + 4#32))) ∧
  (∀ (pc a b predNext imm : Word) (rd : RegIdx),
    executeStage (.decoded pc (.lui rd imm) a b predNext) = .ok
      { ew := .executed pc (.lui rd imm) imm 0#32 0#32
        forward := if rd = 0#5 then none else some (rd, imm), redirect := none } ∧
    executeStage (.decoded pc (.auipc rd imm) a b predNext) = .ok
      { ew := .executed pc (.auipc rd imm) (pc + imm) 0#32 0#32
        forward := if rd = 0#5 then none else some (rd, pc + imm), redirect := none }) ∧
  (∀ (s : State) (pc result addr data imm : Word) (rd : RegIdx),
    (splitOf (.lui rd imm)).commit pc result addr data s = .ok (s.writeReg rd result) ∧
    (splitOf (.auipc rd imm)).commit pc result addr data s = .ok (s.writeReg rd result)) ∧
  ∀ (rd : RegIdx) (imm : Word) (de : DeLatch), ∀ i ∈ upperInstrs rd imm, srcsOf i = [] ∧ loadUse de i = false

/-! ### Control transfer (43_control_transfer.md) -/

/-- Section 2 of 43_control_transfer.md: a conditional branch whose condition is false goes on at pc + 4, whatever its
offset; one whose condition is true goes on at pc + imm when that is a multiple of 4. -/
def Obligations.BranchesCompleteAtTheirNextAddress : Prop :=
  ∀ (s : State) (rs1 rs2 : RegIdx) (imm : Word), ∀ i ∈ branchInstrs rs1 rs2 imm,
    (¬ branchCondition i (s.readReg rs1) (s.readReg rs2) → exec i s = .next (s.retireTo (s.fpc + 4#32))) ∧
    (branchCondition i (s.readReg rs1) (s.readReg rs2) → (s.fpc + imm).toNat % 4 = 0 →
      exec i s = .next (s.retireTo (s.fpc + imm)))

/-- R125: a taken branch, JAL or JALR to a target that is not a multiple of 4 raises MisalignedAccess in Execute, with no
register written, no redirect and a halt; a branch not taken never raises. With an even offset from an aligned pc, and for
JALR, that is exactly bit 1. -/
def Obligations.MisalignedTargetsRaise : Prop :=
  (∀ (rs1 rs2 : RegIdx) (imm : Word), ∀ i ∈ branchInstrs rs1 rs2 imm, ∀ pc a b predNext : Word,
    (branchCondition i a b → (pc + imm).toNat % 4 ≠ 0 →
      executeStage (.decoded pc i a b predNext) = .error (.misalignedAccess pc (pc + imm) 4)) ∧
    (¬ branchCondition i a b → ∃ x, executeStage (.decoded pc i a b predNext) = .ok x) ∧
    ∀ s : State, branchCondition i (s.readReg rs1) (s.readReg rs2) → (s.fpc + imm).toNat % 4 ≠ 0 →
      exec i s = .next { s with status := .halted (.misalignedAccess s.fpc (s.fpc + imm) 4) }) ∧
  (∀ (rd rs1 : RegIdx) (pc a b predNext imm : Word),
    ((pc + imm).toNat % 4 ≠ 0 →
      executeStage (.decoded pc (.jal rd imm) a b predNext) = .error (.misalignedAccess pc (pc + imm) 4)) ∧
    ((jalrTarget a imm).toNat % 4 ≠ 0 →
      executeStage (.decoded pc (.jalr rd rs1 imm) a b predNext) = .error (.misalignedAccess pc (jalrTarget a imm) 4))) ∧
  (∀ (s : State) (rd rs1 : RegIdx) (imm : Word),
    ((s.fpc + imm).toNat % 4 ≠ 0 →
      exec (.jal rd imm) s = .next { s with status := .halted (.misalignedAccess s.fpc (s.fpc + imm) 4) }) ∧
    ((jalrTarget (s.readReg rs1) imm).toNat % 4 ≠ 0 → exec (.jalr rd rs1 imm) s =
      .next { s with status := .halted (.misalignedAccess s.fpc (jalrTarget (s.readReg rs1) imm) 4) })) ∧
  (∀ pc imm : Word, pc.toNat % 4 = 0 → imm.toNat % 2 = 0 → ((pc + imm).toNat % 4 ≠ 0 ↔ imm.getLsbD 1 = true)) ∧
  (∀ a imm : Word, (jalrTarget a imm).toNat % 4 ≠ 0 ↔ (a + imm).getLsbD 1 = true) ∧
  ∀ (w : Word) (rd rs1 rs2 : RegIdx) (imm : Word),
    (∀ i ∈ branchInstrs rs1 rs2 imm, decode w = .ok i → imm.toNat % 2 = 0) ∧
    (decode w = .ok (.jal rd imm) → imm.toNat % 2 = 0)

/-- Section 3 of 43_control_transfer.md: JAL and JALR to an aligned target write the link pc + 4 to rd and go on at the
target, which for JALR is the sum of the OLD rs1 and imm with bit 0 cleared. -/
def Obligations.JumpsLinkAndGoToTarget : Prop :=
  ∀ (s : State) (rd rs1 : RegIdx) (imm : Word),
    ((s.fpc + imm).toNat % 4 = 0 →
      exec (.jal rd imm) s = .next ((s.writeReg rd (s.fpc + 4#32)).retireTo (s.fpc + imm))) ∧
    (let sum := s.readReg rs1 + imm
     let target := BitVec.ofNat 32 (sum.toNat - sum.toNat % 2)
     target.toNat % 4 = 0 →
      exec (.jalr rd rs1 imm) s = .next ((s.writeReg rd (s.fpc + 4#32)).retireTo target))

/-- R121: whatever word Fetch delivers, the predicted next address is pc + 4, it is where Fetch goes on, and the record
travels unchanged in FD and DE. -/
def Obligations.EveryFetchPredictsFallThrough : Prop :=
  (∀ (s : State) (pc word predNext : Word), (fetchStage s).fd = .fetched pc word predNext →
    pc = s.fpc ∧ predNext = pc + 4#32 ∧ (fetchStage s).state.fpc = pc + 4#32) ∧
  ∀ (s : State) (forward : Option (RegIdx × Word)) (pc a b predNext : Word) (d : Instr),
    decodeStage s forward = .pass (.decoded pc d a b predNext) → ∃ word, s.fd = .fetched pc word predNext

/-- R122: a conditional branch mispredicts iff it is taken, even to pc + 4; JAL and JALR iff the target differs from the
prediction; nothing else does. A misprediction flushes and redirects Fetch to the actual target. -/
def Obligations.BranchUnitValidatesInExecute : Prop :=
  (∀ (rs1 rs2 : RegIdx) (imm : Word), ∀ i ∈ branchInstrs rs1 rs2 imm, ∀ (pc a b predNext : Word) (x : ExecuteOut),
    executeStage (.decoded pc i a b predNext) = .ok x →
      (branchCondition i a b → x.redirect = some (pc + imm)) ∧ (¬ branchCondition i a b → x.redirect = none)) ∧
  (∀ (rd rs1 : RegIdx) (pc a b predNext imm : Word) (x : ExecuteOut),
    (executeStage (.decoded pc (.jal rd imm) a b predNext) = .ok x →
      x.redirect = if pc + imm = predNext then none else some (pc + imm)) ∧
    (executeStage (.decoded pc (.jalr rd rs1 imm) a b predNext) = .ok x →
      x.redirect = if jalrTarget a imm = predNext then none else some (jalrTarget a imm))) ∧
  (∀ (rd rs1 rs2 : RegIdx) (imm : Word) (shamt : BitVec 5),
    ∀ i ∈ loadInstrs rd rs1 imm ++ storeInstrs rs1 rs2 imm ++ aluInstrs rd rs1 rs2 imm shamt ++ upperInstrs rd imm,
      ∀ (pc a b predNext : Word) (x : ExecuteOut),
        executeStage (.decoded pc i a b predNext) = .ok x → x.redirect = none) ∧
  ∀ (s : State) (x : ExecuteOut) (target : Word), executeStage s.de = .ok x → x.redirect = some target →
    let t := advance s x
    t.fpc = target ∧ t.fd = .empty ∧ t.de = .empty ∧ t.ew = x.ew ∧ t.flushes = (fetchStage s).state.flushes + 1

/-! ### Errors and halts (60_exceptions.md) -/

/-- R142: a raise ends the tick at once. One at Write-back leaves everything but `cycles` and the status as before the tick;
one at Execute leaves what this tick's Write-back left; and a tick that halts does one of the two. -/
def Obligations.HaltIsPrecise : Prop :=
  ∀ s : State, s.status = .running →
    let s1 : State := { s with cycles := s.cycles + 1 }
    (∀ e, writeBack s1 = .error e → tick s = { s1 with status := .halted e }) ∧
    (∀ t e, writeBack s1 = .ok t → retireCountReached s1 t = false → executeStage s.de = .error e →
      tick s = { t with status := .halted e }) ∧
    ∀ e, (tick s).status = .halted e →
      ((writeBack s1 = .error e ∧ (tick s).regs = s.regs ∧ (tick s).mem = s.mem ∧ (tick s).retired = s.retired) ∨
        ∃ t, writeBack s1 = .ok t ∧ executeStage s.de = .error e ∧ (tick s).regs = t.regs ∧ (tick s).mem = t.mem ∧
          (tick s).retired = s.retired + (if s.ew = .empty then 0 else 1)) ∧
      (tick s).cycles = s.cycles + 1 ∧ (tick s).fpc = s.fpc ∧ (tick s).fwait = s.fwait ∧ (tick s).l1i = s.l1i ∧
      (tick s).fd = s.fd ∧ (tick s).de = s.de ∧ (tick s).ew = s.ew ∧
      (tick s).l1iHits = s.l1iHits ∧ (tick s).l1iMisses = s.l1iMisses ∧ (tick s).flushes = s.flushes

/-- R143: a core that has halted takes no further tick, however many are asked for. -/
def Obligations.HaltedCoreNeverResumes : Prop :=
  ∀ (s : State) (e : FatalError), s.status = .halted e → ∀ n, ticks n s = s

/-! ### The L1I and Fetch (20_memory.md section 4, 70_reset_and_hazards.md section 3) -/

/-- R48, R49: a lookup hits iff the line at the address's index is valid and has the address's base, and then gives the
little-endian word at the address's offset in that line; the L1I and memory stay as they are. -/
def Obligations.LookupHitsOnIndexAndBase : Prop :=
  (∀ (p : Params) (lines : List (Option CacheLine)) (a w : Word), p.Valid → a.toNat % 4 = 0 →
    (∀ line, some line ∈ lines → line.data.length = p.lineBytes) →
    (lookup p lines a = some w ↔
      ∃ line, lines[a.toNat / p.lineBytes % p.numLines]? = some (some line) ∧
        line.base.toNat = a.toNat - a.toNat % p.lineBytes ∧
        let o := a.toNat - line.base.toNat
        let byte := fun k => (line.data.getD k 0#8).toNat
        w.toNat = byte o + 2 ^ 8 * byte (o + 1) + 2 ^ 16 * byte (o + 2) + 2 ^ 24 * byte (o + 3))) ∧
  ∀ (s : State) (w : Word), s.fwait = 0 → lookup s.cfg s.l1i s.fpc = some w →
    (fetchStage s).state.l1i = s.l1i ∧ (fetchStage s).state.mem = s.mem

/-- R50: a miss reads the whole line that contains the address, installs it in the address's slot in that tick whatever the
slot held, and delivers the memory's word MISS_PENALTY ticks of Fetch later, with bubbles until then; it is no error. -/
def Obligations.MissFillsThenDelivers : Prop :=
  ∀ s : State, s.cfg.Valid → s.l1i.length = s.cfg.numLines → s.fwait = 0 → s.cfg.stop ≠ .haltAt s.fpc →
    s.fpc.toNat % 4 = 0 → s.fpc.toNat + 4 ≤ s.cfg.memSize → lookup s.cfg s.l1i s.fpc = none →
    let f := fetchStage s
    let waited := fun k => (fun u => (fetchStage u).state)^[k] f.state
    (∃ line : CacheLine, f = { fd := .empty, state := { s with
        l1iMisses := s.l1iMisses + 1
        fwait := s.cfg.missPenalty
        l1i := s.l1i.set (s.fpc.toNat / s.cfg.lineBytes % s.cfg.numLines) (some line) } } ∧
      line.base.toNat = s.fpc.toNat - s.fpc.toNat % s.cfg.lineBytes ∧ line.data.length = s.cfg.lineBytes ∧
      ∀ o, o < s.cfg.lineBytes → line.data[o]? = some (Memory.read s.mem (line.base.toNat + o))) ∧
    (∀ k, k + 1 < s.cfg.missPenalty → (fetchStage (waited k)).fd = .empty) ∧
    (fetchStage (waited (s.cfg.missPenalty - 1))).fd =
      .fetched s.fpc (BitVec.ofNat 32 (Memory.readBytes s.mem s.fpc.toNat 4)) (s.fpc + 4#32)

/-- R53, R58: only a miss fill of Fetch writes the L1I, with the memory as this tick's Write-back left it; nothing
invalidates a line but a launch; and a load or store does the same whatever the L1I holds. -/
def Obligations.OnlyMissFillsWriteTheL1I : Prop :=
  (∀ s : State,
    (tick s).l1i = s.l1i ∨
      (lookup s.cfg s.l1i s.fpc = none ∧ (tick s).l1i = fill s.cfg (tick s).mem s.l1i s.fpc)) ∧
  (∀ (s : State) (k : Nat) (line : CacheLine), lineAt s.l1i k = some line → ∃ line', lineAt (tick s).l1i k = some line') ∧
  (∀ (i : Instr) (pc result addr data : Word) (s : State) (lines : List (Option CacheLine)),
    (splitOf i).commit pc result addr data { s with l1i := lines } =
      match (splitOf i).commit pc result addr data s with
      | .error e => .error e
      | .ok t => .ok { t with l1i := lines }) ∧
  ∀ cfg regs mem i, lineAt (State.launch cfg regs mem).l1i i = none

/-- R57: a store changes neither the L1I nor what FD and DE hold. A fetch that hits returns the resident line's word whatever
memory holds; one that misses installs the bytes that memory holds now. -/
def Obligations.StoresAreInvisibleToResidentLines : Prop :=
  (∀ s t : State, writeBack s = .ok t → t.l1i = s.l1i ∧ t.fd = s.fd ∧ t.de = s.de) ∧
  (∀ (s : State) (w : Word) (m : Memory), s.fwait = 0 → s.cfg.stop ≠ .haltAt s.fpc → s.fpc.toNat % 4 = 0 →
    s.fpc.toNat + 4 ≤ s.cfg.memSize → lookup s.cfg s.l1i s.fpc = some w →
    (fetchStage { s with mem := m }).fd = .fetched s.fpc w (s.fpc + 4#32)) ∧
  ∀ s : State, s.cfg.Valid → s.l1i.length = s.cfg.numLines → s.fwait = 0 → s.cfg.stop ≠ .haltAt s.fpc →
    s.fpc.toNat % 4 = 0 → s.fpc.toNat + 4 ≤ s.cfg.memSize → lookup s.cfg s.l1i s.fpc = none →
    lookup s.cfg (fetchStage s).state.l1i s.fpc = some (BitVec.ofNat 32 (Memory.readBytes s.mem s.fpc.toNat 4))

/-- R153: the cases of Fetch, in order, and that Fetch does nothing when Decode stalls. -/
def Obligations.FetchCasesInOrder : Prop :=
  (∀ s : State,
    (s.fwait = 1 → ∀ line, lineAt s.l1i (lineIndex s.cfg s.fpc) = some line → fetchStage s =
      { fd := .fetched s.fpc (lineWord s.cfg line s.fpc) (s.fpc + 4#32)
        state := { s with fwait := 0, fpc := s.fpc + 4#32 } }) ∧
    (1 < s.fwait → fetchStage s = { fd := .empty, state := { s with fwait := s.fwait - 1 } }) ∧
    (s.fwait = 0 →
      (s.cfg.stop = .haltAt s.fpc → fetchStage s = { fd := .empty, state := s }) ∧
      (s.cfg.stop ≠ .haltAt s.fpc →
        (s.fpc.toNat % 4 ≠ 0 → fetchStage s =
          { fd := .fault s.fpc (.misalignedAccess s.fpc s.fpc 4), state := { s with fpc := s.fpc + 4#32 } }) ∧
        (s.fpc.toNat % 4 = 0 → s.cfg.memSize < s.fpc.toNat + 4 → fetchStage s =
          { fd := .fault s.fpc (.memoryOutOfBounds s.fpc s.fpc 4), state := { s with fpc := s.fpc + 4#32 } }) ∧
        (s.fpc.toNat % 4 = 0 → s.fpc.toNat + 4 ≤ s.cfg.memSize →
          (∀ w, lookup s.cfg s.l1i s.fpc = some w → fetchStage s =
            { fd := .fetched s.fpc w (s.fpc + 4#32)
              state := { s with l1iHits := s.l1iHits + 1, fpc := s.fpc + 4#32 } }) ∧
          (lookup s.cfg s.l1i s.fpc = none → fetchStage s =
            { fd := .empty
              state := { s with
                l1iMisses := s.l1iMisses + 1
                l1i := fill s.cfg s.mem s.l1i s.fpc
                fwait := s.cfg.missPenalty } }))))) ∧
  ∀ (s : State) (x : ExecuteOut), executeStage s.de = .ok x → decodeStage s x.forward = .stall →
    (advance s x).fpc = s.fpc ∧ (advance s x).fwait = s.fwait ∧ (advance s x).l1i = s.l1i ∧
    (advance s x).l1iHits = s.l1iHits ∧ (advance s x).l1iMisses = s.l1iMisses

/-! ### Decode and hazards (70_reset_and_hazards.md section 4) -/

/-- R156: the cases of Decode. -/
def Obligations.DecodeStageCases : Prop :=
  ∀ (s : State) (forward : Option (RegIdx × Word)),
    (s.fd = .empty → decodeStage s forward = .pass .empty) ∧
    (∀ pc err, s.fd = .fault pc err → decodeStage s forward = .pass (.fault pc err)) ∧
    (∀ pc word predNext, s.fd = .fetched pc word predNext →
      (∀ e, decode word = .error e → decodeStage s forward = .pass (.fault pc (.unknownInstruction pc word))) ∧
      ∀ d, decode word = .ok d →
        (loadUse s.de d = true → decodeStage s forward = .stall) ∧
        (loadUse s.de d = false → decodeStage s forward =
          .pass (.decoded pc d (readOperand s forward (rs1Of d)) (readOperand s forward (rs2Of d)) predNext))) ∧
    readOperand s forward none = 0#32

/-- R157: an operand read by Decode is 0 for x0, else the result of the instruction in Execute if that is no load and writes
the register, else the register as this tick's Write-back left it; and so it is the register as it will stand once the older
instructions, the one in Execute included, have committed. -/
def Obligations.OperandsAreTheMostRecentOlderValues : Prop :=
  (∀ (s : State) (forward : Option (RegIdx × Word)) (r : RegIdx),
    (r = 0#5 → readOperand s forward (some r) = 0#32) ∧
    (r ≠ 0#5 → (∀ v, forward = some (r, v) → readOperand s forward (some r) = v) ∧
      ((∀ v, forward ≠ some (r, v)) → readOperand s forward (some r) = s.regs[r.toNat]'(r.isLt)))) ∧
  (∀ (pc a b predNext : Word) (ins : Instr) (x : ExecuteOut), executeStage (.decoded pc ins a b predNext) = .ok x →
    ∃ result addr data, x.ew = .executed pc ins result addr data ∧
      ∀ q v, x.forward = some (q, v) ↔ (isLoad ins = false ∧ rdOf ins = some q ∧ q ≠ 0#5 ∧ v = result)) ∧
  ∀ (t u : State) (x : ExecuteOut) (pc a b predNext : Word) (d : Instr), executeStage t.de = .ok x →
    decodeStage t x.forward = .pass (.decoded pc d a b predNext) →
    writeBack { t with ew := x.ew } = .ok u →
    a = u.readSource (rs1Of d) ∧ b = u.readSource (rs2Of d)

/-- R158: Execute forwards (rd, result) for an ALU instruction, LUI, AUIPC, JAL or JALR with rd other than x0, the jumps'
result being the link pc + 4; loads, stores, branches and bubbles forward nothing, and a fault token raises. -/
def Obligations.ForwardingPath : Prop :=
  (∀ (rd rs1 rs2 : RegIdx) (imm : Word) (shamt : BitVec 5) (pc a b predNext : Word) (x : ExecuteOut),
    (∀ i ∈ aluInstrs rd rs1 rs2 imm shamt ++ upperInstrs rd imm ++ jumpInstrs rd rs1 imm,
      executeStage (.decoded pc i a b predNext) = .ok x →
        ∃ result, x.ew = .executed pc i result 0#32 0#32 ∧
          x.forward = (if rd = 0#5 then none else some (rd, result)) ∧
          (i ∈ jumpInstrs rd rs1 imm → result = pc + 4#32)) ∧
    (∀ i ∈ loadInstrs rd rs1 imm ++ storeInstrs rs1 rs2 imm ++ branchInstrs rs1 rs2 imm,
      executeStage (.decoded pc i a b predNext) = .ok x → x.forward = none)) ∧
  (∀ x, executeStage .empty = .ok x → x.forward = none) ∧
  ∀ pc err x, executeStage (.fault pc err) ≠ .ok x

/-- R159: the load-use condition, what a stall does (the load goes on to Write-back), that it lasts one cycle (DE is then
empty), and that it never meets a flush. -/
def Obligations.LoadUseStallLastsOneCycle : Prop :=
  (∀ (de : DeLatch) (d : Instr), loadUse de d = true ↔
    ∃ pc a b predNext rd rs1 imm, ∃ i ∈ loadInstrs rd rs1 imm,
      de = .decoded pc i a b predNext ∧ rd ≠ 0#5 ∧ rd ∈ srcsOf d) ∧
  (∀ (s : State) (x : ExecuteOut) (pc word predNext : Word) (d : Instr), s.fd = .fetched pc word predNext →
    decode word = .ok d → loadUse s.de d = true → executeStage s.de = .ok x →
    x.redirect = none ∧ advance s x = { s with ew := x.ew, de := .empty } ∧
    ∃ pc' a b pn result addr data, ∃ i, isLoad i = true ∧ s.de = .decoded pc' i a b pn ∧
      x.ew = .executed pc' i result addr data) ∧
  ∀ (s : State) (forward : Option (RegIdx × Word)), s.de = .empty → decodeStage s forward ≠ .stall

/-! ### Execute, Write-back and the tick (70_reset_and_hazards.md sections 2, 5, 6, 7) -/

/-- R161: the cases of Execute; every field of EW that the instruction does not use is 0. -/
def Obligations.ExecuteStageCases : Prop :=
  executeStage .empty = .ok { ew := .empty, forward := none, redirect := none } ∧
  (∀ pc err, executeStage (.fault pc err) = .error err) ∧
  (∀ (rd rs1 rs2 : RegIdx) (imm : Word) (shamt : BitVec 5) (pc a b predNext : Word),
    (∀ i ∈ aluInstrs rd rs1 rs2 imm shamt ++ upperInstrs rd imm ++ loadInstrs rd rs1 imm ++ storeInstrs rs1 rs2 imm,
      ∃ x, executeStage (.decoded pc i a b predNext) = .ok x) ∧
    (∀ i ∈ branchInstrs rs1 rs2 imm ++ jumpInstrs rd rs1 imm,
      ∀ e, executeStage (.decoded pc i a b predNext) = .error e →
        ∃ target : Word, target.toNat % 4 ≠ 0 ∧ e = .misalignedAccess pc target 4) ∧
    (∀ x, (∀ i ∈ aluInstrs rd rs1 rs2 imm shamt ++ upperInstrs rd imm ++ jumpInstrs rd rs1 imm,
        executeStage (.decoded pc i a b predNext) = .ok x → ∃ result, x.ew = .executed pc i result 0#32 0#32) ∧
      (∀ i ∈ loadInstrs rd rs1 imm,
        executeStage (.decoded pc i a b predNext) = .ok x → x.ew = .executed pc i 0#32 (a + imm) 0#32) ∧
      (∀ i ∈ storeInstrs rs1 rs2 imm,
        executeStage (.decoded pc i a b predNext) = .ok x → x.ew = .executed pc i 0#32 (a + imm) b) ∧
      (∀ i ∈ branchInstrs rs1 rs2 imm,
        executeStage (.decoded pc i a b predNext) = .ok x → x.ew = .executed pc i 0#32 0#32 0#32))) ∧
  ∀ (pc a b predNext : Word) (i : Instr) (c : Computed), (splitOf i).execute pc a b = .ok c →
    ∃ x, executeStage (.decoded pc i a b predNext) = .ok x ∧ x.ew = .executed pc i c.result c.addr c.data ∧
      x.redirect = if mispredicts predNext c.transfer = true then some (c.transfer.actualNext pc) else none

/-- R162: what a tick with a misprediction leaves. The two younger slots are gone, the fetch PC is the target, the wait is
abandoned, the flush is counted, the mispredicting instruction is in EW, Fetch's access of the tick stands, and registers,
memory and retirements are as this tick's Write-back left them. When the target then hits, the next tick fetches it and two
ticks pass with nothing in EW: the cost of two cycles. -/
def Obligations.MispredictionFlushesAndRedirects : Prop :=
  ∀ (s t : State) (x : ExecuteOut) (target : Word), s.status = .running →
    writeBack { s with cycles := s.cycles + 1 } = .ok t →
    retireCountReached { s with cycles := s.cycles + 1 } t = false →
    executeStage s.de = .ok x → x.redirect = some target →
    tick s = { t with
      fd := .empty
      de := .empty
      ew := x.ew
      fpc := target
      fwait := 0
      flushes := s.flushes + 1
      l1i := (fetchStage t).state.l1i
      l1iHits := (fetchStage t).state.l1iHits
      l1iMisses := (fetchStage t).state.l1iMisses } ∧ x.ew ≠ .empty ∧
    ∀ w, s.cfg.stop ≠ .haltAt target → target.toNat % 4 = 0 → target.toNat + 4 ≤ s.cfg.memSize →
      lookup s.cfg (tick s).l1i target = some w → (ticks 2 s).status = .running →
      (ticks 2 s).fd = .fetched target w (target + 4#32) ∧ (ticks 2 s).de = .empty ∧ (ticks 2 s).ew = .empty ∧
      (ticks 3 s).de ≠ .empty ∧ (ticks 3 s).ew = .empty

/-- R163, with R108 for the loads and stores: the cases of Write-back, a load writing the extended value of the bytes it
reads; Write-back alone writes registers and memory, and it never writes the fetch PC; and instructions complete it in
program order: in a state the invariant admits, the next to retire after the instruction in EW is the one at its actual next
address, and a tick with an empty EW leaves which one it is. -/
def Obligations.WriteBackCommitsInOrder : Prop :=
  (∀ s : State, s.ew = .empty → writeBack s = .ok s) ∧
  (∀ (s : State) (pc result addr data : Word) (rd rs1 rs2 : RegIdx) (imm : Word) (shamt : BitVec 5),
    (∀ i ∈ aluInstrs rd rs1 rs2 imm shamt ++ upperInstrs rd imm ++ jumpInstrs rd rs1 imm,
      s.ew = .executed pc i result addr data →
        writeBack s = .ok { s.writeReg rd result with retired := s.retired + 1 }) ∧
    (∀ i ∈ branchInstrs rs1 rs2 imm, s.ew = .executed pc i result addr data →
      writeBack s = .ok { s with retired := s.retired + 1 }) ∧
    (∀ i ∈ loadInstrs rd rs1 imm ++ storeInstrs rs1 rs2 imm, ∀ n, accessWidth i = some n →
      s.ew = .executed pc i result addr data →
        (addr.toNat % n ≠ 0 → writeBack s = .error (.misalignedAccess pc addr n)) ∧
        (addr.toNat % n = 0 → s.cfg.memSize < addr.toNat + n →
          writeBack s = .error (.memoryOutOfBounds pc addr n)) ∧
        (addr.toNat % n = 0 → addr.toNat + n ≤ s.cfg.memSize →
          (i ∈ loadInstrs rd rs1 imm →
            writeBack s = .ok { s.writeReg rd (BitVec.ofInt 32 (loadedNumber i (Memory.readBytes s.mem addr.toNat n))) with
              retired := s.retired + 1 }) ∧
          (i ∈ storeInstrs rs1 rs2 imm →
            writeBack s = .ok { s with
              mem := Memory.writeBytes s.mem addr.toNat n data, retired := s.retired + 1 })))) ∧
  (∀ s t : State, writeBack s = .ok t → t.fpc = s.fpc) ∧
  (∀ s t : State, s.status = .running → writeBack { s with cycles := s.cycles + 1 } = .ok t →
    (tick s).regs = t.regs ∧ (tick s).mem = t.mem ∧ (tick s).retired = t.retired) ∧
  (∀ (s : State) (e : FatalError), s.status = .running → writeBack { s with cycles := s.cycles + 1 } = .error e →
    (tick s).status = .halted e ∧ (tick s).regs = s.regs ∧ (tick s).mem = s.mem ∧ (tick s).retired = s.retired) ∧
  ∀ s : State, CoreInv s → s.status = .running → (tick s).status = .running →
    (∀ pc i result addr data, s.ew = .executed pc i result addr data → s.pcToRetire = pc ∧
      ∃ c, (splitOf i).execute pc (s.readSource (rs1Of i)) (s.readSource (rs2Of i)) = .ok c ∧
        (tick s).pcToRetire = c.transfer.actualNext pc) ∧
    (s.ew = .empty → (tick s).pcToRetire = s.pcToRetire)

/-- R152: the latches after a tick that did not end early. -/
def Obligations.LatchUpdate : Prop :=
  ∀ (s t : State) (x : ExecuteOut), s.status = .running → writeBack { s with cycles := s.cycles + 1 } = .ok t →
    retireCountReached { s with cycles := s.cycles + 1 } t = false → executeStage s.de = .ok x →
    (tick s).ew = x.ew ∧
    (x.redirect ≠ none → (tick s).fd = .empty ∧ (tick s).de = .empty) ∧
    (x.redirect = none → decodeStage t x.forward = .stall → (tick s).fd = s.fd ∧ (tick s).de = .empty) ∧
    (∀ de, x.redirect = none → decodeStage t x.forward = .pass de →
      (tick s).fd = (fetchStage t).fd ∧ (tick s).de = de) ∧
    (s.fd = .empty → (tick s).de = .empty) ∧ (s.de = .empty → (tick s).ew = .empty)

/-- R164: when each policy stops the run, after reset and after a tick, and that Fetch makes no access at the halt address.
Under RetireCount(N) for a run that has retired fewer than N, as every running state of a run has (`ExecutionInv.policy` of
the invariant, which `StepKeepsInvariant` states). -/
def Obligations.TerminationPolicies : Prop :=
  (∀ (s : State) (h : Word), s.status = .running → s.cfg.stop = .haltAt h →
    ((tick s).status = .stopped ↔
      (tick s).fpc = h ∧ (tick s).fd = .empty ∧ (tick s).de = .empty ∧ (tick s).ew = .empty ∧ (tick s).fwait = 0) ∧
    (s.fwait = 0 → s.fpc = h → fetchStage s = { fd := .empty, state := s })) ∧
  (∀ (s : State) (n : Nat), s.status = .running → s.cfg.stop = .retireCount n → s.retired < n →
    ((tick s).status = .stopped ↔ (tick s).retired = n) ∧
    ∀ t, writeBack { s with cycles := s.cycles + 1 } = .ok t → t.retired = n → tick s = { t with status := .stopped }) ∧
  ∀ (cfg : Params) (regs : Vector Word 32) (mem : Memory),
    (∀ h, cfg.stop = .haltAt h → ((boot cfg regs mem).status = .stopped ↔ cfg.entry = h)) ∧
    (∀ n, cfg.stop = .retireCount n → ((boot cfg regs mem).status = .stopped ↔ n = 0))

/-- R165: the events each counter counts, with each counted miss one block read into the L1I and a hit none, and that all
start at 0. -/
def Obligations.CounterEvents : Prop :=
  (∀ s : State, s.status = .running →
    let s1 : State := { s with cycles := s.cycles + 1 }
    (tick s).cycles = s.cycles + 1 ∧
    (∀ e, writeBack s1 = .error e → (tick s).retired = s.retired ∧ (tick s).l1iHits = s.l1iHits ∧
      (tick s).l1iMisses = s.l1iMisses ∧ (tick s).flushes = s.flushes) ∧
    ∀ t, writeBack s1 = .ok t →
      (tick s).retired = s.retired + (if s.ew = .empty then 0 else 1) ∧
      ((retireCountReached s1 t = true ∨ (∃ e, executeStage s.de = .error e)) →
        (tick s).l1iHits = s.l1iHits ∧ (tick s).l1iMisses = s.l1iMisses ∧ (tick s).flushes = s.flushes) ∧
      ∀ x, retireCountReached s1 t = false → executeStage s.de = .ok x →
        (tick s).flushes = s.flushes + (if x.redirect = none then 0 else 1) ∧
        (decodeStage t x.forward = .stall → (tick s).l1iHits = s.l1iHits ∧ (tick s).l1iMisses = s.l1iMisses) ∧
        ∀ de, decodeStage t x.forward = .pass de →
          let looksUp := s.fwait = 0 ∧ s.cfg.stop ≠ .haltAt s.fpc ∧ s.fpc.toNat % 4 = 0 ∧
            s.fpc.toNat + 4 ≤ s.cfg.memSize
          (looksUp → lookup s.cfg s.l1i s.fpc ≠ none →
            (tick s).l1iHits = s.l1iHits + 1 ∧ (tick s).l1iMisses = s.l1iMisses ∧ (tick s).l1i = s.l1i) ∧
          (looksUp → lookup s.cfg s.l1i s.fpc = none →
            (tick s).l1iHits = s.l1iHits ∧ (tick s).l1iMisses = s.l1iMisses + 1 ∧
              (tick s).l1i = fill s.cfg t.mem s.l1i s.fpc) ∧
          (¬ looksUp → (tick s).l1iHits = s.l1iHits ∧ (tick s).l1iMisses = s.l1iMisses ∧ (tick s).l1i = s.l1i)) ∧
  ∀ cfg regs mem, let s := boot cfg regs mem
    s.cycles = 0 ∧ s.retired = 0 ∧ s.l1iHits = 0 ∧ s.l1iMisses = 0 ∧ s.flushes = 0

/-- R21: a tick leaves the fetch PC, or advances it past an instruction or token that Fetch delivers, or takes the target of
a misprediction; Write-back never writes it. -/
def Obligations.OnlyFetchAndRedirectWriteThePc : Prop :=
  (∀ s : State,
    (tick s).fpc = s.fpc ∨
      ((tick s).fpc = s.fpc + 4#32 ∧ ((tick s).fd.pc? = some s.fpc)) ∨
      ∃ x, executeStage s.de = .ok x ∧ x.redirect = some (tick s).fpc) ∧
  ∀ s t : State, writeBack s = .ok t → t.fpc = s.fpc

/-! ### Decoder and encoder (30_encoding.md) -/

/-- R71, R73: a word that decodes matches exactly one row of the opcode table, that of its mnemonic; a word that matches no
row is UnknownInstruction. -/
def Obligations.DecoderFollowsTheOpcodeTable : Prop :=
  opcodeTable.length = 37 ∧
  (∀ (w : Word) (i : Instr), decode w = .ok i →
    ∃ row ∈ opcodeTable, row.mnemonic = i.mnemonic ∧ w &&& row.mask = row.bits ∧
      ∀ row' ∈ opcodeTable, w &&& row'.mask = row'.bits → row' = row) ∧
  (∀ w : Word, (∃ row ∈ opcodeTable, w &&& row.mask = row.bits) → ∃ i, decode w = .ok i) ∧
  ∀ w : Word, (∀ row ∈ opcodeTable, w &&& row.mask ≠ row.bits) → decode w = .error (.unknownInstruction w)

/-- R74: the classes of illegal words, and that such a word becomes a fault token that halts when it reaches Execute. -/
def Obligations.ReservedWordsAreIllegal : Prop :=
  (∀ w : Word,
    let opcode := w.extractLsb' 0 7
    let funct3 := w.extractLsb' 12 3
    let funct7 := w.extractLsb' 25 7
    (w.extractLsb' 0 2 ≠ 0b11#2 ∨
      opcode ∉ [0b0110111#7, 0b0010111#7, 0b1101111#7, 0b1100111#7, 0b1100011#7, 0b0000011#7, 0b0100011#7,
        0b0010011#7, 0b0110011#7] ∨
      (opcode = 0b1100111#7 ∧ funct3 ≠ 0b000#3) ∨
      (opcode = 0b1100011#7 ∧ funct3 ∈ [0b010#3, 0b011#3]) ∨
      (opcode = 0b0000011#7 ∧ funct3 ∈ [0b011#3, 0b110#3, 0b111#3]) ∨
      (opcode = 0b0100011#7 ∧ funct3 ∈ [0b011#3, 0b100#3, 0b101#3, 0b110#3, 0b111#3]) ∨
      (opcode = 0b0010011#7 ∧ funct3 = 0b001#3 ∧ funct7 ≠ 0b0000000#7) ∨
      (opcode = 0b0010011#7 ∧ funct3 = 0b101#3 ∧ funct7 ∉ [0b0000000#7, 0b0100000#7]) ∨
      (opcode = 0b0110011#7 ∧ funct7 ∉ [0b0000000#7, 0b0100000#7]) ∨
      (opcode = 0b0110011#7 ∧ funct7 = 0b0100000#7 ∧ funct3 ∉ [0b000#3, 0b101#3])) ↔
    decode w = .error (.unknownInstruction w)) ∧
  decode 0x00000000#32 = .error (.unknownInstruction 0x00000000#32) ∧
  decode 0xFFFFFFFF#32 = .error (.unknownInstruction 0xFFFFFFFF#32) ∧
  ∀ (s : State) (forward : Option (RegIdx × Word)) (pc w predNext : Word), s.fd = .fetched pc w predNext →
    decode w = .error (.unknownInstruction w) →
    decodeStage s forward = .pass (.fault pc (.unknownInstruction pc w)) ∧
    executeStage (.fault pc (.unknownInstruction pc w)) = .error (.unknownInstruction pc w)

/-- R63 to R68: the immediate of what a word decodes to, as the number that the format's bits of the word spell. -/
def Obligations.ImmediatesAreAssembledFromTheirFields : Prop :=
  (∀ (w : Word) (i : Instr), decode w = .ok i →
    let bits := fun hi lo : Nat => w.toNat / 2 ^ lo % 2 ^ (hi - lo + 1)
    let sext := fun n v : Nat => if v < 2 ^ (n - 1) then (v : Int) else (v : Int) - 2 ^ n
    let imm := immOf i
    let shift := i.mnemonic = "SLLI" ∨ i.mnemonic = "SRLI" ∨ i.mnemonic = "SRAI"
    (formatOf i = .i → ¬ shift → imm.toInt = sext 12 (bits 31 20)) ∧
    (formatOf i = .s → imm.toInt = sext 12 (2 ^ 5 * bits 31 25 + bits 11 7)) ∧
    (formatOf i = .b →
      imm.toInt = sext 13 (2 ^ 12 * bits 31 31 + 2 ^ 11 * bits 7 7 + 2 ^ 5 * bits 30 25 + 2 * bits 11 8)) ∧
    (formatOf i = .u → imm.toNat = 2 ^ 12 * bits 31 12 ∧ imm = w &&& 0xFFFFF000#32) ∧
    (formatOf i = .j →
      imm.toInt = sext 21 (2 ^ 20 * bits 31 31 + 2 ^ 12 * bits 19 12 + 2 ^ 11 * bits 20 20 + 2 * bits 30 21)) ∧
    (shift → imm.toNat = bits 24 20 ∧ bits 31 25 = if i.mnemonic = "SRAI" then 32 else 0)) ∧
  ∀ w : Word, w.extractLsb' 0 7 = 0b0010011#7 → (w.extractLsb' 12 3 = 0b001#3 ∨ w.extractLsb' 12 3 = 0b101#3) →
    w.getLsbD 25 = true → decode w = .error (.unknownInstruction w)

/-- R76: decoding the word of a well-formed instruction gives the instruction back, with every operand. -/
def Obligations.DecodeOfEncodeIsIdentity : Prop :=
  ∀ i : Instr, i.wf = true → decode (encode i) = .ok i

/-- 30_encoding.md sections 1 to 3: what a word decodes to is well-formed and is encoded by that very word, so no bit of a
legal word is dropped and no two words decode alike. -/
def Obligations.EncodeOfDecodeIsIdentity : Prop :=
  ∀ (w : Word) (i : Instr), decode w = .ok i → i.wf = true ∧ encode i = w

/-- Words written out from 30_encoding.md R62 and R73, one for every format and family, decode to their instructions. -/
def Obligations.FamilyWordsDecode : Prop :=
  -- U: imm[31:12] rd opcode
  decode (0b00010010001101000101#20 ++ 0b00001#5 ++ 0b0110111#7 : BitVec 32) = .ok (.lui 1#5 0x12345000#32) ∧
  decode (0b00000000000000000001#20 ++ 0b00001#5 ++ 0b0010111#7 : BitVec 32) = .ok (.auipc 1#5 0x00001000#32) ∧
  -- J: imm[20] imm[10:1] imm[11] imm[19:12] rd opcode
  decode (0b0#1 ++ 0b0000000000#10 ++ 0b1#1 ++ 0b00000000#8 ++ 0b00001#5 ++ 0b1101111#7 : BitVec 32) =
    .ok (.jal 1#5 2048#32) ∧
  -- I: imm[11:0] rs1 funct3 rd opcode
  decode (0b000000000100#12 ++ 0b00101#5 ++ 0b000#3 ++ 0b00001#5 ++ 0b1100111#7 : BitVec 32) =
    .ok (.jalr 1#5 5#5 4#32) ∧
  decode (0b111111111100#12 ++ 0b00001#5 ++ 0b010#3 ++ 0b00010#5 ++ 0b0000011#7 : BitVec 32) =
    .ok (.lw 2#5 1#5 0xFFFFFFFC#32) ∧
  decode (0b111111111001#12 ++ 0b00001#5 ++ 0b000#3 ++ 0b00010#5 ++ 0b0010011#7 : BitVec 32) =
    .ok (.addi 2#5 1#5 0xFFFFFFF9#32) ∧
  decode (0b0100000#7 ++ 0b11111#5 ++ 0b00001#5 ++ 0b101#3 ++ 0b00010#5 ++ 0b0010011#7 : BitVec 32) =
    .ok (.srai 2#5 1#5 31#5) ∧
  -- B: imm[12] imm[10:5] rs2 rs1 funct3 imm[4:1] imm[11] opcode
  decode (0b1#1 ++ 0b111111#6 ++ 0b00010#5 ++ 0b00001#5 ++ 0b001#3 ++ 0b1100#4 ++ 0b1#1 ++ 0b1100011#7 : BitVec 32) =
    .ok (.bne 1#5 2#5 0xFFFFFFF8#32) ∧
  -- S: imm[11:5] rs2 rs1 funct3 imm[4:0] opcode
  decode (0b1111111#7 ++ 0b00010#5 ++ 0b00001#5 ++ 0b010#3 ++ 0b11000#5 ++ 0b0100011#7 : BitVec 32) =
    .ok (.sw 1#5 2#5 0xFFFFFFF8#32) ∧
  -- R: funct7 rs2 rs1 funct3 rd opcode
  decode (0b0100000#7 ++ 0b00010#5 ++ 0b00001#5 ++ 0b000#3 ++ 0b00011#5 ++ 0b0110011#7 : BitVec 32) =
    .ok (.sub 3#5 1#5 2#5)

/-- Section 1 of 30_encoding.md and R38: the table's bits of a row, laid out as little-endian bytes, decode as the word they
spell; so a table word of a well-formed instruction gives that instruction. -/
def Obligations.TableWordsDecodeThroughBytes : Prop :=
  (∀ nbits w : Nat, decodeTableWord nbits w = (decode (BitVec.ofNat 32 (w % 2 ^ nbits))).toOption) ∧
  ∀ i : Instr, i.wf = true → decodeTableWord 32 (encode i).toNat = some i

/-- R70: the sources and the destination of each format, which are the register fields of the word that has them. -/
def Obligations.RegisterUseSets : Prop :=
  ∀ (w : Word) (i : Instr), decode w = .ok i →
    let rd := w.extractLsb' 7 5
    let rs1 := w.extractLsb' 15 5
    let rs2 := w.extractLsb' 20 5
    (formatOf i = .r → srcsOf i = [rs1, rs2] ∧ rdOf i = some rd) ∧
    (formatOf i = .i → srcsOf i = [rs1] ∧ rdOf i = some rd) ∧
    (formatOf i = .s ∨ formatOf i = .b → srcsOf i = [rs1, rs2] ∧ rdOf i = none) ∧
    (formatOf i = .u ∨ formatOf i = .j → srcsOf i = [] ∧ rdOf i = some rd)

/-! ### The whole machine -/

/-- The invariant of the core holds after every launch, and of the model's own reset state. -/
def Obligations.InvariantHoldsAfterLaunch : Prop :=
  (∀ (cfg : Params) (regs : Vector Word 32) (mem : Memory), LaunchOk cfg mem → CoreInv (boot cfg regs mem)) ∧
  CoreInv State.reset

/-- Every step keeps the invariant of the core, and with it the parameters. -/
def Obligations.StepKeepsInvariant : Prop :=
  ∀ s t : State, CoreInv s → step s = .next t → CoreInv t ∧ t.cfg = s.cfg

/-- A step is a stretch of ticks of which the last, and no other, retires an instruction or ends the run (the model's own
choice of what one step is, log entry 5): the last does so in every state the invariant admits, and in any other whenever the
stretch is shorter than the bound. A core whose run has ended takes no tick, and its step answers a fault (log entry 7). -/
def Obligations.StepIsTicksToTheNextRetirement : Prop :=
  (∀ s : State, s.status = .running →
    ∃ k, 1 ≤ k ∧ k ≤ s.fwait + s.cfg.missPenalty + 5 ∧ step s = .next (ticks k s) ∧
      (∀ j, j < k → (ticks j s).status = .running ∧ (ticks j s).retired = s.retired) ∧
      (CoreInv s ∨ k < s.fwait + s.cfg.missPenalty + 5 →
        ¬ ((ticks k s).status = .running ∧ (ticks k s).retired = s.retired))) ∧
  (∀ s : State, s.status = .stopped → step s = .fault .stopped ∧ tick s = s) ∧
  ∀ (s : State) (e : FatalError), s.status = .halted e → step s = .fault (.halted e) ∧ tick s = s

/-- Every step of a running core retires exactly one instruction or ends the run: no stall, miss or flush lasts for ever. -/
def Obligations.StepMakesProgress : Prop :=
  ∀ s : State, CoreInv s → s.status = .running →
    ∃ t, step s = .next t ∧ (t.status = .running → t.retired = s.retired + 1)

/-- When the core is about to fetch at an address whose four bytes in memory decode to i, one step shows exactly what the
execution of i by itself gives: the same registers, memory and retirement count, the same error, the same next address. -/
def Obligations.StepRunsTheDecodedInstruction : Prop :=
  ∀ (s : State) (i : Instr), ReadyToFetch s i → ∃ t u, step s = .next t ∧ exec i s = .next u ∧ ShowsExec t u

/-- An instruction placed by `withFetchWord` (log entry 10) is the one the very next step runs, and placing it changes no
register and no byte of memory but the four at the fetch PC. -/
def Obligations.PlacedInstructionRunsNext : Prop :=
  ∀ (s : State) (nbits w : Nat) (i : Instr), decodeTableWord nbits w = some i → s.cfg.Valid →
    s.l1i.length = s.cfg.numLines → s.status = .running → Memory.wf s.mem → s.cfg.stop ≠ .haltAt s.fpc →
    s.fpc.toNat % 4 = 0 → s.fpc.toNat + 4 ≤ s.cfg.memSize →
    (∃ t u, step (s.withFetchWord nbits w) = .next t ∧ exec i (s.withFetchWord nbits w) = .next u ∧ ShowsExec t u) ∧
    (∀ r, (s.withFetchWord nbits w).readReg r = s.readReg r) ∧
    ∀ x, x < s.fpc.toNat ∨ s.fpc.toNat + 4 ≤ x →
      Memory.read (s.withFetchWord nbits w).mem x = Memory.read s.mem x

/-- In every state the invariant admits, in flight or not: a tick with an instruction in EW shows exactly what the execution
of that instruction by itself gives in the sequential view of the state, and a tick with none leaves that view's registers,
memory, retirement count and next address as they are. -/
def Obligations.TickRefinesSequentialExecution : Prop :=
  (∀ (s : State) (pc result addr data : Word) (i : Instr), CoreInv s → s.status = .running →
    s.ew = .executed pc i result addr data → ∃ u, exec i s.sequentialView = .next u ∧ ShowsExec (tick s) u) ∧
  ∀ s : State, CoreInv s → s.status = .running → s.ew = .empty →
    SameResults (tick s) s ∧ ((tick s).status = .running → (tick s).pcToRetire = s.pcToRetire)

/-- R168: under the launch premise, from every launch, the pipelined core and the sequential reference end in the same way,
or neither ends. -/
def Obligations.PipelineMatchesSequentialReference : Prop :=
  ∀ (cfg : Params) (regs : Vector Word 32) (mem : Memory), LaunchOk cfg mem →
    CodeUnmodified (State.launch cfg regs mem) →
    (∀ n, (ticks n (boot cfg regs mem)).status ≠ .running →
      ∃ k, SameEnd (ticks n (boot cfg regs mem)) (sequentialRun k (State.launch cfg regs mem))) ∧
    ∀ k, (sequentialRun k (State.launch cfg regs mem)).status ≠ .running →
      ∃ n, SameEnd (ticks n (boot cfg regs mem)) (sequentialRun k (State.launch cfg regs mem))

/-- The model's reading of R164 in states that no run reaches (DEDUCED, log entry 12): under RetireCount(N) the comparison is
made when Write-back has completed an instruction, and not when EW was empty, whatever the retirement count was. -/
def Obligations.RetireCountComparesAtRetirements : Prop :=
  ∀ (s : State) (n : Nat), s.status = .running → s.cfg.stop = .retireCount n →
    let s1 : State := { s with cycles := s.cycles + 1 }
    ((tick s).status = .stopped ↔ ∃ t, writeBack s1 = .ok t ∧ s.ew ≠ .empty ∧ t.retired = n) ∧
    ∀ t, writeBack s1 = .ok t → s.ew ≠ .empty → t.retired = n → tick s = { t with status := .stopped }

end
end

