-- ==== Sys2Proof/Laws/Memory.lean ====
section
/-! SUPPORT. The laws of memory: read after write, and that every operation keeps the canonical form. -/

namespace Sys2Proof.Machine

/-- Every listed address is above `a`. -/
abbrev Memory.above (a : Nat) (m : Memory) : Prop := ∀ c ∈ m, a < c.1

theorem Memory.wf_nil : Memory.wf [] := by simp [Memory.wf]

theorem Memory.wf_cons {c : Host.Cell} {m : Memory} :
    Memory.wf (c :: m) ↔ Memory.above c.1 m ∧ c.2 ≠ unlistedByte ∧ Memory.wf m := by
  simp only [Memory.wf, List.pairwise_cons, List.forall_mem_cons]
  tauto

theorem Memory.read_of_above {a : Nat} {m : Memory} (h : ∀ c ∈ m, a ≠ c.1) : Memory.read m a = unlistedByte := by
  induction m with
  | nil => rfl
  | cons c m ih =>
    simp only [List.forall_mem_cons] at h
    simp [Memory.read, h.1, ih h.2]

theorem Memory.read_consByte (a : Nat) (v : Byte) {m : Memory} (h : Memory.above a m) (x : Nat) :
    Memory.read (Memory.consByte a v m) x = if x = a then v else Memory.read m x := by
  unfold Memory.consByte
  by_cases hv : v = unlistedByte
  · by_cases hx : x = a
    · subst hx
      have := Memory.read_of_above (a := x) (m := m) fun c hc => by have := h c hc; omega
      simp [hv, this]
    · simp [hv, hx]
  · by_cases hx : x = a <;> simp [hv, hx, Memory.read]

theorem Memory.wf_consByte {a : Nat} {v : Byte} {m : Memory} (ha : Memory.above a m) (h : Memory.wf m) :
    Memory.wf (Memory.consByte a v m) := by
  unfold Memory.consByte
  split
  · exact h
  · exact Memory.wf_cons.2 ⟨ha, by assumption, h⟩

/-- An address a write lists is the written one or was listed before. -/
theorem Memory.mem_write {m : Memory} {a : Nat} {v : Byte} {c : Host.Cell} (h : c ∈ Memory.write m a v) :
    c.1 = a ∨ c ∈ m := by
  induction m with
  | nil =>
    unfold Memory.write Memory.consByte at h
    split at h <;> simp_all
  | cons d m ih =>
    unfold Memory.write Memory.consByte at h
    split at h
    · split at h
      · exact .inr h
      · rcases List.mem_cons.1 h with rfl | h
        · exact .inl rfl
        · exact .inr h
    · split at h
      · split at h
        · exact .inr (List.mem_cons_of_mem _ h)
        · rcases List.mem_cons.1 h with rfl | h
          · exact .inl rfl
          · exact .inr (List.mem_cons_of_mem _ h)
      · rcases List.mem_cons.1 h with rfl | h
        · exact .inr (List.mem_cons_self)
        · rcases ih h with h | h
          · exact .inl h
          · exact .inr (List.mem_cons_of_mem _ h)

/-- A one-byte write keeps the canonical form. -/
theorem Memory.wf_write {m : Memory} (h : Memory.wf m) (a : Nat) (v : Byte) : Memory.wf (Memory.write m a v) := by
  induction m with
  | nil => exact Memory.wf_consByte (by simp) h
  | cons d m ih =>
    obtain ⟨hd, hv, hm⟩ := Memory.wf_cons.1 h
    unfold Memory.write
    split
    · rename_i hlt
      refine Memory.wf_consByte ?_ h
      intro c hc
      rcases List.mem_cons.1 hc with rfl | hc
      · exact hlt
      · have := hd c hc; omega
    · split
      · rename_i heq
        exact Memory.wf_consByte (by rw [heq]; exact hd) hm
      · refine Memory.wf_cons.2 ⟨?_, hv, ih hm⟩
        intro c hc
        rcases Memory.mem_write hc with h | h
        · omega
        · exact hd c h

/-- Read after a one-byte write. -/
theorem Memory.read_write {m : Memory} (h : Memory.wf m) (a : Nat) (v : Byte) (x : Nat) :
    Memory.read (Memory.write m a v) x = if x = a then v else Memory.read m x := by
  induction m with
  | nil => exact Memory.read_consByte a v (by simp) x
  | cons d m ih =>
    obtain ⟨hd, hv, hm⟩ := Memory.wf_cons.1 h
    unfold Memory.write
    split
    · rename_i hlt
      refine Memory.read_consByte a v ?_ x
      intro c hc
      rcases List.mem_cons.1 hc with rfl | hc
      · exact hlt
      · have := hd c hc; omega
    · split
      · rename_i heq
        rw [Memory.read_consByte a v (by rw [heq]; exact hd) x]
        by_cases hx : x = a
        · simp [hx]
        · simp [hx, Memory.read, ← heq]
      · rename_i hne
        simp only [Memory.read, ih hm]
        by_cases hx : x = d.1
        · have : x ≠ a := by omega
          simp [hx, Ne.symm hne]
        · simp [hx]

/-- A write of n bytes keeps the canonical form. -/
theorem Memory.wf_writeBytes {m : Memory} (h : Memory.wf m) (a n : Nat) (v : Word) :
    Memory.wf (Memory.writeBytes m a n v) := by
  induction n with
  | zero => exact h
  | succ n ih => exact Memory.wf_write ih _ _

/-- Read after a write of n bytes: byte k of the value at address a + k, every other byte as before. -/
theorem Memory.read_writeBytes {m : Memory} (h : Memory.wf m) (a n : Nat) (v : Word) (x : Nat) :
    Memory.read (Memory.writeBytes m a n v) x =
      if a ≤ x ∧ x < a + n then v.extractLsb' (8 * (x - a)) 8 else Memory.read m x := by
  induction n with
  | zero => simp [Memory.writeBytes]
  | succ n ih =>
    simp only [Memory.writeBytes, Memory.read_write (Memory.wf_writeBytes h a n v), ih]
    by_cases hx : x = a + n
    · subst hx; simp
    · have : (a ≤ x ∧ x < a + n) ↔ (a ≤ x ∧ x < a + (n + 1)) := by omega
      simp [hx, this]

/-- An address a write of n bytes lists is one of the n or was listed before. -/
theorem Memory.mem_writeBytes {m : Memory} {a n : Nat} {v : Word} {c : Host.Cell}
    (h : c ∈ Memory.writeBytes m a n v) : (a ≤ c.1 ∧ c.1 < a + n) ∨ c ∈ m := by
  induction n with
  | zero => exact .inr h
  | succ n ih =>
    rcases Memory.mem_write h with h | h
    · exact .inl (by omega)
    · rcases ih h with h | h
      · exact .inl (by omega)
      · exact .inr h

/-- Two memories with the same bytes read the same values. -/
theorem Memory.readBytes_congr {m m' : Memory} {a n : Nat}
    (h : ∀ x, a ≤ x → x < a + n → Memory.read m x = Memory.read m' x) :
    Memory.readBytes m a n = Memory.readBytes m' a n := by
  induction n with
  | zero => rfl
  | succ n ih =>
    simp only [Memory.readBytes]
    rw [ih fun x h1 h2 => h x h1 (by omega), h (a + n) (by omega) (by omega)]

/-- A value of n bytes is below 2^(8n). -/
theorem Memory.readBytes_lt (m : Memory) (a n : Nat) : Memory.readBytes m a n < 2 ^ (8 * n) := by
  induction n with
  | zero => simp [Memory.readBytes]
  | succ n ih =>
    simp only [Memory.readBytes]
    have hb := (Memory.read m (a + n)).isLt
    have h8 : (2 : Nat) ^ (8 * (n + 1)) = 2 ^ (8 * n) * 256 := by rw [Nat.mul_add, Nat.pow_add]
    have : 2 ^ (8 * n) * (Memory.read m (a + n)).toNat ≤ 2 ^ (8 * n) * 255 := Nat.mul_le_mul_left _ (by omega)
    omega

/-- Equal memories are equal data: two canonical memories with the same bytes are the same list. -/
theorem Memory.ext_of_wf {m m' : Memory} (h : Memory.wf m) (h' : Memory.wf m')
    (hr : ∀ a, Memory.read m a = Memory.read m' a) : m = m' := by
  induction m generalizing m' with
  | nil =>
    cases m' with
    | nil => rfl
    | cons d m' =>
      obtain ⟨_, hv, _⟩ := Memory.wf_cons.1 h'
      have := hr d.1
      simp [Memory.read] at this
      exact absurd this.symm hv
  | cons c m ih =>
    obtain ⟨hc, hv, hm⟩ := Memory.wf_cons.1 h
    cases m' with
    | nil =>
      have := hr c.1
      simp [Memory.read] at this
      exact absurd this hv
    | cons d m' =>
      obtain ⟨hd, hv', hm'⟩ := Memory.wf_cons.1 h'
      have below : ∀ {a : Nat} {l : Memory}, Memory.above a l → Memory.read l a = unlistedByte := fun hl =>
        Memory.read_of_above fun e he => by have := hl e he; omega
      have hcd : c.1 = d.1 := by
        rcases Nat.lt_trichotomy c.1 d.1 with hlt | heq | hgt
        · have := hr c.1
          rw [Memory.read_of_above (m := d :: m') (fun e he => by
            rcases List.mem_cons.1 he with rfl | he
            · omega
            · have := hd e he; omega)] at this
          simp [Memory.read] at this
          exact absurd this hv
        · exact heq
        · have := hr d.1
          rw [Memory.read_of_above (m := c :: m) (fun e he => by
            rcases List.mem_cons.1 he with rfl | he
            · omega
            · have := hc e he; omega)] at this
          simp [Memory.read] at this
          exact absurd this.symm hv'
      have hv2 : c.2 = d.2 := by
        have := hr c.1
        simpa [Memory.read, hcd] using this
      have htail : m = m' := by
        refine ih hm hm' fun a => ?_
        by_cases ha : a = c.1
        · subst ha
          rw [below hc, hcd, below hd]
        · have := hr a
          simpa [Memory.read, ha, ← hcd] using this
      rw [htail, Prod.ext hcd hv2]

end Sys2Proof.Machine
end

