-- ==== Sys2Proof/Laws/State.lean ====
section
/-! SUPPORT. The small lemmas of the state's updates, one per field that the update leaves or sets, each true by rfl, so that
no later proof unfolds a record update. -/

namespace Sys2Proof.Machine

section Raise
variable (e : FatalError) (s : State)
@[simp] theorem raise_cfg : (raise e s).cfg = s.cfg := rfl
@[simp] theorem raise_regs : (raise e s).regs = s.regs := rfl
@[simp] theorem raise_fpc : (raise e s).fpc = s.fpc := rfl
@[simp] theorem raise_mem : (raise e s).mem = s.mem := rfl
@[simp] theorem raise_l1i : (raise e s).l1i = s.l1i := rfl
@[simp] theorem raise_fwait : (raise e s).fwait = s.fwait := rfl
@[simp] theorem raise_fd : (raise e s).fd = s.fd := rfl
@[simp] theorem raise_de : (raise e s).de = s.de := rfl
@[simp] theorem raise_ew : (raise e s).ew = s.ew := rfl
@[simp] theorem raise_cycles : (raise e s).cycles = s.cycles := rfl
@[simp] theorem raise_retired : (raise e s).retired = s.retired := rfl
@[simp] theorem raise_l1iHits : (raise e s).l1iHits = s.l1iHits := rfl
@[simp] theorem raise_l1iMisses : (raise e s).l1iMisses = s.l1iMisses := rfl
@[simp] theorem raise_flushes : (raise e s).flushes = s.flushes := rfl
@[simp] theorem raise_status : (raise e s).status = .halted e := rfl
end Raise

section WriteReg
variable (s : State) (r : RegIdx) (v : Word)
/-- A register write changes nothing but the register file. -/
theorem writeReg_eq : ∃ regs, s.writeReg r v = { s with regs := regs } := by
  unfold State.writeReg; split
  · exact ⟨s.regs, rfl⟩
  · exact ⟨_, rfl⟩
@[simp] theorem writeReg_cfg : (s.writeReg r v).cfg = s.cfg := by unfold State.writeReg; split <;> rfl
@[simp] theorem writeReg_fpc : (s.writeReg r v).fpc = s.fpc := by unfold State.writeReg; split <;> rfl
@[simp] theorem writeReg_mem : (s.writeReg r v).mem = s.mem := by unfold State.writeReg; split <;> rfl
@[simp] theorem writeReg_l1i : (s.writeReg r v).l1i = s.l1i := by unfold State.writeReg; split <;> rfl
@[simp] theorem writeReg_fwait : (s.writeReg r v).fwait = s.fwait := by unfold State.writeReg; split <;> rfl
@[simp] theorem writeReg_fd : (s.writeReg r v).fd = s.fd := by unfold State.writeReg; split <;> rfl
@[simp] theorem writeReg_de : (s.writeReg r v).de = s.de := by unfold State.writeReg; split <;> rfl
@[simp] theorem writeReg_ew : (s.writeReg r v).ew = s.ew := by unfold State.writeReg; split <;> rfl
@[simp] theorem writeReg_cycles : (s.writeReg r v).cycles = s.cycles := by unfold State.writeReg; split <;> rfl
@[simp] theorem writeReg_retired : (s.writeReg r v).retired = s.retired := by unfold State.writeReg; split <;> rfl
@[simp] theorem writeReg_l1iHits : (s.writeReg r v).l1iHits = s.l1iHits := by unfold State.writeReg; split <;> rfl
@[simp] theorem writeReg_l1iMisses : (s.writeReg r v).l1iMisses = s.l1iMisses := by unfold State.writeReg; split <;> rfl
@[simp] theorem writeReg_flushes : (s.writeReg r v).flushes = s.flushes := by unfold State.writeReg; split <;> rfl
@[simp] theorem writeReg_status : (s.writeReg r v).status = s.status := by unfold State.writeReg; split <;> rfl
@[simp] theorem writeReg_x0 : s.writeReg 0#5 v = s := rfl
end WriteReg

section Redirect
variable (s : State) (ew : EwLatch) (a : Word)
@[simp] theorem redirectTo_cfg : (redirectTo s ew a).cfg = s.cfg := rfl
@[simp] theorem redirectTo_regs : (redirectTo s ew a).regs = s.regs := rfl
@[simp] theorem redirectTo_fpc : (redirectTo s ew a).fpc = a := rfl
@[simp] theorem redirectTo_mem : (redirectTo s ew a).mem = s.mem := rfl
@[simp] theorem redirectTo_l1i : (redirectTo s ew a).l1i = s.l1i := rfl
@[simp] theorem redirectTo_fwait : (redirectTo s ew a).fwait = 0 := rfl
@[simp] theorem redirectTo_fd : (redirectTo s ew a).fd = .empty := rfl
@[simp] theorem redirectTo_de : (redirectTo s ew a).de = .empty := rfl
@[simp] theorem redirectTo_ew : (redirectTo s ew a).ew = ew := rfl
@[simp] theorem redirectTo_cycles : (redirectTo s ew a).cycles = s.cycles := rfl
@[simp] theorem redirectTo_retired : (redirectTo s ew a).retired = s.retired := rfl
@[simp] theorem redirectTo_l1iHits : (redirectTo s ew a).l1iHits = s.l1iHits := rfl
@[simp] theorem redirectTo_l1iMisses : (redirectTo s ew a).l1iMisses = s.l1iMisses := rfl
@[simp] theorem redirectTo_flushes : (redirectTo s ew a).flushes = s.flushes + 1 := rfl
@[simp] theorem redirectTo_status : (redirectTo s ew a).status = s.status := rfl
end Redirect

/-! ### Registers (R16) -/

@[simp] theorem readReg_x0 (s : State) : s.readReg 0#5 = 0#32 := rfl

theorem readReg_of_ne (s : State) {r : RegIdx} (h : r ≠ 0#5) : s.readReg r = s.regs[r.toNat]'(r.isLt) := by
  simp [State.readReg, h]

/-- A register's value depends on the register file alone. -/
theorem readReg_congr {s t : State} (h : s.regs = t.regs) (r : RegIdx) : s.readReg r = t.readReg r := by
  simp [State.readReg, h]

theorem readSource_congr {s t : State} (h : s.regs = t.regs) (r : Option RegIdx) : s.readSource r = t.readSource r := by
  cases r with
  | none => rfl
  | some r => exact readReg_congr h r

/-- Reading after a write: the written register reads as the value (x0 as 0), every other as before. -/
theorem readReg_writeReg (s : State) (r q : RegIdx) (v : Word) :
    (s.writeReg r v).readReg q = if q = r ∧ r ≠ 0#5 then v else s.readReg q := by
  by_cases hr : r = 0#5
  · subst hr; simp
  · by_cases hq : q = 0#5
    · subst hq; simp [hr, Ne.symm hr]
    · have hw : (s.writeReg r v).regs = s.regs.set r.toNat v r.isLt := by simp [State.writeReg, hr]
      rw [readReg_of_ne _ hq, readReg_of_ne _ hq]
      simp only [hw, Vector.getElem_set]
      by_cases hqr : q = r
      · subst hqr; simp [hr]
      · have : r.toNat ≠ q.toNat := fun h => hqr (BitVec.eq_of_toNat_eq h.symm)
        simp [hqr, this]

/-- Slot 0 of the register file is never written. -/
theorem writeReg_slot0 (s : State) (r : RegIdx) (v : Word) : (s.writeReg r v).regs[0] = s.regs[0] := by
  unfold State.writeReg
  split
  · rfl
  · rename_i h
    have : r.toNat ≠ 0 := fun h0 => h (BitVec.eq_of_toNat_eq h0)
    simp [this]

end Sys2Proof.Machine
end

