-- ==== Sys2Proof/Laws/Meaning.lean ====
section
/-! SUPPORT. What the shared operations of Ops.lean can do, said once: the checks of an access, the four shapes of a commit,
the three outcomes of an execution, and that every meaning is its stage split run alone. -/

namespace Sys2Proof.Machine

/-! ### Data accesses (R108) -/

/-- The checks of an access pass exactly when it is aligned and in bounds. -/
theorem checkAccess_ok {memSize n : Nat} {pc addr : Word} :
    checkAccess memSize pc addr n = .ok () ↔ addr.toNat % n = 0 ∧ addr.toNat + n ≤ memSize := by
  unfold checkAccess
  split
  · simp_all
  · split <;> simp_all

/-- The checks of an access fail on misalignment first, then on bounds. -/
theorem checkAccess_error {memSize n : Nat} {pc addr : Word} {e : FatalError} :
    checkAccess memSize pc addr n = .error e ↔
      (addr.toNat % n ≠ 0 ∧ e = .misalignedAccess pc addr n) ∨
      (addr.toNat % n = 0 ∧ memSize < addr.toNat + n ∧ e = .memoryOutOfBounds pc addr n) := by
  unfold checkAccess
  split
  · rename_i h; simp [h, eq_comm]
  · split
    · rename_i h h'; simp_all [eq_comm]
    · simp_all

/-- A misaligned access fails its checks. -/
theorem checkAccess_misaligned {m n : Nat} {pc a : Word} (h : a.toNat % n ≠ 0) :
    checkAccess m pc a n = .error (.misalignedAccess pc a n) := by simp [checkAccess, h]

/-- An aligned access past the end of memory fails its checks. -/
theorem checkAccess_outOfBounds {m n : Nat} {pc a : Word} (h : a.toNat % n = 0) (h' : m < a.toNat + n) :
    checkAccess m pc a n = .error (.memoryOutOfBounds pc a n) := by simp [checkAccess, h, h']

/-- An aligned access in bounds passes its checks. -/
theorem checkAccess_passes {m n : Nat} {pc a : Word} (h : a.toNat % n = 0) (h' : a.toNat + n ≤ m) :
    checkAccess m pc a n = .ok () := by simp [checkAccess, h, show ¬ m < a.toNat + n by omega]

/-! ### Extensions and shifts as arithmetic (R83, R109) -/

theorem sext8_eq {v : Nat} (h : v < 256) :
    sext8 v = BitVec.ofInt 32 (if v < 128 then (v : Int) else (v : Int) - 256) := by
  unfold sext8
  apply BitVec.eq_of_toInt_eq
  rw [BitVec.toInt_signExtend_of_le (by omega), BitVec.toInt_eq_toNat_cond, BitVec.toInt_ofInt]
  simp only [BitVec.toNat_ofNat, Int.bmod]
  split <;> split <;> split <;> omega

theorem sext16_eq {v : Nat} (h : v < 65536) :
    sext16 v = BitVec.ofInt 32 (if v < 32768 then (v : Int) else (v : Int) - 65536) := by
  unfold sext16
  apply BitVec.eq_of_toInt_eq
  rw [BitVec.toInt_signExtend_of_le (by omega), BitVec.toInt_eq_toNat_cond, BitVec.toInt_ofInt]
  simp only [BitVec.toNat_ofNat, Int.bmod]
  split <;> split <;> split <;> omega

theorem zext8_eq {v : Nat} (h : v < 256) : zext8 v = BitVec.ofNat 32 v := by
  unfold zext8
  apply BitVec.eq_of_toNat_eq
  simp only [BitVec.toNat_setWidth, BitVec.toNat_ofNat]
  omega

theorem zext16_eq {v : Nat} (h : v < 65536) : zext16 v = BitVec.ofNat 32 v := by
  unfold zext16
  apply BitVec.eq_of_toNat_eq
  simp only [BitVec.toNat_setWidth, BitVec.toNat_ofNat]
  omega

theorem shiftLeft_eq_ofNat (a : Word) (k : Nat) : a <<< k = BitVec.ofNat 32 (a.toNat * 2 ^ k) := by
  apply BitVec.eq_of_toNat_eq; simp [Nat.shiftLeft_eq]

theorem shiftRight_eq_ofNat (a : Word) (k : Nat) : a >>> k = BitVec.ofNat 32 (a.toNat / 2 ^ k) := by
  apply BitVec.eq_of_toNat_eq
  simp only [BitVec.toNat_ushiftRight, Nat.shiftRight_eq_div_pow, BitVec.toNat_ofNat]
  exact (Nat.mod_eq_of_lt (Nat.lt_of_le_of_lt (Nat.div_le_self _ _) a.isLt)).symm

theorem sshiftRight_eq_ofInt (a : Word) (k : Nat) : a.sshiftRight k = BitVec.ofInt 32 (a.toInt / 2 ^ k) := by
  simp [BitVec.sshiftRight, Int.shiftRight_eq_div_pow]

theorem shiftAmount_eq (b : Word) : shiftAmount b = b.toNat % 32 := by simp [shiftAmount, BitVec.extractLsb']

/-- The commit of a load that passes its checks writes the extended value of the bytes it reads (R108, R109). -/
theorem commit_load_passes {rd rs1 : RegIdx} {imm : Word} {i : Instr} {n : Nat} (hi : i ∈ loadInstrs rd rs1 imm)
    (hn : accessWidth i = some n) {s : State} {addr : Word} (h : addr.toNat % n = 0) (h' : addr.toNat + n ≤ s.cfg.memSize)
    (pc result data : Word) :
    (splitOf i).commit pc result addr data s =
      .ok (s.writeReg rd (BitVec.ofInt 32 (loadedNumber i (Memory.readBytes s.mem addr.toNat n)))) := by
  have hl := Memory.readBytes_lt s.mem addr.toNat n
  simp only [loadInstrs, List.mem_cons, List.not_mem_nil, or_false] at hi
  rcases hi with rfl | rfl | rfl | rfl | rfl <;> cases hn <;>
    simp only [splitOf, splitLb, splitLh, splitLw, splitLbu, splitLhu, commitLoad, loadAccess, checkAccess_passes h h',
      loadedNumber, loadedWord]
  · rw [sext8_eq hl]
  · rw [sext16_eq hl]
  · rw [BitVec.ofInt_natCast]
  · rw [zext8_eq hl, BitVec.ofInt_natCast]
  · rw [zext16_eq hl, BitVec.ofInt_natCast]

/-- A load that answers a state was aligned and in bounds, and wrote only its destination register. -/
theorem loadAccess_ok {s t : State} {pc addr : Word} {n : Nat} {extend : Nat → Word} {rd : RegIdx} :
    loadAccess s pc addr n extend rd = .ok t ↔
      (addr.toNat % n = 0 ∧ addr.toNat + n ≤ s.cfg.memSize) ∧
      t = s.writeReg rd (extend (Memory.readBytes s.mem addr.toNat n)) := by
  unfold loadAccess
  split
  · rename_i e h
    have := checkAccess_ok (memSize := s.cfg.memSize) (n := n) (pc := pc) (addr := addr)
    simp_all
  · rename_i h
    simp [checkAccess_ok.1 h, eq_comm]

/-- A store that answers a state was aligned and in bounds, and wrote only its bytes of memory. -/
theorem storeAccess_ok {s t : State} {pc addr data : Word} {n : Nat} :
    storeAccess s pc addr n data = .ok t ↔
      (addr.toNat % n = 0 ∧ addr.toNat + n ≤ s.cfg.memSize) ∧
      t = { s with mem := Memory.writeBytes s.mem addr.toNat n data } := by
  unfold storeAccess
  split
  · rename_i e h
    have := checkAccess_ok (memSize := s.cfg.memSize) (n := n) (pc := pc) (addr := addr)
    simp_all
  · rename_i h
    simp [checkAccess_ok.1 h, eq_comm]

/-- A load raises exactly the error of its checks. -/
theorem loadAccess_error {s : State} {pc addr : Word} {n : Nat} {extend : Nat → Word} {rd : RegIdx} {e : FatalError} :
    loadAccess s pc addr n extend rd = .error e ↔ checkAccess s.cfg.memSize pc addr n = .error e := by
  unfold loadAccess; split <;> simp_all

/-- A store raises exactly the error of its checks. -/
theorem storeAccess_error {s : State} {pc addr data : Word} {n : Nat} {e : FatalError} :
    storeAccess s pc addr n data = .error e ↔ checkAccess s.cfg.memSize pc addr n = .error e := by
  unfold storeAccess; split <;> simp_all

/-! ### The four shapes of a commit (R163) -/

/-- How an instruction's Write-back part is made. -/
inductive CommitShape (i : Instr) : Prop where
  | result (rd : RegIdx) (hrd : rdOf i = some rd) (hl : isLoad i = false) (h : (splitOf i).commit = commitResult rd)
  | nothing (hrd : rdOf i = none) (hl : isLoad i = false) (h : (splitOf i).commit = commitNothing)
  | load (n : Nat) (extend : Nat → Word) (rd : RegIdx) (hn : n = 1 ∨ n = 2 ∨ n = 4) (hrd : rdOf i = some rd)
      (hl : isLoad i = true) (h : (splitOf i).commit = commitLoad n extend rd)
  | store (n : Nat) (hn : n = 1 ∨ n = 2 ∨ n = 4) (hrd : rdOf i = none) (hl : isLoad i = false)
      (h : (splitOf i).commit = commitStore n)

/-- Every instruction's Write-back part has one of the four shapes. -/
theorem commitShape (i : Instr) : CommitShape i := by
  cases i
  case beq | bne | blt | bge | bltu | bgeu => exact .nothing rfl rfl rfl
  case lb | lbu => exact .load 1 _ _ (by simp) rfl rfl rfl
  case lh | lhu => exact .load 2 _ _ (by simp) rfl rfl rfl
  case lw => exact .load 4 _ _ (by simp) rfl rfl rfl
  case sb => exact .store 1 (by simp) rfl rfl rfl
  case sh => exact .store 2 (by simp) rfl rfl rfl
  case sw => exact .store 4 (by simp) rfl rfl rfl
  all_goals exact .result _ rfl rfl rfl

/-- What a commit that answers a state has done: written rd, or nothing, or n bytes of memory inside its bounds. -/
theorem commit_ok {i : Instr} {pc result addr data : Word} {s t : State}
    (h : (splitOf i).commit pc result addr data s = .ok t) :
    (∃ rd v, rdOf i = some rd ∧ t = s.writeReg rd v ∧ (isLoad i = false → v = result)) ∨
    (rdOf i = none ∧ t = s) ∨
    (rdOf i = none ∧ ∃ n, addr.toNat + n ≤ s.cfg.memSize ∧
      t = { s with mem := Memory.writeBytes s.mem addr.toNat n data }) := by
  cases commitShape i with
  | result rd hrd hl hc =>
    rw [hc] at h
    exact .inl ⟨rd, result, hrd, (Except.ok.inj h).symm, fun _ => rfl⟩
  | nothing hrd hl hc =>
    rw [hc] at h
    exact .inr (.inl ⟨hrd, (Except.ok.inj h).symm⟩)
  | load n extend rd hn hrd hl hc =>
    rw [hc] at h
    exact .inl ⟨rd, _, hrd, (loadAccess_ok.1 h).2, fun hl' => by rw [hl] at hl'; cases hl'⟩
  | store n hn hrd hl hc =>
    rw [hc] at h
    obtain ⟨⟨_, hb⟩, rfl⟩ := storeAccess_ok.1 h
    exact .inr (.inr ⟨hrd, n, hb, rfl⟩)

/-- A commit changes registers and memory alone, and asks only for those and the memory size: run in a state that agrees on
them it does the same. -/
theorem commit_congr {i : Instr} {pc result addr data : Word} {s t : State} (hc : s.cfg = t.cfg) (hr : s.regs = t.regs)
    (hm : s.mem = t.mem) :
    (splitOf i).commit pc result addr data t =
      match (splitOf i).commit pc result addr data s with
      | .error e => .error e
      | .ok s' => .ok { t with regs := s'.regs, mem := s'.mem } := by
  have hw : ∀ (rd : RegIdx) (v : Word), t.writeReg rd v = { t with regs := (s.writeReg rd v).regs } := by
    intro rd v
    unfold State.writeReg
    split
    · rw [hr]
    · simp [hr]
  cases commitShape i with
  | result rd _ _ h => simp [h, commitResult, hw, hm]
  | nothing _ _ h => simp [h, commitNothing, hr, hm]
  | load n extend rd _ _ _ h =>
    simp only [h, commitLoad, loadAccess, hc]
    split
    · rfl
    · simp [hw, hm]
  | store n _ _ _ h =>
    simp only [h, commitStore, storeAccess, hc, hm]
    split
    · rfl
    · simp [hr]

/-! ### Execute (R81, R107, R125, R126) -/

/-- A taken branch or a jump that Execute passes goes to a multiple of 4. -/
theorem execute_target {i : Instr} {pc a b target : Word} {c : Computed} (h : (splitOf i).execute pc a b = .ok c)
    (ht : c.transfer = .branch true target ∨ c.transfer = .jump target) : wordAligned target := by
  have hbranch : ∀ (taken : Bool) (imm : Word), executeBranch taken imm pc = .ok c → wordAligned target := by
    intro taken imm h
    unfold executeBranch at h
    simp only at h
    split at h
    · cases h
    · cases h
      simp_all [wordAligned]
  have hjump : ∀ target' : Word, executeJump target' pc = .ok c → wordAligned target := by
    intro target' h
    unfold executeJump at h
    split at h
    · cases h
    · cases h
      simp_all [wordAligned]
  cases i
  case jal => exact hjump _ h
  case jalr => exact hjump _ h
  case beq | bne | blt | bge | bltu | bgeu => exact hbranch _ _ h
  all_goals
    cases h
    simp at ht

/-- The next address in program order is a multiple of 4 when the instruction's own address is. -/
theorem execute_actualNext_aligned {i : Instr} {pc a b : Word} {c : Computed}
    (h : (splitOf i).execute pc a b = .ok c) (hpc : wordAligned pc) : wordAligned (c.transfer.actualNext pc) := by
  have hnext : wordAligned (nextPc pc) := by
    simp only [wordAligned, nextPc, BitVec.toNat_add, BitVec.toNat_ofNat] at hpc ⊢; omega
  cases ht : c.transfer with
  | none => exact hnext
  | branch taken target =>
    cases taken
    · exact hnext
    · exact execute_target h (.inl ht)
  | jump target => exact execute_target h (.inr ht)

/-- A misprediction is a taken branch or a jump, so its redirect target is a multiple of 4. -/
theorem mispredict_target_aligned {i : Instr} {pc a b predNext : Word} {c : Computed}
    (h : (splitOf i).execute pc a b = .ok c) (hm : mispredicts predNext c.transfer = true) :
    wordAligned (c.transfer.actualNext pc) := by
  cases ht : c.transfer with
  | none => simp [ht, mispredicts] at hm
  | branch taken target =>
    rw [ht] at hm
    simp only [mispredicts] at hm
    subst hm
    exact execute_target h (.inl ht)
  | jump target => exact execute_target h (.inr ht)

/-- Without a misprediction the next address in program order is the predicted one. -/
theorem actualNext_of_not_mispredicts {pc : Word} {t : Transfer} (h : mispredicts (nextPc pc) t = false) :
    t.actualNext pc = nextPc pc := by
  cases t with
  | none => rfl
  | branch taken target => simp only [mispredicts] at h; subst h; rfl
  | jump target => simpa [mispredicts, Transfer.actualNext] using h

/-- The only error Execute raises is a misaligned target of this instruction. -/
theorem execute_error {i : Instr} {pc a b : Word} {e : FatalError} (h : (splitOf i).execute pc a b = .error e) :
    ∃ target : Word, e = .misalignedAccess pc target 4 ∧ ¬ wordAligned target := by
  have hbranch : ∀ (taken : Bool) (imm : Word), executeBranch taken imm pc = .error e →
      ∃ target : Word, e = .misalignedAccess pc target 4 ∧ ¬ wordAligned target := by
    intro taken imm h
    unfold executeBranch at h
    simp only at h
    split at h
    · rename_i hna
      cases h
      exact ⟨_, rfl, hna.2⟩
    · cases h
  have hjump : ∀ target : Word, executeJump target pc = .error e →
      ∃ target : Word, e = .misalignedAccess pc target 4 ∧ ¬ wordAligned target := by
    intro target h
    unfold executeJump at h
    split at h
    · rename_i hna
      cases h
      exact ⟨_, rfl, hna⟩
    · cases h
  cases i
  case jal => exact hjump _ h
  case jalr => exact hjump _ h
  case beq | bne | blt | bge | bltu | bgeu => exact hbranch _ _ h
  all_goals cases h

/-! ### One instruction by itself -/

/-- Every meaning is the instruction's stage split, run alone on the values of its source registers. -/
theorem exec_eq_runAlone (i : Instr) (s : State) :
    exec i s = runAlone (splitOf i) (s.readSource (rs1Of i)) (s.readSource (rs2Of i)) s := by
  cases i <;> rfl

/-- The outcomes of an execution: an error of Execute, an error of Write-back, or the commit and the next pc. -/
theorem runAlone_cases (m : StageSplit) (a b : Word) (s : State) :
    (∃ e, m.execute s.fpc a b = .error e ∧ runAlone m a b s = .next (raise e s)) ∨
    (∃ c e, m.execute s.fpc a b = .ok c ∧ m.commit s.fpc c.result c.addr c.data s = .error e ∧
      runAlone m a b s = .next (raise e s)) ∨
    (∃ c t, m.execute s.fpc a b = .ok c ∧ m.commit s.fpc c.result c.addr c.data s = .ok t ∧
      runAlone m a b s = .next { t with fpc := c.transfer.actualNext s.fpc, retired := t.retired + 1 }) := by
  unfold runAlone
  cases hx : m.execute s.fpc a b with
  | error e => exact .inl ⟨e, rfl, rfl⟩
  | ok c =>
    cases hc : m.commit s.fpc c.result c.addr c.data s with
    | error e => exact .inr (.inl ⟨c, e, rfl, hc, by simp [hc]⟩)
    | ok t => exact .inr (.inr ⟨c, t, rfl, hc, by simp [hc]⟩)

end Sys2Proof.Machine
end

