-- ==== Sys2Proof/Laws/Pipeline.lean ====
section
/-! SUPPORT. What each stage of the pipeline can do, said once, and what a tick can do. -/

namespace Sys2Proof.Machine

/-! ### The L1I (R48 to R53) -/

theorem lineAt_set {lines : List (Option CacheLine)} {i : Nat} {l : Option CacheLine} (hi : i < lines.length) (j : Nat) :
    lineAt (lines.set i l) j = if j = i then l else lineAt lines j := by
  unfold lineAt
  rw [List.getElem?_set]
  by_cases h : i = j
  · subst h; simp [hi]
  · simp [h, Ne.symm h]

theorem lineAt_replicate (n i : Nat) : lineAt (List.replicate n none) i = none := by
  simp only [lineAt, List.getElem?_replicate]
  split <;> rfl

/-- Every address has a line index below NUM_LINES. -/
theorem lineIndex_lt {p : Params} (hp : p.Valid) (a : Word) : lineIndex p a < p.numLines :=
  Nat.mod_lt _ hp.2.2.2.2.2.1

/-- `lbase(a)` as a number. -/
theorem lineBase_toNat (p : Params) (a : Word) : (lineBase p a).toNat = a.toNat - a.toNat % p.lineBytes := by
  have := a.isLt
  simp only [lineBase, BitVec.toNat_ofNat]
  exact Nat.mod_eq_of_lt (by omega)

/-- The address of a fetch lies in its line. -/
theorem lineBase_add_offset (p : Params) (a : Word) : (lineBase p a).toNat + a.toNat % p.lineBytes = a.toNat := by
  rw [lineBase_toNat]; have := Nat.mod_le a.toNat p.lineBytes; omega

/-- The line base is a multiple of LINE_BYTES. -/
theorem lineBase_mod (p : Params) (a : Word) : (lineBase p a).toNat % p.lineBytes = 0 := by
  rw [lineBase_toNat]; exact Nat.sub_mod_eq_zero_of_mod_eq (by rw [Nat.mod_mod])

/-- The line base has the index of the address. -/
theorem lineIndex_lineBase (p : Params) (a : Word) : lineIndex p (lineBase p a) = lineIndex p a := by
  unfold lineIndex
  congr 1
  by_cases h : p.lineBytes = 0
  · simp [h]
  · have hpos : 0 < p.lineBytes := Nat.pos_of_ne_zero h
    have h1 := lineBase_add_offset p a
    have h2 := Nat.div_add_mod a.toNat p.lineBytes
    have h3 := Nat.div_add_mod (lineBase p a).toNat p.lineBytes
    rw [lineBase_mod] at h3
    exact Nat.eq_of_mul_eq_mul_left hpos (by omega)

/-- A fill stays inside memory (R52). -/
theorem lineBase_bound {p : Params} (hp : p.Valid) {a : Word} (h : a.toNat < p.memSize) :
    (lineBase p a).toNat + p.lineBytes ≤ p.memSize := by
  have h1 := lineBase_mod p a
  have h2 : (lineBase p a).toNat ≤ a.toNat := by have := lineBase_add_offset p a; omega
  obtain ⟨q, hq⟩ := Nat.dvd_of_mod_eq_zero h1
  obtain ⟨m, hm⟩ := Nat.dvd_of_mod_eq_zero hp.2.2.1
  have hlt : q < m := by
    have : p.lineBytes * q < p.lineBytes * m := by omega
    exact Nat.lt_of_mul_lt_mul_left this
  have : p.lineBytes * (q + 1) ≤ p.lineBytes * m := Nat.mul_le_mul_left _ hlt
  rw [Nat.mul_add, Nat.mul_one] at this
  omega

/-- After a fill, the line at the filled index is the fresh block; every other line is as before (R50). -/
theorem lineAt_fill {p : Params} {mem : Memory} {lines : List (Option CacheLine)} {a : Word}
    (h : lineIndex p a < lines.length) (i : Nat) :
    lineAt (fill p mem lines a) i =
      if i = lineIndex p a then
        some { base := lineBase p a, data := Memory.readBlock mem (lineBase p a).toNat p.lineBytes }
      else lineAt lines i :=
  lineAt_set h i

/-- A lookup that hits found the address's own line. -/
theorem lookup_eq_some {p : Params} {lines : List (Option CacheLine)} {a w : Word} :
    lookup p lines a = some w ↔
      ∃ line, lineAt lines (lineIndex p a) = some line ∧ line.base = lineBase p a ∧ w = lineWord p line a := by
  unfold lookup
  split
  · rename_i line hl
    split
    · rename_i hb
      simp [hl, hb, eq_comm]
    · rename_i hb
      simp [hl, hb]
  · rename_i hl
    simp [hl]

/-! ### Fetch (R153) -/

/-- What Fetch can do in one tick: wait, deliver a word, idle at the halt address, make a token, or miss. -/
inductive FetchCase (s : State) : FetchOut → Prop where
  /-- A miss wait goes on. -/
  | wait (h : 1 < s.fwait) : FetchCase s { fd := .empty, state := { s with fwait := s.fwait - 1 } }
  /-- A miss wait ends: the word is delivered. -/
  | arrive (h : s.fwait = 1) : FetchCase s
      { fd := .fetched s.fpc (deliveredWord s.cfg s.l1i s.fpc) (nextPc s.fpc),
        state := { s with fwait := 0, fpc := nextPc s.fpc } }
  /-- Fetch idles at the halt address. -/
  | idle (h : s.fwait = 0) (hs : s.cfg.stop = .haltAt s.fpc) : FetchCase s { fd := .empty, state := s }
  /-- A fault token. -/
  | token (err : FatalError) (h : s.fwait = 0) (hs : s.cfg.stop ≠ .haltAt s.fpc)
      (he : (¬ wordAligned s.fpc ∧ err = .misalignedAccess s.fpc s.fpc 4) ∨
        (wordAligned s.fpc ∧ s.cfg.memSize < s.fpc.toNat + 4 ∧ err = .memoryOutOfBounds s.fpc s.fpc 4)) :
      FetchCase s { fd := .fault s.fpc err, state := { s with fpc := nextPc s.fpc } }
  /-- A hit. -/
  | hit (word : Word) (h : s.fwait = 0) (hs : s.cfg.stop ≠ .haltAt s.fpc) (ha : wordAligned s.fpc)
      (hb : s.fpc.toNat + 4 ≤ s.cfg.memSize) (hl : lookup s.cfg s.l1i s.fpc = some word) : FetchCase s
      { fd := .fetched s.fpc word (nextPc s.fpc),
        state := { s with l1iHits := s.l1iHits + 1, fpc := nextPc s.fpc } }
  /-- A miss. -/
  | miss (h : s.fwait = 0) (hs : s.cfg.stop ≠ .haltAt s.fpc) (ha : wordAligned s.fpc)
      (hb : s.fpc.toNat + 4 ≤ s.cfg.memSize) (hl : lookup s.cfg s.l1i s.fpc = none) : FetchCase s
      { fd := .empty,
        state := { s with
          l1iMisses := s.l1iMisses + 1
          l1i := fill s.cfg s.mem s.l1i s.fpc
          fwait := s.cfg.missPenalty } }

theorem fetchStage_cases (s : State) : FetchCase s (fetchStage s) := by
  unfold fetchStage
  split
  · rename_i hw
    unfold fetchWaiting
    by_cases h1 : s.fwait = 1
    · simpa [h1, deliver, predictedNext] using FetchCase.arrive h1
    · have : s.fwait - 1 ≠ 0 := by omega
      simpa [this] using FetchCase.wait (s := s) (by omega)
  · rename_i hw
    have hw0 : s.fwait = 0 := by omega
    split
    · rename_i hs; exact .idle hw0 hs
    · rename_i hs
      split
      · rename_i ha; exact .token _ hw0 hs (.inl ⟨ha, rfl⟩)
      · rename_i ha
        have ha : wordAligned s.fpc := by simpa using ha
        split
        · rename_i hb; exact .token _ hw0 hs (.inr ⟨ha, hb, rfl⟩)
        · rename_i hb
          unfold fetchLookup
          split
          · rename_i word hl
            simpa [deliver, predictedNext] using FetchCase.hit word hw0 hs ha (by omega) hl
          · rename_i hl
            exact .miss hw0 hs ha (by omega) hl

/-- Fetch leaves everything but the Fetch unit and its counters alone. -/
theorem fetchStage_frame (s : State) :
    ∃ fpc l1i fwait hits misses, (fetchStage s).state =
      { s with fpc := fpc, l1i := l1i, fwait := fwait, l1iHits := hits, l1iMisses := misses } := by
  have h := fetchStage_cases s
  generalize fetchStage s = f at h
  cases h <;> exact ⟨_, _, _, _, _, rfl⟩

/-! ### Decode (R156, R159) -/

/-- What Decode can do in one tick. -/
inductive DecodeCase (s : State) (forward : Option (RegIdx × Word)) : DecodeOut → Prop where
  | bubble (h : s.fd = .empty) : DecodeCase s forward (.pass .empty)
  | token (pc : Word) (err : FatalError) (h : s.fd = .fault pc err) : DecodeCase s forward (.pass (.fault pc err))
  | unknown (pc word predNext : Word) (h : s.fd = .fetched pc word predNext)
      (hd : decode word = .error (.unknownInstruction word)) :
      DecodeCase s forward (.pass (.fault pc (.unknownInstruction pc word)))
  | stall (pc word predNext : Word) (d : Instr) (h : s.fd = .fetched pc word predNext) (hd : decode word = .ok d)
      (hs : loadUse s.de d = true) : DecodeCase s forward .stall
  | decoded (pc word predNext : Word) (d : Instr) (h : s.fd = .fetched pc word predNext) (hd : decode word = .ok d)
      (hs : loadUse s.de d = false) : DecodeCase s forward
        (.pass (.decoded pc d (readOperand s forward (rs1Of d)) (readOperand s forward (rs2Of d)) predNext))

/-- The decoder's only failure on a word is UnknownInstruction of that word (R71). -/
theorem decode_error {w : Word} {e : DecodeError} (h : decode w = .error e) : e = .unknownInstruction w := by
  unfold decode at h
  simp only at h
  repeat' split at h
  all_goals first
    | exact (Except.error.inj h).symm
    | cases h

theorem decodeStage_cases (s : State) (forward : Option (RegIdx × Word)) :
    DecodeCase s forward (decodeStage s forward) := by
  unfold decodeStage
  split
  · rename_i h; exact .bubble h
  · rename_i pc err h; exact .token pc err h
  · rename_i pc word predNext h
    split
    · rename_i e hd
      exact .unknown pc word predNext h (by rw [hd, decode_error hd])
    · rename_i d hd
      split
      · rename_i hs; exact .stall pc word predNext d h hd hs
      · rename_i hs; exact .decoded pc word predNext d h hd (by simpa using hs)

/-- The load-use condition holds exactly when DE holds a load that writes a source of the instruction (R159). -/
theorem loadUse_eq_true {de : DeLatch} {d : Instr} :
    loadUse de d = true ↔ ∃ pc ins a b predNext rd, de = .decoded pc ins a b predNext ∧ isLoad ins = true ∧
      rdOf ins = some rd ∧ rd ≠ 0#5 ∧ rd ∈ srcsOf d := by
  cases de with
  | empty => simp [loadUse]
  | fault pc err => simp [loadUse]
  | decoded pc ins a b predNext =>
    cases h : rdOf ins with
    | none => simp [loadUse, h]
    | some rd =>
      simp only [loadUse, h, decide_eq_true_eq]
      constructor
      · rintro ⟨h1, h2, h3⟩
        exact ⟨pc, ins, a, b, predNext, rd, rfl, h1, h, h2, h3⟩
      · rintro ⟨_, _, _, _, _, rd', he, h1, h', h2, h3⟩
        cases he
        rw [h] at h'
        cases h'
        exact ⟨h1, h2, h3⟩

/-! ### Execute (R161) -/

/-- What Execute can do in one tick when it raises nothing. -/
inductive ExecuteCase (de : DeLatch) : ExecuteOut → Prop where
  | bubble (h : de = .empty) : ExecuteCase de { ew := .empty, forward := none, redirect := none }
  | executed (pc : Word) (ins : Instr) (a b predNext : Word) (c : Computed) (h : de = .decoded pc ins a b predNext)
      (hx : (splitOf ins).execute pc a b = .ok c) : ExecuteCase de
      { ew := .executed pc ins c.result c.addr c.data
        forward := forwarded ins c.result
        redirect := if mispredicts predNext c.transfer then some (c.transfer.actualNext pc) else none }

theorem executeStage_cases {de : DeLatch} {x : ExecuteOut} (h : executeStage de = .ok x) : ExecuteCase de x := by
  unfold executeStage at h
  split at h
  · cases h; exact .bubble rfl
  · cases h
  · rename_i pc ins a b predNext
    split at h
    · cases h
    · rename_i c hx
      cases h
      exact .executed pc ins a b predNext c rfl hx

/-- Execute raises a token's error, or a misaligned target of the instruction in DE. -/
theorem executeStage_error {de : DeLatch} {e : FatalError} (h : executeStage de = .error e) :
    (∃ pc, de = .fault pc e) ∨
    (∃ pc ins a b predNext, de = .decoded pc ins a b predNext ∧ (splitOf ins).execute pc a b = .error e) := by
  unfold executeStage at h
  split at h
  · cases h
  · cases h; exact .inl ⟨_, rfl⟩
  · split at h
    · rename_i pc ins a b predNext _ e' hx
      cases h
      exact .inr ⟨pc, ins, a, b, predNext, rfl, hx⟩
    · cases h

/-! ### Write-back (R163) -/

/-- What Write-back can do in one tick when it raises nothing. -/
theorem writeBack_ok {s t : State} (h : writeBack s = .ok t) :
    (s.ew = .empty ∧ t = s) ∨
    (∃ pc ins result addr data t', s.ew = .executed pc ins result addr data ∧
      (splitOf ins).commit pc result addr data s = .ok t' ∧ t = { t' with retired := t'.retired + 1 }) := by
  unfold writeBack at h
  split at h
  · rename_i he; cases h; exact .inl ⟨he, rfl⟩
  · rename_i pc ins result addr data he
    split at h
    · cases h
    · rename_i t' ht
      cases h
      exact .inr ⟨pc, ins, result, addr, data, t', he, ht, rfl⟩

/-- Write-back raises the error of the commit of the instruction in EW. -/
theorem writeBack_error {s : State} {e : FatalError} (h : writeBack s = .error e) :
    ∃ pc ins result addr data, s.ew = .executed pc ins result addr data ∧
      (splitOf ins).commit pc result addr data s = .error e := by
  unfold writeBack at h
  split at h
  · cases h
  · rename_i pc ins result addr data he
    split at h
    · rename_i e' hx
      cases h
      exact ⟨pc, ins, result, addr, data, he, hx⟩
    · cases h

/-- Write-back changes registers, memory and the retirement count alone, and counts one retirement for an instruction. -/
theorem writeBack_frame {s t : State} (h : writeBack s = .ok t) :
    t = { s with regs := t.regs, mem := t.mem, retired := t.retired } ∧
    t.retired = s.retired + (if s.ew = .empty then 0 else 1) := by
  rcases writeBack_ok h with ⟨he, rfl⟩ | ⟨pc, ins, result, addr, data, t', he, hc, rfl⟩
  · exact ⟨rfl, by simp [he]⟩
  · rcases commit_ok hc with ⟨rd, v, _, rfl, _⟩ | ⟨_, rfl⟩ | ⟨_, n, _, rfl⟩
    · obtain ⟨regs, hr⟩ := writeReg_eq s rd v
      simp [hr, he]
    · simp [he]
    · simp [he]

/-- Write-back of an instruction in EW is its commit, and one more retirement. -/
theorem writeBack_executed {s : State} {pc result addr data : Word} {i : Instr}
    (he : s.ew = .executed pc i result addr data) :
    writeBack s = match (splitOf i).commit pc result addr data s with
      | .error e => .error e
      | .ok t => .ok { t with retired := t.retired + 1 } := by
  unfold writeBack
  split
  · rename_i h; rw [he] at h; cases h
  · rename_i h; rw [he] at h; cases h; rfl

/-- What the Write-back of a tick leaves as it was before the tick, field by field. -/
structure AfterWriteBack (s t : State) : Prop where
  cycles : t.cycles = s.cycles + 1
  fpc : t.fpc = s.fpc
  fwait : t.fwait = s.fwait
  l1i : t.l1i = s.l1i
  fd : t.fd = s.fd
  de : t.de = s.de
  ew : t.ew = s.ew
  l1iHits : t.l1iHits = s.l1iHits
  l1iMisses : t.l1iMisses = s.l1iMisses
  flushes : t.flushes = s.flushes
  cfg : t.cfg = s.cfg
  status : t.status = s.status
  retired : t.retired = s.retired + (if s.ew = .empty then 0 else 1)

theorem afterWriteBack {s t : State} (h : writeBack { s with cycles := s.cycles + 1 } = .ok t) : AfterWriteBack s t := by
  obtain ⟨hf, hr⟩ := writeBack_frame h
  rw [hf] at *
  exact ⟨rfl, rfl, rfl, rfl, rfl, rfl, rfl, rfl, rfl, rfl, rfl, rfl, hr⟩

/-! ### Decode, Fetch and the latch update together (R151 steps 4 to 7) -/

/-- A load asks for no transfer, so it never mispredicts (R159). -/
theorem execute_load_transfer {i : Instr} {pc a b : Word} {c : Computed} (hl : isLoad i = true)
    (h : (splitOf i).execute pc a b = .ok c) : c.transfer = .none := by
  cases i <;> first
    | exact absurd hl Bool.false_ne_true
    | (cases h; rfl)

/-- A stall and a flush never coincide (R159). -/
theorem stall_redirect {s : State} {x : ExecuteOut} (hx : executeStage s.de = .ok x)
    (hd : decodeStage s x.forward = .stall) : x.redirect = none := by
  have hc := decodeStage_cases s x.forward
  rw [hd] at hc
  cases hc with
  | stall pc word predNext d h hdec hs =>
    obtain ⟨pc', ins, a, b, pn, rd, hde, hl, _⟩ := loadUse_eq_true.1 hs
    cases executeStage_cases hx with
    | bubble h => rfl
    | executed pc' ins' a' b' pn' c h hc =>
      rw [hde] at h
      cases h
      simp only [execute_load_transfer hl hc, mispredicts]
      rfl

/-- What the rest of a tick can do once Execute has passed: stall, redirect, or move every latch on. -/
inductive AdvanceCase (s : State) (x : ExecuteOut) : State → Prop where
  /-- The load-use stall: FD is held, DE gets a bubble, Fetch does nothing. -/
  | stall (hd : decodeStage s x.forward = .stall) (hr : x.redirect = none) :
      AdvanceCase s x { s with ew := x.ew, de := .empty }
  /-- A flush and redirect, after Fetch's access. -/
  | redirect (target : Word) (hr : x.redirect = some target) :
      AdvanceCase s x (redirectTo (fetchStage s).state x.ew target)
  /-- Every latch moves on. -/
  | pass (de : DeLatch) (hd : decodeStage s x.forward = .pass de) (hr : x.redirect = none) :
      AdvanceCase s x { (fetchStage s).state with ew := x.ew, de := de, fd := (fetchStage s).fd }

theorem advance_cases {s : State} {x : ExecuteOut} (hx : executeStage s.de = .ok x) : AdvanceCase s x (advance s x) := by
  unfold advance
  split
  · rename_i hd
    have hnone := stall_redirect hx hd
    rw [hnone]
    exact .stall hd hnone
  · rename_i de hd
    simp only
    cases hr : x.redirect with
    | none => exact .pass de hd hr
    | some target => exact .redirect target hr

/-- The rest of a tick after Write-back leaves registers, memory, the counts of ticks and retirements, the parameters and the
status alone, and puts Execute's output into EW. -/
theorem advance_frame {s : State} {x : ExecuteOut} (hx : executeStage s.de = .ok x) :
    (advance s x).regs = s.regs ∧ (advance s x).mem = s.mem ∧ (advance s x).retired = s.retired ∧
    (advance s x).cycles = s.cycles ∧ (advance s x).cfg = s.cfg ∧ (advance s x).status = s.status ∧
    (advance s x).ew = x.ew := by
  obtain ⟨_, _, _, _, _, hf⟩ := fetchStage_frame s
  have ha := advance_cases hx
  generalize advance s x = u at ha
  cases ha <;> simp [hf]

/-! ### The tick (R151) -/

/-- What a tick of a running core can do: raise at Write-back, stop at the N-th retirement, raise at Execute, or advance. -/
inductive TickCase (s : State) : State → Prop where
  | raiseWriteBack (e : FatalError) (h : writeBack { s with cycles := s.cycles + 1 } = .error e) :
      TickCase s (raise e { s with cycles := s.cycles + 1 })
  | stop (t : State) (h : writeBack { s with cycles := s.cycles + 1 } = .ok t)
      (hs : retireCountReached { s with cycles := s.cycles + 1 } t = true) :
      TickCase s { t with status := .stopped }
  | raiseExecute (t : State) (e : FatalError) (h : writeBack { s with cycles := s.cycles + 1 } = .ok t)
      (hs : retireCountReached { s with cycles := s.cycles + 1 } t = false) (hx : executeStage t.de = .error e) :
      TickCase s (raise e t)
  | advance (t : State) (x : ExecuteOut) (h : writeBack { s with cycles := s.cycles + 1 } = .ok t)
      (hs : retireCountReached { s with cycles := s.cycles + 1 } t = false) (hx : executeStage t.de = .ok x) :
      TickCase s (checkHaltAt (Sys2Proof.Machine.advance t x))

theorem tick_cases {s : State} (hr : s.status = .running) : TickCase s (tick s) := by
  have : tick s = tickRunning s := by simp [tick, hr]
  rw [this]
  unfold tickRunning
  simp only
  split
  · rename_i e h; exact .raiseWriteBack e h
  · rename_i t h
    split
    · rename_i hs; exact .stop t h hs
    · rename_i hs
      unfold tickAfterWriteBack
      split
      · rename_i e hx; exact .raiseExecute t e h (by simpa using hs) hx
      · rename_i x hx; exact .advance t x h (by simpa using hs) hx

/-- A core whose run has ended takes no tick (R35, R143). -/
theorem tick_of_not_running {s : State} (h : s.status ≠ .running) : tick s = s := by
  unfold tick; split <;> simp_all

/-- The termination check changes the status alone, and only to `stopped`. -/
theorem checkHaltAt_cases (s : State) :
    (checkHaltAt s = s ∧ ¬ (s.cfg.stop = .haltAt s.fpc ∧ s.drained = true)) ∨
    (checkHaltAt s = { s with status := .stopped } ∧ s.cfg.stop = .haltAt s.fpc ∧ s.drained = true) := by
  unfold checkHaltAt
  split
  · rename_i h; exact .inr ⟨rfl, h⟩
  · rename_i h; exact .inl ⟨rfl, h⟩

/-- The termination check is a change of status, if that. -/
theorem checkHaltAt_frame (s : State) : checkHaltAt s = { s with status := (checkHaltAt s).status } := by
  rcases checkHaltAt_cases s with ⟨h, _⟩ | ⟨h, _⟩ <;> rw [h]

/-- With something in flight or a miss wait in progress the termination check changes nothing. -/
theorem checkHaltAt_of_busy {s : State} (h : ¬ (s.fd = .empty ∧ s.de = .empty ∧ s.ew = .empty ∧ s.fwait = 0)) :
    checkHaltAt s = s := by
  unfold checkHaltAt
  rw [if_neg]
  rintro ⟨_, hd⟩
  exact h (of_decide_eq_true hd)

/-- The tick that raises nothing and reaches no N-th retirement. -/
theorem tick_eq_advance {s t : State} {x : ExecuteOut} (hr : s.status = .running)
    (hw : writeBack { s with cycles := s.cycles + 1 } = .ok t)
    (hs : retireCountReached { s with cycles := s.cycles + 1 } t = false) (hx : executeStage s.de = .ok x) :
    tick s = checkHaltAt (advance t x) := by
  have ht : tick s = tickRunning s := by simp [tick, hr]
  have : t.de = s.de := (afterWriteBack hw).de
  rw [ht]
  unfold tickRunning
  simp only [hw, hs]
  simp [tickAfterWriteBack, this, hx]

end Sys2Proof.Machine
end

