-- ==== Sys2Proof/Laws/Invariant.lean ====
section
/-! SUPPORT. What each part of a tick keeps of the invariant of the core, and that a tick keeps all of it. -/

namespace Sys2Proof.Machine

/-- The word after an aligned address is aligned. -/
theorem nextPc_aligned {a : Word} (h : wordAligned a) : wordAligned (nextPc a) := by
  simp only [wordAligned, nextPc, BitVec.toNat_add, BitVec.toNat_ofNat] at h ⊢; omega

/-- The cycle counter is not part of the form. -/
theorem structure_cycles {s : State} (h : StructureInv s) (n : Nat) : StructureInv { s with cycles := n } :=
  ⟨h.params, h.slot0, h.memForm, h.memBound, h.lineCount, h.lines, h.waitBound, h.waiting, h.aligned, h.fdOrder,
    h.deOrder, h.fdPrediction, h.dePrediction, h.fdAddress, h.deAddress, h.ewAddress, h.fdToken, h.deToken⟩

/-- The run status is not part of the form. -/
theorem structure_status {s : State} (h : StructureInv s) (st : RunStatus) : StructureInv { s with status := st } :=
  ⟨h.params, h.slot0, h.memForm, h.memBound, h.lineCount, h.lines, h.waitBound, h.waiting, h.aligned, h.fdOrder,
    h.deOrder, h.fdPrediction, h.dePrediction, h.fdAddress, h.deAddress, h.ewAddress, h.fdToken, h.deToken⟩

/-- New registers, memory and retirement count of the right form keep the form. -/
theorem structure_results {s : State} (h : StructureInv s) {regs : Vector Word 32} {mem : Memory} {retired : Nat}
    (h0 : regs[0] = 0#32) (hm : Memory.wf mem) (hb : ∀ c ∈ mem, c.1 < s.cfg.memSize) :
    StructureInv { s with regs := regs, mem := mem, retired := retired } :=
  ⟨h.params, h0, hm, hb, h.lineCount, h.lines, h.waitBound, h.waiting, h.aligned, h.fdOrder,
    h.deOrder, h.fdPrediction, h.dePrediction, h.fdAddress, h.deAddress, h.ewAddress, h.fdToken, h.deToken⟩

/-- Write-back keeps the form. -/
theorem structure_writeBack {s t : State} (h : StructureInv s) (hw : writeBack s = .ok t) : StructureInv t := by
  rcases writeBack_ok hw with ⟨_, rfl⟩ | ⟨pc, ins, result, addr, data, t', he, hc, rfl⟩
  · exact h
  · rcases commit_ok hc with ⟨rd, v, _, rfl, _⟩ | ⟨_, rfl⟩ | ⟨_, n, hn, rfl⟩
    · obtain ⟨regs, hr⟩ := writeReg_eq s rd v
      have h0 := writeReg_slot0 s rd v
      rw [hr] at h0 ⊢
      exact structure_results h (by rw [← h.slot0]; exact h0) h.memForm h.memBound
    · exact structure_results h h.slot0 h.memForm h.memBound
    · refine structure_results h h.slot0 (Memory.wf_writeBytes h.memForm _ _ _) fun c hcm => ?_
      rcases Memory.mem_writeBytes hcm with h1 | h1
      · omega
      · exact h.memBound c h1

/-- What FD offers, or else the fetch PC, is the old fetch PC -/
theorem fetch_pc (s : State) : (fetchStage s).fd.pc?.getD (fetchStage s).state.fpc = s.fpc := by
  have h := fetchStage_cases s
  generalize fetchStage s = f at h
  cases h <;> rfl

theorem decode_pc {s : State} {fw : Option (RegIdx × Word)} {de : DeLatch} (h : decodeStage s fw = .pass de) :
    de.pc? = s.fd.pc? := by
  have hc := decodeStage_cases s fw
  rw [h] at hc
  cases hc <;> simp_all [DeLatch.pc?, FdLatch.pc?]

/-- A tick that moves every latch on keeps the form. -/
theorem structure_pass {s : State} (h : StructureInv s) {fw : Option (RegIdx × Word)} {ew : EwLatch} {de : DeLatch}
    (hd : decodeStage s fw = .pass de)
    (hew : ∀ pc ins result addr data, ew = .executed pc ins result addr data → FetchAddressOk s.cfg pc) :
    StructureInv { (fetchStage s).state with ew := ew, de := de, fd := (fetchStage s).fd } := by
  have hpc := fetch_pc s
  have hdpc := decode_pc hd
  have hdc := decodeStage_cases s fw
  rw [hd] at hdc
  have hf := fetchStage_cases s
  generalize fetchStage s = f at hf hpc
  have hidx : lineIndex s.cfg s.fpc < s.l1i.length := by rw [h.lineCount]; exact lineIndex_lt h.params _
  have hde : ∀ pc, de.pc? = some pc → s.fpc = nextPc pc := fun pc hp => h.fdOrder pc (by rw [← hdpc, hp])
  have hdePred : ∀ pc ins a b predNext, de = .decoded pc ins a b predNext → predNext = nextPc pc := by
    intro pc ins a b pn hde
    subst hde
    cases hdc with
    | decoded pc word predNext d h' _ _ => exact h.fdPrediction _ _ _ h'
  have hdeTok : ∀ pc err, de = .fault pc err → DecodeTokenOk s.cfg pc err := by
    intro pc err hde
    subst hde
    cases hdc with
    | token pc err h' => exact .fetch _ (h.fdToken _ _ h')
    | unknown pc word pn h' hdw => exact .unknown _ hdw (h.fdAddress _ _ _ h')
  have hdeAddr : ∀ pc ins a b pn, de = .decoded pc ins a b pn → FetchAddressOk s.cfg pc := by
    intro pc ins a b pn hde
    subst hde
    cases hdc with
    | decoded pc word predNext d h' _ _ => exact h.fdAddress _ _ _ h'
  have hdeOrder : ∀ pc, de.pc? = some pc → f.fd.pc?.getD f.state.fpc = nextPc pc := by
    intro pc hp; rw [hpc]; exact hde pc hp
  cases hf with
  | wait hw =>
    exact ⟨h.params, h.slot0, h.memForm, h.memBound, h.lineCount, h.lines, by have := h.waitBound; simp; omega,
      fun _ => ⟨rfl, (h.waiting (by omega)).2⟩, h.aligned, fun pc hp => (by cases hp), hdeOrder,
      fun _ _ _ hp => (by cases hp), hdePred, fun _ _ _ hp => (by cases hp), hdeAddr, hew, fun _ _ hp => (by cases hp), hdeTok⟩
  | arrive hw =>
    exact ⟨h.params, h.slot0, h.memForm, h.memBound, h.lineCount, h.lines, by simp,
      fun h0 => absurd h0 (by simp), fun ha => nextPc_aligned (h.aligned ha), fun pc hp => (by cases hp; rfl), hdeOrder,
      fun _ _ _ hp => (by cases hp; rfl), hdePred, fun _ _ _ hp => (by cases hp; exact (h.waiting (by omega)).2.1), hdeAddr, hew, fun _ _ hp => (by cases hp), hdeTok⟩
  | idle hw hs =>
    exact ⟨h.params, h.slot0, h.memForm, h.memBound, h.lineCount, h.lines, h.waitBound,
      fun h0 => absurd h0 (by simp [hw]), h.aligned, fun pc hp => (by cases hp), hdeOrder,
      fun _ _ _ hp => (by cases hp), hdePred, fun _ _ _ hp => (by cases hp), hdeAddr, hew, fun _ _ hp => (by cases hp), hdeTok⟩
  | token err hw hs he =>
    refine ⟨h.params, h.slot0, h.memForm, h.memBound, h.lineCount, h.lines, h.waitBound,
      fun h0 => absurd h0 (by simp [hw]), fun ha => nextPc_aligned (h.aligned ha), fun pc hp => (by cases hp; rfl),
      hdeOrder, fun _ _ _ hp => (by cases hp), hdePred, fun _ _ _ hp => (by cases hp), hdeAddr, hew, fun pc err' hp => ?_, hdeTok⟩
    cases hp
    rcases he with ⟨h1, rfl⟩ | ⟨h1, h2, rfl⟩
    · exact .misaligned h1 hs
    · exact .outOfBounds h1 h2 hs
  | hit word hw hs ha hb hl =>
    exact ⟨h.params, h.slot0, h.memForm, h.memBound, h.lineCount, h.lines, h.waitBound,
      fun h0 => absurd h0 (by simp [hw]), fun ha => nextPc_aligned (h.aligned ha), fun pc hp => (by cases hp; rfl),
      hdeOrder, fun _ _ _ hp => (by cases hp; rfl), hdePred, fun _ _ _ hp => (by cases hp; exact ⟨ha, hb, hs⟩), hdeAddr, hew, fun _ _ hp => (by cases hp), hdeTok⟩
  | miss hw hs ha hb hl =>
    refine ⟨h.params, h.slot0, h.memForm, h.memBound, (by simp [fill, h.lineCount]), ?_, Nat.le_refl _,
      fun _ => ⟨rfl, ⟨ha, hb, hs⟩, ?_⟩, h.aligned, fun pc hp => (by cases hp), hdeOrder,
      fun _ _ _ hp => (by cases hp), hdePred, fun _ _ _ hp => (by cases hp), hdeAddr, hew, fun _ _ hp => (by cases hp), hdeTok⟩
    · intro i line hl
      simp only [lineAt_fill hidx] at hl
      split at hl
      · rename_i hi
        cases hl
        exact ⟨by rw [lineIndex_lineBase, hi], lineBase_mod _ _, lineBase_bound h.params (by omega),
          by simp [Memory.readBlock]⟩
      · exact h.lines i line hl
    · simp only [lineAt_fill hidx, if_true]
      exact ⟨_, rfl, rfl⟩

/-- A load-use stall keeps the form. -/
theorem structure_stall {s : State} (h : StructureInv s) {ew : EwLatch}
    (hew : ∀ pc ins result addr data, ew = .executed pc ins result addr data → FetchAddressOk s.cfg pc) :
    StructureInv { s with ew := ew, de := .empty } :=
  ⟨h.params, h.slot0, h.memForm, h.memBound, h.lineCount, h.lines, h.waitBound, h.waiting, h.aligned, h.fdOrder,
    fun _ hp => (by cases hp), h.fdPrediction, fun _ _ _ _ _ hp => (by cases hp),
    h.fdAddress, fun _ _ _ _ _ hp => (by cases hp), hew, h.fdToken, fun _ _ hp => (by cases hp)⟩

/-- A flush and redirect to an aligned target keeps the form. -/
theorem structure_redirect {s : State} (h : StructureInv s) {ew : EwLatch} {target : Word} (ht : wordAligned target)
    (hew : ∀ pc ins result addr data, ew = .executed pc ins result addr data → FetchAddressOk s.cfg pc) :
    StructureInv (redirectTo (fetchStage s).state ew target) := by
  have hf := fetchStage_cases s
  generalize fetchStage s = f at hf
  have hidx : lineIndex s.cfg s.fpc < s.l1i.length := by rw [h.lineCount]; exact lineIndex_lt h.params _
  have key : ∀ t : State, t.cfg = s.cfg → t.regs = s.regs → t.mem = s.mem →
      t.l1i.length = s.l1i.length → (∀ i line, lineAt t.l1i i = some line → LineOk s.cfg i line) →
      StructureInv (redirectTo t ew target) := by
    intro t hc hr hm hlen hl
    exact ⟨by simpa [hc] using h.params, by simpa [hr] using h.slot0, by simpa [hm] using h.memForm,
      by simpa [hm, hc] using h.memBound, by simp [hlen, hc, h.lineCount], by simpa [hc] using hl, by simp,
      fun h0 => absurd h0 (by simp), fun _ => ht, fun _ hp => (by cases hp),
      fun _ hp => (by cases hp), fun _ _ _ hp => (by cases hp), fun _ _ _ _ _ hp => (by cases hp),
      fun _ _ _ hp => (by cases hp), fun _ _ _ _ _ hp => (by cases hp), by simpa [hc] using hew,
      fun _ _ hp => (by cases hp), fun _ _ hp => (by cases hp)⟩
  cases hf with
  | miss hw hs ha hb hl =>
    refine key _ rfl rfl rfl (by simp [fill]) fun i line hl => ?_
    simp only [lineAt_fill hidx] at hl
    split at hl
    · rename_i hi
      cases hl
      exact ⟨by rw [lineIndex_lineBase, hi], lineBase_mod _ _, lineBase_bound h.params (by omega),
        by simp [Memory.readBlock]⟩
    · exact h.lines i line hl
  | _ => exact key _ rfl rfl rfl rfl h.lines

/-- A tick keeps the form. -/
theorem structure_tick {s : State} (h : StructureInv s) (hr : s.status = .running) : StructureInv (tick s) := by
  have h1 := structure_cycles h (s.cycles + 1)
  have hc := tick_cases hr
  generalize tick s = s' at hc
  cases hc with
  | raiseWriteBack e hw => exact structure_status h1 _
  | stop t hw hs => exact structure_status (structure_writeBack h1 hw) _
  | raiseExecute t e hw hs hx => exact structure_status (structure_writeBack h1 hw) _
  | advance t x hw hs hx =>
    have ht := structure_writeBack h1 hw
    have hew : ∀ pc ins result addr data, x.ew = .executed pc ins result addr data → FetchAddressOk t.cfg pc := by
      intro pc ins result addr data he
      cases executeStage_cases hx with
      | bubble => cases he
      | executed pc ins a b pn c hde hc => cases he; exact ht.deAddress _ _ _ _ _ hde
    have hadv : StructureInv (advance t x) := by
      have ha := advance_cases hx
      generalize advance t x = u at ha
      cases ha with
      | stall hd hr => exact structure_stall ht hew
      | pass de hd hr => exact structure_pass ht hd hew
      | redirect target hr =>
        refine structure_redirect ht ?_ hew
        cases executeStage_cases hx with
        | bubble => cases hr
        | executed pc ins a b pn c hde hc =>
          simp only at hr
          split at hr
          · rename_i hm
            cases hr
            exact mispredict_target_aligned hc hm
          · cases hr
    rcases checkHaltAt_cases (advance t x) with ⟨he, _⟩ | ⟨he, _⟩
    · rw [he]; exact hadv
    · rw [he]; exact structure_status hadv _

/-- The operand read depends on the registers alone. -/
theorem readOperand_congr {s t : State} (h : s.regs = t.regs) (fw : Option (RegIdx × Word)) (r : Option RegIdx) :
    readOperand s fw r = readOperand t fw r := by
  unfold readOperand
  cases r with
  | none => rfl
  | some r => cases fw <;> simp [readReg_congr h]

/-- The operand read with the forwarded result of EW is the register as Write-back leaves it, unless EW holds a load of it. -/
theorem operand_after_writeBack {s t : State} {ins : Instr} (hw : writeBack s = .ok t)
    (hlock : ∀ pc' ins' result addr data rd, s.ew = .executed pc' ins' result addr data → isLoad ins' = true →
      rdOf ins' = some rd → rd ≠ 0#5 → rd ∉ srcsOf ins) {r : Option RegIdx} (hr : ∀ q, r = some q → q ∈ srcsOf ins) :
    readOperand s s.ew.forward r = t.readSource r := by
  cases r with
  | none => rfl
  | some r =>
    have hr := hr r rfl
    by_cases h0 : r = 0#5
    · subst h0; simp [readOperand, State.readSource]
    · simp only [readOperand, h0, if_false, State.readSource]
      rcases writeBack_ok hw with ⟨he, rfl⟩ | ⟨pc, ins', result, addr, data, t', he, hc, rfl⟩
      · simp [he, EwLatch.forward]
      · have hq : ∀ t'' : State, ({ t'' with retired := t''.retired + 1 } : State).readReg r = t''.readReg r := fun _ => rfl
        rw [hq]
        rcases commit_ok hc with ⟨rd, v, hrd, rfl, hv⟩ | ⟨hrd, rfl⟩ | ⟨hrd, n, hn, rfl⟩
        · rw [readReg_writeReg]
          simp only [he, EwLatch.forward, forwarded, hrd]
          by_cases hl : isLoad ins' = true
          · have hne : ¬ (r = rd ∧ rd ≠ 0#5) := fun ⟨h1, h2⟩ => hlock pc ins' result addr data rd he hl hrd h2 (h1 ▸ hr)
            simp [hl, hne]
          · have hl : isLoad ins' = false := by simpa using hl
            by_cases hz : rd = 0#5
            · simp [hl, hz]
            · simp only [hl, hz, hv hl]
              by_cases hrr : rd = r
              · simp [hrr, h0]
              · simp [hrr, Ne.symm hrr]
        · simp [he, EwLatch.forward, forwarded, hrd]
        · simp only [he, EwLatch.forward, forwarded, hrd]
          rfl

/-- Rs1 is a source (R70). -/
theorem mem_srcs1 {i : Instr} (q : RegIdx) (h : rs1Of i = some q) : q ∈ srcsOf i := by simp [srcsOf, h]

/-- Rs2 is a source (R70). -/
theorem mem_srcs2 {i : Instr} (q : RegIdx) (h : rs2Of i = some q) : q ∈ srcsOf i := by simp [srcsOf, h]

/-- What Execute forwards is what the invariant says of the instruction it hands to EW. -/
theorem executeStage_forward {de : DeLatch} {x : ExecuteOut} (h : executeStage de = .ok x) : x.forward = x.ew.forward := by
  cases executeStage_cases h <;> rfl

/-- EW after Execute holds what the registers after Write-back give -/
theorem executed_after {s t : State} {x : ExecuteOut} (hI : ExecutionInv s) (hw : writeBack s = .ok t)
    (hde : t.de = s.de) (hx : executeStage t.de = .ok x) {pc : Word} {ins : Instr} {result addr data : Word}
    (he : x.ew = .executed pc ins result addr data) :
    ∃ a b pn c, t.de = .decoded pc ins a b pn ∧
      (splitOf ins).execute pc (t.readSource (rs1Of ins)) (t.readSource (rs2Of ins)) = .ok c ∧
      result = c.result ∧ addr = c.addr ∧ data = c.data ∧
      x.redirect = if mispredicts pn c.transfer then some (c.transfer.actualNext pc) else none := by
  cases executeStage_cases hx with
  | bubble => cases he
  | executed pc ins a b pn c hd hc =>
    cases he
    have hs : s.de = .decoded pc ins a b pn := by rw [← hde]; exact hd
    obtain ⟨h1, h2⟩ := hI.operands _ _ _ _ _ hs
    have hlock := fun pc' ins' result addr data rd he hl hrd h0 => hI.interlock _ _ _ _ _ pc' ins' result addr data rd hs he hl hrd h0
    refine ⟨a, b, pn, c, hd, ?_, rfl, rfl, rfl, rfl⟩
    rw [← operand_after_writeBack hw hlock (mem_srcs1 (i := ins)), ← operand_after_writeBack hw hlock (mem_srcs2 (i := ins)), ← h1, ← h2]
    exact hc

/-- The cycle counter is not part of the order. -/
theorem execution_cycles {s : State} (h : ExecutionInv s) (n : Nat) : ExecutionInv { s with cycles := n } :=
  ⟨h.operands, h.interlock, h.executed, h.policy⟩

/-- A tick keeps the invariant. -/
theorem inv_tick {s : State} (h : CoreInv s) (hr : s.status = .running) : CoreInv (tick s) := by
  refine ⟨structure_tick h.structural hr, ?_⟩
  have h1 := structure_cycles h.structural (s.cycles + 1)
  have hI := execution_cycles (h.execution hr) (s.cycles + 1)
  have hc := tick_cases hr
  generalize tick s = s' at hc
  cases hc with
  | raiseWriteBack e hw => intro h; cases h
  | stop t hw hs => intro h; cases h
  | raiseExecute t e hw hs hx => intro h; cases h
  | advance t x hw hs hx =>
    have hS := structure_writeBack h1 hw
    obtain ⟨hfr, hret⟩ := writeBack_frame hw
    have htde : t.de = s.de := by rw [hfr]
    have hcfg : t.cfg = s.cfg := by rw [hfr]
    have hpolicy : ∀ n, t.cfg.stop = .retireCount n → t.retired < n := by
      intro n hn
      have hp := hI.policy
      have hst : s.cfg.stop = .retireCount n := by rw [← hn, hcfg]
      simp only [hst] at hp
      simp only [retireCountReached, hst] at hs
      simp only at hp hret
      split at hret <;> rename_i he
      · omega
      · have := of_decide_eq_false hs
        simp only [ne_eq, he, not_false_eq_true, true_and] at this
        omega
    rcases checkHaltAt_cases (advance t x) with ⟨hce, hstop⟩ | ⟨hce, _⟩
    swap
    · rw [hce]; intro h; cases h
    rw [hce]
    intro _
    have ha := advance_cases hx
    generalize advance t x = u at ha hstop
    have pol : u.cfg = t.cfg → u.retired = t.retired → match u.cfg.stop with
        | .haltAt h => ¬ (u.fpc = h ∧ u.drained = true)
        | .retireCount n => u.retired < n := by
      intro hc hr
      cases hst : u.cfg.stop with
      | haltAt h => rintro ⟨h1, h2⟩; exact hstop ⟨by rw [hst, h1], h2⟩
      | retireCount n => simp only [hr]; exact hpolicy n (by rw [← hc, hst])
    cases ha with
    | stall hd hrd =>
      refine ⟨fun _ _ _ _ _ hp => (by cases hp), fun _ _ _ _ _ _ _ _ _ _ _ hp => (by cases hp), ?_, pol rfl rfl⟩
      intro pc ins result addr data he
      obtain ⟨a, b, pn, c, hde, hc, e1, e2, e3, hrx⟩ := executed_after hI hw htde hx he
      refine ⟨c, hc, e1, e2, e3, ?_⟩
      have hm : mispredicts pn c.transfer = false := by
        rw [hrd] at hrx
        by_contra hne
        simp at hne
        simp [hne] at hrx
      rw [hS.dePrediction _ _ _ _ _ hde] at hm
      rw [actualNext_of_not_mispredicts hm]
      exact hS.deOrder pc (by rw [hde]; rfl)
    | redirect target hrd =>
      have hu : ∀ r, (redirectTo (fetchStage t).state x.ew target).readSource r = t.readSource r := by
        obtain ⟨_, _, _, _, _, hf⟩ := fetchStage_frame t
        exact fun r => readSource_congr (by rw [redirectTo_regs, hf]) r
      have hft : (redirectTo (fetchStage t).state x.ew target).cfg = t.cfg ∧
          (redirectTo (fetchStage t).state x.ew target).retired = t.retired := by
        obtain ⟨_, _, _, _, _, hf⟩ := fetchStage_frame t
        exact ⟨by rw [redirectTo_cfg, hf], by rw [redirectTo_retired, hf]⟩
      refine ⟨fun _ _ _ _ _ hp => (by cases hp), fun _ _ _ _ _ _ _ _ _ _ _ hp => (by cases hp), ?_, pol hft.1 hft.2⟩
      intro pc ins result addr data he
      obtain ⟨a, b, pn, c, hde, hc, e1, e2, e3, hrx⟩ := executed_after hI hw htde hx he
      refine ⟨c, by rw [hu, hu]; exact hc, e1, e2, e3, ?_⟩
      rw [hrd] at hrx
      split at hrx
      · cases hrx; rfl
      · cases hrx
    | pass de hd hrd =>
      obtain ⟨_, _, _, _, _, hf⟩ := fetchStage_frame t
      have hregs : (fetchStage t).state.regs = t.regs := by rw [hf]
      have hu : ∀ r, ({ (fetchStage t).state with ew := x.ew, de := de, fd := (fetchStage t).fd } : State).readSource r =
          t.readSource r := fun r => readSource_congr hregs r
      have hdc := decodeStage_cases t x.forward
      rw [hd] at hdc
      refine ⟨?_, ?_, ?_, pol (by rw [hf]) (by rw [hf])⟩
      · intro pc ins a b pn hp
        simp only at hp
        subst hp
        rw [← executeStage_forward hx]
        cases hdc
        exact ⟨(readOperand_congr hregs _ _).symm, (readOperand_congr hregs _ _).symm⟩
      · intro pc ins a b pn pc' ins' result addr data rd hp he hl hrdo h0
        simp only at hp he
        subst hp
        cases hdc with
        | decoded _ word _ _ h' hd' hlu =>
          intro hmem
          obtain ⟨a', b', pn', c', hde, _⟩ := executed_after hI hw htde hx he
          have := loadUse_eq_true.2 ⟨pc', ins', a', b', pn', rd, hde, hl, hrdo, h0, hmem⟩
          rw [hlu] at this
          cases this
      · intro pc ins result addr data he
        obtain ⟨a, b, pn, c, hde, hc, e1, e2, e3, hrx⟩ := executed_after hI hw htde hx he
        refine ⟨c, by rw [hu, hu]; exact hc, e1, e2, e3, ?_⟩
        have hm : mispredicts pn c.transfer = false := by
          rw [hrd] at hrx
          by_contra hne
          simp at hne
          simp [hne] at hrx
        rw [hS.dePrediction _ _ _ _ _ hde] at hm
        rw [actualNext_of_not_mispredicts hm]
        have := hS.deOrder pc (by rw [hde]; rfl)
        rw [← this]
        simp only [State.pcAfterEw, State.pcAfterDe, decode_pc hd, fetch_pc]

end Sys2Proof.Machine
end

