-- ==== Sys2Proof/Laws/PerInstr.lean ====
section
/-! SUPPORT. The round trip of each instruction (R76): decoding the encoding of a well-formed instruction gives it back. -/

namespace Sys2Proof.Laws.RoundTrip

/-- Decoding the encoding of the instruction, if it is well formed, gives it back (R76). -/
def Statement (i : Instr) : Prop := i.wf = true → decode (encode i) = .ok i

theorem lui (rd : RegIdx) (imm : Word) : Statement (.lui rd imm) := fun h => by
  have hu := getElem_low12_of_mod (of_decide_eq_true h)
  simp [decode, encode, fieldImmU_encodeU _ _ _ hu]

theorem auipc (rd : RegIdx) (imm : Word) : Statement (.auipc rd imm) := fun h => by
  have hu := getElem_low12_of_mod (of_decide_eq_true h)
  simp [decode, encode, fieldImmU_encodeU _ _ _ hu]

theorem jal (rd : RegIdx) (imm : Word) : Statement (.jal rd imm) := fun h => by
  obtain ⟨lo, hi, even⟩ := of_decide_eq_true h
  simp [decode, encode, fieldImmJ_encodeJ _ _ _ (getElem_zero_of_even even), signExtend_setWidth_21 (by omega) (by omega)]

theorem jalr (rd rs1 : RegIdx) (imm : Word) : Statement (.jalr rd rs1 imm) := fun h => by
  obtain ⟨lo, hi⟩ := of_decide_eq_true h
  simp [decode, encode, fieldImmI_encodeI, signExtend_setWidth_12 (by omega) (by omega)]

theorem beq (rs1 rs2 : RegIdx) (imm : Word) : Statement (.beq rs1 rs2 imm) := fun h => by
  obtain ⟨lo, hi, even⟩ := of_decide_eq_true h
  simp [decode, encode, fieldImmB_encodeB _ _ _ _ _ (getElem_zero_of_even even),
    signExtend_setWidth_13 (by omega) (by omega)]

theorem bne (rs1 rs2 : RegIdx) (imm : Word) : Statement (.bne rs1 rs2 imm) := fun h => by
  obtain ⟨lo, hi, even⟩ := of_decide_eq_true h
  simp [decode, encode, fieldImmB_encodeB _ _ _ _ _ (getElem_zero_of_even even),
    signExtend_setWidth_13 (by omega) (by omega)]

theorem blt (rs1 rs2 : RegIdx) (imm : Word) : Statement (.blt rs1 rs2 imm) := fun h => by
  obtain ⟨lo, hi, even⟩ := of_decide_eq_true h
  simp [decode, encode, fieldImmB_encodeB _ _ _ _ _ (getElem_zero_of_even even),
    signExtend_setWidth_13 (by omega) (by omega)]

theorem bge (rs1 rs2 : RegIdx) (imm : Word) : Statement (.bge rs1 rs2 imm) := fun h => by
  obtain ⟨lo, hi, even⟩ := of_decide_eq_true h
  simp [decode, encode, fieldImmB_encodeB _ _ _ _ _ (getElem_zero_of_even even),
    signExtend_setWidth_13 (by omega) (by omega)]

theorem bltu (rs1 rs2 : RegIdx) (imm : Word) : Statement (.bltu rs1 rs2 imm) := fun h => by
  obtain ⟨lo, hi, even⟩ := of_decide_eq_true h
  simp [decode, encode, fieldImmB_encodeB _ _ _ _ _ (getElem_zero_of_even even),
    signExtend_setWidth_13 (by omega) (by omega)]

theorem bgeu (rs1 rs2 : RegIdx) (imm : Word) : Statement (.bgeu rs1 rs2 imm) := fun h => by
  obtain ⟨lo, hi, even⟩ := of_decide_eq_true h
  simp [decode, encode, fieldImmB_encodeB _ _ _ _ _ (getElem_zero_of_even even),
    signExtend_setWidth_13 (by omega) (by omega)]

theorem lb (rd rs1 : RegIdx) (imm : Word) : Statement (.lb rd rs1 imm) := fun h => by
  obtain ⟨lo, hi⟩ := of_decide_eq_true h
  simp [decode, encode, fieldImmI_encodeI, signExtend_setWidth_12 (by omega) (by omega)]

theorem lh (rd rs1 : RegIdx) (imm : Word) : Statement (.lh rd rs1 imm) := fun h => by
  obtain ⟨lo, hi⟩ := of_decide_eq_true h
  simp [decode, encode, fieldImmI_encodeI, signExtend_setWidth_12 (by omega) (by omega)]

theorem lw (rd rs1 : RegIdx) (imm : Word) : Statement (.lw rd rs1 imm) := fun h => by
  obtain ⟨lo, hi⟩ := of_decide_eq_true h
  simp [decode, encode, fieldImmI_encodeI, signExtend_setWidth_12 (by omega) (by omega)]

theorem lbu (rd rs1 : RegIdx) (imm : Word) : Statement (.lbu rd rs1 imm) := fun h => by
  obtain ⟨lo, hi⟩ := of_decide_eq_true h
  simp [decode, encode, fieldImmI_encodeI, signExtend_setWidth_12 (by omega) (by omega)]

theorem lhu (rd rs1 : RegIdx) (imm : Word) : Statement (.lhu rd rs1 imm) := fun h => by
  obtain ⟨lo, hi⟩ := of_decide_eq_true h
  simp [decode, encode, fieldImmI_encodeI, signExtend_setWidth_12 (by omega) (by omega)]

theorem sb (rs1 rs2 : RegIdx) (imm : Word) : Statement (.sb rs1 rs2 imm) := fun h => by
  obtain ⟨lo, hi⟩ := of_decide_eq_true h
  simp [decode, encode, fieldImmS_encodeS, signExtend_setWidth_12 (by omega) (by omega)]

theorem sh (rs1 rs2 : RegIdx) (imm : Word) : Statement (.sh rs1 rs2 imm) := fun h => by
  obtain ⟨lo, hi⟩ := of_decide_eq_true h
  simp [decode, encode, fieldImmS_encodeS, signExtend_setWidth_12 (by omega) (by omega)]

theorem sw (rs1 rs2 : RegIdx) (imm : Word) : Statement (.sw rs1 rs2 imm) := fun h => by
  obtain ⟨lo, hi⟩ := of_decide_eq_true h
  simp [decode, encode, fieldImmS_encodeS, signExtend_setWidth_12 (by omega) (by omega)]

theorem addi (rd rs1 : RegIdx) (imm : Word) : Statement (.addi rd rs1 imm) := fun h => by
  obtain ⟨lo, hi⟩ := of_decide_eq_true h
  simp [decode, encode, fieldImmI_encodeI, signExtend_setWidth_12 (by omega) (by omega)]

theorem slti (rd rs1 : RegIdx) (imm : Word) : Statement (.slti rd rs1 imm) := fun h => by
  obtain ⟨lo, hi⟩ := of_decide_eq_true h
  simp [decode, encode, fieldImmI_encodeI, signExtend_setWidth_12 (by omega) (by omega)]

theorem sltiu (rd rs1 : RegIdx) (imm : Word) : Statement (.sltiu rd rs1 imm) := fun h => by
  obtain ⟨lo, hi⟩ := of_decide_eq_true h
  simp [decode, encode, fieldImmI_encodeI, signExtend_setWidth_12 (by omega) (by omega)]

theorem xori (rd rs1 : RegIdx) (imm : Word) : Statement (.xori rd rs1 imm) := fun h => by
  obtain ⟨lo, hi⟩ := of_decide_eq_true h
  simp [decode, encode, fieldImmI_encodeI, signExtend_setWidth_12 (by omega) (by omega)]

theorem ori (rd rs1 : RegIdx) (imm : Word) : Statement (.ori rd rs1 imm) := fun h => by
  obtain ⟨lo, hi⟩ := of_decide_eq_true h
  simp [decode, encode, fieldImmI_encodeI, signExtend_setWidth_12 (by omega) (by omega)]

theorem andi (rd rs1 : RegIdx) (imm : Word) : Statement (.andi rd rs1 imm) := fun h => by
  obtain ⟨lo, hi⟩ := of_decide_eq_true h
  simp [decode, encode, fieldImmI_encodeI, signExtend_setWidth_12 (by omega) (by omega)]

theorem slli (rd rs1 : RegIdx) (shamt : BitVec 5) : Statement (.slli rd rs1 shamt) := fun _ => by
  simp [decode, encode]

theorem srli (rd rs1 : RegIdx) (shamt : BitVec 5) : Statement (.srli rd rs1 shamt) := fun _ => by
  simp [decode, encode]

theorem srai (rd rs1 : RegIdx) (shamt : BitVec 5) : Statement (.srai rd rs1 shamt) := fun _ => by
  simp [decode, encode]

theorem add (rd rs1 rs2 : RegIdx) : Statement (.add rd rs1 rs2) := fun _ => by
  simp [decode, encode]

theorem sub (rd rs1 rs2 : RegIdx) : Statement (.sub rd rs1 rs2) := fun _ => by
  simp [decode, encode]

theorem sll (rd rs1 rs2 : RegIdx) : Statement (.sll rd rs1 rs2) := fun _ => by
  simp [decode, encode]

theorem slt (rd rs1 rs2 : RegIdx) : Statement (.slt rd rs1 rs2) := fun _ => by
  simp [decode, encode]

theorem sltu (rd rs1 rs2 : RegIdx) : Statement (.sltu rd rs1 rs2) := fun _ => by
  simp [decode, encode]

theorem xor (rd rs1 rs2 : RegIdx) : Statement (.xor rd rs1 rs2) := fun _ => by
  simp [decode, encode]

theorem srl (rd rs1 rs2 : RegIdx) : Statement (.srl rd rs1 rs2) := fun _ => by
  simp [decode, encode]

theorem sra (rd rs1 rs2 : RegIdx) : Statement (.sra rd rs1 rs2) := fun _ => by
  simp [decode, encode]

theorem or (rd rs1 rs2 : RegIdx) : Statement (.or rd rs1 rs2) := fun _ => by
  simp [decode, encode]

theorem and (rd rs1 rs2 : RegIdx) : Statement (.and rd rs1 rs2) := fun _ => by
  simp [decode, encode]

end Sys2Proof.Laws.RoundTrip
end

