-- ==== Sys2Proof/Laws/Progress.lean ====
section
/-! SUPPORT. How long a running core can go without a retirement, what a launch gives, and runs of ticks. -/

namespace Sys2Proof.Machine

/-- How many more ticks can pass before the tick that retires the next instruction, or ends the run. -/
def waitMeasure (s : State) : Nat :=
  if s.ew ≠ .empty then 0 else if s.de ≠ .empty then 1 else if s.fd ≠ .empty then 2
  else if s.fwait = 0 then s.cfg.missPenalty + 3 else s.fwait + 2

/-- The termination check of a core that runs on changes nothing. -/
theorem checkHaltAt_running {s : State} (h : (checkHaltAt s).status = .running) : checkHaltAt s = s := by
  rcases checkHaltAt_cases s with ⟨h1, _⟩ | ⟨h1, _⟩
  · exact h1
  · rw [h1] at h; cases h

/-- EW holds an instruction: the tick retires it or the run ends. -/
theorem tick_retires {s : State} (hr : s.status = .running) (he : s.ew ≠ .empty) (hn : (tick s).status = .running) :
    (tick s).retired = s.retired + 1 := by
  have hc := tick_cases hr
  generalize tick s = s' at hc hn
  cases hc with
  | raiseWriteBack e hw => cases hn
  | stop t hw hs => cases hn
  | raiseExecute t e hw hs hx => cases hn
  | advance t x hw hs hx =>
    obtain ⟨_, hret⟩ := writeBack_frame hw
    rw [checkHaltAt_running hn]
    have : (advance t x).retired = t.retired := by
      obtain ⟨_, _, _, _, _, hf⟩ := fetchStage_frame t
      have ha := advance_cases hx
      generalize advance t x = u at ha
      cases ha <;> simp [hf]
    rw [this, hret]; simp [he]

/-- EW empty: the wait shrinks. -/
theorem tick_measure {s : State} (h : CoreInv s) (hr : s.status = .running) (he : s.ew = .empty)
    (hn : (tick s).status = .running) : waitMeasure (tick s) < waitMeasure s ∧ (tick s).retired = s.retired := by
  have hI := h.execution hr
  have hS := h.structural
  have hc := tick_cases hr
  have hI' := (inv_tick h hr).execution hn
  generalize tick s = s' at hc hn hI'
  have hw0 : writeBack { s with cycles := s.cycles + 1 } = .ok { s with cycles := s.cycles + 1 } := by
    simp [writeBack, he]
  cases hc with
  | raiseWriteBack e hw => cases hn
  | stop t hw hs => cases hn
  | raiseExecute t e hw hs hx => cases hn
  | advance t x hw hs hx =>
    rw [hw0] at hw
    cases hw
    rw [checkHaltAt_running hn] at hI' ⊢
    have ha := advance_cases hx
    generalize advance _ x = u at ha hI'
    have hxe := executeStage_cases hx
    by_cases hde : s.de = .empty
    · have hxx : x.ew = .empty ∧ x.redirect = none := by
        cases hxe with
        | bubble => exact ⟨rfl, rfl⟩
        | executed pc ins a b pn c hd hc => simp [hde] at hd
      cases ha with
      | redirect target hrd => rw [hxx.2] at hrd; cases hrd
      | stall hd hrd =>
        have hc := decodeStage_cases { s with cycles := s.cycles + 1 } x.forward
        rw [hd] at hc
        cases hc with
        | stall pc word pn d h hdec hs => simp [hde, loadUse] at hs
      | pass de hd hrd =>
        have hc := decodeStage_cases { s with cycles := s.cycles + 1 } x.forward
        rw [hd] at hc
        have hpol := hI'.policy
        have hpol0 := hI.policy
        have hf := fetchStage_cases { s with cycles := s.cycles + 1 }
        generalize fetchStage { s with cycles := s.cycles + 1 } = f at hf hpol
        have hmp := hS.params.2.2.2.2.2.2.2
        by_cases hfd : s.fd = .empty
        · have hdd : de = .empty := by cases hc <;> simp_all
          subst hdd
          cases hf with
          | idle hw hs => simp only at hs; rw [hs] at hpol0; simp [State.drained, he, hde, hfd] at hpol0; simp at hw; omega
          | wait hw => simp at hw; simp [waitMeasure, he, hde, hfd, hxx]; split <;> (try split) <;> omega
          | arrive hw => simp at hw; simp [waitMeasure, he, hde, hfd, hxx, hw]
          | token err hw hs he' => simp at hw; simp [waitMeasure, he, hde, hfd, hxx, hw]
          | hit word hw => simp at hw; simp [waitMeasure, he, hde, hfd, hxx, hw]
          | miss hw => simp at hw; simp [waitMeasure, he, hde, hfd, hxx, hw]; split <;> omega
        · have hdd : de ≠ .empty := by cases hc <;> simp_all
          have : f.state.retired = s.retired := by cases hf <;> rfl
          simp [waitMeasure, he, hde, hfd, hxx, hdd, this]
    · have hxx : x.ew ≠ .empty := by
        cases hxe with
        | bubble hd => exact absurd hd hde
        | executed => simp
      have hf : (fetchStage { s with cycles := s.cycles + 1 }).state.retired = s.retired := by
        obtain ⟨_, _, _, _, _, hf⟩ := fetchStage_frame { s with cycles := s.cycles + 1 }
        rw [hf]
      cases ha <;> exact ⟨by simp [waitMeasure, he, hde, hxx], by first | rfl | exact hf⟩

/-! ### A launch (R149) -/

/-- A launch has the form the invariant asks for. -/
theorem structure_launch {cfg : Params} {mem : Memory} (regs : Vector Word 32) (h : LaunchOk cfg mem) :
    StructureInv (State.launch cfg regs mem) where
  params := h.params
  slot0 := by simp [State.launch]
  memForm := h.memForm
  memBound := h.memBound
  lineCount := by simp [State.launch]
  lines := by intro i line hl; rw [State.launch, lineAt_replicate] at hl; cases hl
  waitBound := Nat.zero_le _
  waiting := by intro h; exact absurd h (Nat.lt_irrefl 0)
  aligned := id
  fdOrder := by intro _ h; cases h
  deOrder := by intro _ h; cases h
  fdPrediction := by intro _ _ _ h; cases h
  dePrediction := by intro _ _ _ _ _ h; cases h
  fdAddress := by intro _ _ _ h; cases h
  deAddress := by intro _ _ _ _ _ h; cases h
  ewAddress := by intro _ _ _ _ _ h; cases h
  fdToken := by intro _ _ h; cases h
  deToken := by intro _ _ h; cases h

/-- A launch runs, or the termination check right after reset stops it. -/
theorem boot_cases (cfg : Params) (regs : Vector Word 32) (mem : Memory) :
    (boot cfg regs mem = State.launch cfg regs mem ∧ stopsHere (State.launch cfg regs mem) = false) ∨
    (boot cfg regs mem = { State.launch cfg regs mem with status := .stopped } ∧ stopsHere (State.launch cfg regs mem) = true) := by
  unfold boot checkAfterReset stopsHere checkHaltAt
  simp only [State.launch, State.drained]
  cases h : cfg.stop with
  | haltAt a =>
    by_cases h1 : cfg.entry = a
    · subst h1; simp
    · simp [h1, eq_comm (a := a)]
  | retireCount n =>
    by_cases h1 : 0 = n
    · subst h1; simp
    · simp [h1]

/-! ### Runs of ticks -/

/-- One tick, then the rest. -/
theorem ticks_succ (n : Nat) (s : State) : ticks (n + 1) s = ticks n (tick s) := rfl

/-- A run that has ended stays as it ended. -/
theorem ticks_ended {s : State} (h : s.status ≠ .running) (n : Nat) : ticks n s = s := by
  induction n with
  | zero => rfl
  | succ n ih => rw [ticks_succ, tick_of_not_running h, ih]

/-- Ticks add up. -/
theorem ticks_add (m n : Nat) (s : State) : ticks (m + n) s = ticks n (ticks m s) := by
  induction m generalizing s with
  | zero => simp [ticks]
  | succ m ih => rw [Nat.succ_add, ticks_succ, ih, ticks_succ]

/-- Ticking up to the next retirement is a positive number of ticks, all but the last without a retirement or an end, and it
goes on to the next one as long as fuel is left. -/
theorem ticksToRetire_eq (n : Nat) (s : State) (hr : s.status = .running) (hn : 1 ≤ n) : ∃ k, 1 ≤ k ∧ k ≤ n ∧ ticksToRetire n s = ticks k s ∧
    (∀ j, j < k → (ticks j s).status = .running ∧ (ticks j s).retired = s.retired) ∧ (k < n → ¬ ((ticks k s).status = .running ∧ (ticks k s).retired = s.retired)) := by
  induction n generalizing s with
  | zero => omega
  | succ n ih =>
    simp only [ticksToRetire]
    split
    · rename_i h
      by_cases h0 : n = 0
      · subst h0; exact ⟨1, by omega, by omega, rfl, fun j hj => by obtain rfl : j = 0 := by omega
                                                                    exact ⟨hr, rfl⟩, by omega⟩
      · obtain ⟨k, h1, h2, h3, h4, h5⟩ := ih (tick s) h.1 (by omega)
        refine ⟨k + 1, by omega, by omega, h3, fun j hj => ?_, fun hk => ?_⟩
        · cases j with
          | zero => exact ⟨hr, rfl⟩
          | succ j => rw [ticks_succ, ← h.2]; exact h4 j (by omega)
        · rw [ticks_succ, ← h.2]; exact h5 (by omega)
    · rename_i h
      exact ⟨1, by omega, by omega, rfl, fun j hj => by obtain rfl : j = 0 := by omega
                                                        exact ⟨hr, rfl⟩, fun _ => h⟩

/-- A tick keeps the parameters. -/
theorem tick_cfg (s : State) : (tick s).cfg = s.cfg := by
  by_cases hr : s.status = .running
  · have hc := tick_cases hr
    generalize tick s = u at hc
    cases hc with
    | raiseWriteBack e hw => rfl
    | stop t hw hst => simp only; rw [(writeBack_frame hw).1]
    | raiseExecute t e hw hst hx => rw [(writeBack_frame hw).1]; rfl
    | advance t x hw hst hx =>
      have ht : t.cfg = s.cfg := by rw [(writeBack_frame hw).1]
      have : (advance t x).cfg = s.cfg := by
        obtain ⟨_, _, _, _, _, hf⟩ := fetchStage_frame t
        have ha := advance_cases hx
        generalize advance t x = u at ha
        cases ha <;> simp [hf, ht]
      rcases checkHaltAt_cases (advance t x) with ⟨h1, h2⟩ | ⟨h1, h2, h3⟩ <;> rw [h1] <;> exact this
  · rw [tick_of_not_running hr]

end Sys2Proof.Machine
end

