-- ==== Sys2Proof/Laws/Simulation.lean ====
section
/-! SUPPORT. The pipeline beside the sequential reference (spec 70_reset_and_hazards.md R167, R168): the relation between a
running core and the reference, and what one tick does to it. -/

namespace Sys2Proof.Machine

structure Agree (s t : State) : Prop where
  cfg : s.cfg = t.cfg
  regs : s.regs = t.regs
  mem : s.mem = t.mem
  fpc : s.fpc = t.fpc
  retired : s.retired = t.retired
  status : s.status = t.status

/-- A meaning answers a next state, and agreeing states give agreeing ones. -/
theorem exec_agree {s t : State} (h : Agree s t) (i : Instr) :
    ∃ s' t', exec i s = .next s' ∧ exec i t = .next t' ∧ Agree s' t' := by
  rw [exec_eq_runAlone, exec_eq_runAlone, readSource_congr h.regs, readSource_congr h.regs]
  unfold runAlone
  rw [h.fpc]
  cases hx : (splitOf i).execute t.fpc (t.readSource (rs1Of i)) (t.readSource (rs2Of i)) with
  | error e => exact ⟨_, _, rfl, rfl, ⟨h.cfg, h.regs, h.mem, h.fpc, h.retired, rfl⟩⟩
  | ok c =>
    simp only
    rw [commit_congr h.cfg h.regs h.mem]
    cases hc : (splitOf i).commit t.fpc c.result c.addr c.data s with
    | error e => exact ⟨_, _, rfl, rfl, ⟨h.cfg, h.regs, h.mem, h.fpc, h.retired, rfl⟩⟩
    | ok u =>
      refine ⟨_, _, rfl, rfl, ?_⟩
      rcases commit_ok hc with ⟨rd, v, _, rfl, _⟩ | ⟨_, rfl⟩ | ⟨_, n, _, rfl⟩
      · exact ⟨by simp [h.cfg], rfl, rfl, rfl, by simp [h.retired], by simp [h.status]⟩
      · exact ⟨h.cfg, rfl, rfl, rfl, by simp [h.retired], h.status⟩
      · exact ⟨h.cfg, rfl, rfl, rfl, by simp [h.retired], h.status⟩

/-- Word of memory at an address -/
def wordAt (m : Memory) (a : Word) : Word := BitVec.ofNat 32 (Memory.readBytes m a.toNat 4)

/-- The reference reads the word at its pc. -/
theorem memoryWord_eq (s : State) : memoryWord s = wordAt s.mem s.fpc := rfl

/-- A reference step at a decodable word is the meaning of the instruction. -/
theorem seqStep_exec {s : State} (h : Fetches s) {i : Instr} (hd : decode (wordAt s.mem s.fpc) = .ok i) :
    sequentialStep s = exec i s := by
  unfold sequentialStep
  rw [h.running]
  have h1 : s.fpc.toNat % 4 = 0 := h.aligned
  have h2 := h.bound
  simp [h.goesOn, h1, memoryWord_eq, hd, show ¬ s.cfg.memSize < s.fpc.toNat + 4 by omega]

/-- A reference step at an illegal word raises UnknownInstruction. -/
theorem seqStep_unknown {s : State} (h : Fetches s) {e : DecodeError} (hd : decode (wordAt s.mem s.fpc) = .error e) :
    sequentialStep s = .next (raise (.unknownInstruction s.fpc (wordAt s.mem s.fpc)) s) := by
  unfold sequentialStep
  rw [h.running]
  have h1 : s.fpc.toNat % 4 = 0 := h.aligned
  have h2 := h.bound
  simp [h.goesOn, h1, memoryWord_eq, hd, show ¬ s.cfg.memSize < s.fpc.toNat + 4 by omega]

/-- A run goes on from the next state. -/
theorem seqRun_succ_next {s t : State} (h : sequentialStep s = .next t) (n : Nat) :
    sequentialRun (n + 1) s = sequentialRun n t := by simp [sequentialRun, h]

/-- The reference fetches at `a` some time from here -/
def WillFetch (s : State) (a : Word) : Prop := ∃ k, Fetches (sequentialRun k s) ∧ (sequentialRun k s).fpc = a

/-- What the reference fetches now it will fetch. -/
theorem willFetch_now {s : State} (h : Fetches s) : WillFetch s s.fpc := ⟨0, h, rfl⟩

/-- What the reference fetches later it will fetch. -/
theorem willFetch_next {s t : State} (h : sequentialStep s = .next t) {a : Word} (ha : WillFetch t a) : WillFetch s a := by
  obtain ⟨k, h1, h2⟩ := ha
  exact ⟨k + 1, by rw [seqRun_succ_next h]; exact h1, by rw [seqRun_succ_next h]; exact h2⟩

/-- The launch premise holds of the rest of the run. -/
theorem codeUnmodified_next {s t : State} (h : sequentialStep s = .next t) (hc : CodeUnmodified s) : CodeUnmodified t := by
  intro j k hjk hj hk
  have := hc (j + 1) (k + 1) (by omega)
  rw [seqRun_succ_next h, seqRun_succ_next h] at this
  exact this hj hk

/-- The store of this step leaves later code words alone -/
theorem code_kept {s t : State} (hf : Fetches s) {i : Instr} (hd : decode (wordAt s.mem s.fpc) = .ok i)
    (hn : sequentialStep s = .next t) (hc : CodeUnmodified s) (hwf : Memory.wf s.mem) {a : Word} (ha : WillFetch t a) :
    wordAt t.mem a = wordAt s.mem a := by
  obtain ⟨k, hk, hka⟩ := ha
  have hsp := hc 0 (k + 1) (by omega) hf (by rw [seqRun_succ_next hn]; exact hk) i
  rw [seqRun_succ_next hn, hka] at hsp
  have he : exec i s = .next t := by rw [← seqStep_exec hf hd, hn]
  rw [exec_eq_runAlone] at he
  rcases runAlone_cases (splitOf i) (s.readSource (rs1Of i)) (s.readSource (rs2Of i)) s with
    ⟨e, _, h⟩ | ⟨c, e, _, _, h⟩ | ⟨c, u, hx, hcm, h⟩
  · rw [h] at he; cases he; rfl
  · rw [h] at he; cases he; rfl
  · rw [h] at he; cases he
    have hstore : ∀ n (imm : Word) (rs1 rs2 : RegIdx), (splitOf i).commit = commitStore n →
        (splitOf i).execute = (fun _ a b => executeStore imm a b) → rs1Of i = some rs1 →
        storeSpan i s = some ((effectiveAddress (s.readReg rs1) imm).toNat, n) → wordAt u.mem a = wordAt s.mem a := by
      intro n imm rs1 rs2 h1 h2 h3 h4
      rw [h1] at hcm
      rw [h2, h3] at hx
      cases hx
      obtain ⟨_, rfl⟩ := storeAccess_ok.1 hcm
      have := hsp _ _ hd h4
      unfold wordAt
      congr 1
      apply Memory.readBytes_congr
      intro x hx1 hx2
      show Memory.read (Memory.writeBytes s.mem (effectiveAddress (s.readReg rs1) imm).toNat n _) x = _
      rw [Memory.read_writeBytes hwf, if_neg (by omega)]
    cases i
    case sb => exact hstore 1 _ _ (by assumption) rfl rfl rfl rfl
    case sh => exact hstore 2 _ _ (by assumption) rfl rfl rfl rfl
    case sw => exact hstore 4 _ _ (by assumption) rfl rfl rfl rfl
    all_goals
      rcases commit_ok hcm with ⟨rd, v, _, rfl, _⟩ | ⟨_, rfl⟩ | ⟨hno, n, _, rfl⟩
      · simp
      · rfl
      · first
          | (cases hno; done)
          | exact congrArg (fun m => wordAt m a) (congrArg State.mem (Except.ok.inj hcm)).symm

/-- What is in flight behind EW agrees with memory at addresses the reference will fetch -/
structure Coherent (K : Word → Prop) (s : State) : Prop where
  de : ∀ pc ins a b pn, s.de = .decoded pc ins a b pn → K pc → decode (wordAt s.mem pc) = .ok ins
  tok : ∀ pc pc' word, s.de = .fault pc (.unknownInstruction pc' word) → K pc → wordAt s.mem pc = word
  fd : ∀ pc word pn, s.fd = .fetched pc word pn → K pc → word = wordAt s.mem pc
  line : ∀ a line, lineAt s.l1i (lineIndex s.cfg a) = some line → line.base = lineBase s.cfg a → K a → wordAligned a →
    lineWord s.cfg line a = wordAt s.mem a

/-- Word of a freshly filled line -/
theorem lineWord_fill {p : Params} (hp : p.Valid) {mem : Memory} {a b : Word} (hb : lineBase p a = lineBase p b)
    (ha : wordAligned b) :
    lineWord p { base := lineBase p a, data := Memory.readBlock mem (lineBase p a).toNat p.lineBytes } b = wordAt mem b := by
  have h4 : p.lineBytes % 4 = 0 := by
    obtain ⟨_, _, _, h4, h2, _⟩ := hp
    rw [← h2] at h4 ⊢
    have : 2 ≤ p.lineBytes.log2 := by
      by_contra hlt
      have : p.lineBytes.log2 ≤ 1 := by omega
      have := Nat.pow_le_pow_right (n := 2) (by omega) this
      omega
    obtain ⟨k, hk⟩ := Nat.exists_eq_add_of_le this
    rw [hk, Nat.pow_add]
    omega
  have hL : 0 < p.lineBytes := by have := hp.2.2.2.1; omega
  have ho := Nat.mod_lt b.toNat hL
  have ho4 : b.toNat % p.lineBytes % 4 = 0 := by
    have ha : b.toNat % 4 = 0 := ha
    obtain ⟨k, hk⟩ := Nat.dvd_of_mod_eq_zero h4
    have := Nat.div_add_mod b.toNat p.lineBytes
    rw [hk] at this ⊢
    rw [Nat.mul_assoc] at this
    omega
  have hsum := lineBase_add_offset p b
  have hget : ∀ o, o < p.lineBytes → blockByte (Memory.readBlock mem (lineBase p a).toNat p.lineBytes) o =
      Memory.read mem ((lineBase p a).toNat + o) := by
    intro o ho
    simp [blockByte, Memory.readBlock, List.getD, ho]
  have hk : ∃ k, p.lineBytes = 4 * k := Nat.dvd_of_mod_eq_zero h4
  obtain ⟨k, hk⟩ := hk
  unfold lineWord blockWord wordAt
  simp only
  rw [hget _ ho, hget _ (by omega), hget _ (by omega), hget _ (by omega), hb]
  rw [show (lineBase p b).toNat + b.toNat % p.lineBytes = b.toNat from hsum,
    show (lineBase p b).toNat + (b.toNat % p.lineBytes + 1) = b.toNat + 1 by omega,
    show (lineBase p b).toNat + (b.toNat % p.lineBytes + 2) = b.toNat + 2 by omega,
    show (lineBase p b).toNat + (b.toNat % p.lineBytes + 3) = b.toNat + 3 by omega]
  apply BitVec.eq_of_toNat_eq
  simp only [wordOfBytes, Memory.readBytes, BitVec.toNat_append, BitVec.toNat_ofNat]
  have h0 := (Memory.read mem (b.toNat)).isLt
  have h1 := (Memory.read mem (b.toNat + 1)).isLt
  have h2 := (Memory.read mem (b.toNat + 2)).isLt
  have h3 := (Memory.read mem (b.toNat + 3)).isLt
  generalize (Memory.read mem (b.toNat)).toNat = x0 at *
  generalize (Memory.read mem (b.toNat + 1)).toNat = x1 at *
  generalize (Memory.read mem (b.toNat + 2)).toNat = x2 at *
  generalize (Memory.read mem (b.toNat + 3)).toNat = x3 at *
  rw [← Nat.shiftLeft_add_eq_or_of_lt (by omega), ← Nat.shiftLeft_add_eq_or_of_lt (by omega), ← Nat.shiftLeft_add_eq_or_of_lt (by omega)]
  simp only [Nat.shiftLeft_eq]
  omega

/-- The pipeline `s` runs where the reference `v` stands. -/
structure Sim (v s : State) : Prop where
  inv : CoreInv s
  run : s.status = .running
  agree : Agree v s.sequentialView
  code : CodeUnmodified v
  ew : ∀ pc ins result addr data, s.ew = .executed pc ins result addr data → WillFetch v pc → decode (wordAt s.mem pc) = .ok ins
  coh : Coherent (WillFetch v) s

/-- The cycle counter is not part of the relation. -/
theorem sim_cycles {v s : State} (h : Sim v s) (n : Nat) : Sim v { s with cycles := n } :=
  ⟨⟨structure_cycles h.inv.structural n, fun hr => execution_cycles (h.inv.execution hr) n⟩, h.run,
   ⟨h.agree.cfg, h.agree.regs, h.agree.mem, h.agree.fpc, h.agree.retired, h.agree.status⟩, h.code, h.ew,
   ⟨h.coh.de, h.coh.tok, h.coh.fd, h.coh.line⟩⟩

/-- A running reference at an address Fetch may look up fetches there. -/
theorem fetches_of_address {v : State} {pc : Word} (hr : v.status = .running) (hp : v.fpc = pc)
    (ha : FetchAddressOk v.cfg pc) (hn : ∀ n, v.cfg.stop = .retireCount n → v.retired < n) : Fetches v := by
  subst hp
  refine ⟨hr, ?_, ha.aligned, ha.bound⟩
  unfold stopsHere
  have := ha.notHalt
  cases hs : v.cfg.stop with
  | haltAt h => rw [hs] at this; simpa [eq_comm] using this
  | retireCount n => have := hn n hs; simp; omega

/-- The instruction in EW retires as the reference executes it -/
theorem retire_matches {v s : State} (h : Sim v s) {pc : Word} {ins : Instr} {result addr data : Word}
    (he : s.ew = .executed pc ins result addr data) :
    Fetches v ∧ decode (wordAt v.mem v.fpc) = .ok ins ∧
    (∀ e, writeBack s = .error e → sequentialStep v = .next (raise e v)) ∧
    (∀ t, writeBack s = .ok t → sequentialStep v =
      .next { v with regs := t.regs, mem := t.mem, fpc := s.pcAfterEw, retired := t.retired }) := by
  have hpc : v.fpc = pc := by rw [h.agree.fpc]; simp [State.sequentialView, State.pcToRetire, he, EwLatch.pc?]
  have hX := h.inv.execution h.run
  have hf : Fetches v := by
    refine fetches_of_address (by rw [h.agree.status]; exact h.run) hpc ?_ ?_
    · have := h.inv.structural.ewAddress _ _ _ _ _ he
      rw [h.agree.cfg]; exact this
    · intro n hn
      have hp := hX.policy
      rw [h.agree.cfg] at hn
      have hn : s.cfg.stop = .retireCount n := hn
      simp only [hn] at hp
      have : v.retired = s.retired := h.agree.retired
      omega
  have hmem : v.mem = s.mem := h.agree.mem
  have hcfg : v.cfg = s.cfg := h.agree.cfg
  have hregs : v.regs = s.regs := h.agree.regs
  have hd : decode (wordAt v.mem v.fpc) = .ok ins := by
    rw [hmem, hpc]
    exact h.ew _ _ _ _ _ he (hpc ▸ willFetch_now hf)
  refine ⟨hf, hd, ?_⟩
  obtain ⟨c, hc, e1, e2, e3, hnext⟩ := hX.executed _ _ _ _ _ he
  have hstep := seqStep_exec hf hd
  rw [exec_eq_runAlone] at hstep
  unfold runAlone at hstep
  rw [hpc, readSource_congr hregs, readSource_congr hregs, hc] at hstep
  simp only at hstep
  rw [← e1, ← e2, ← e3, commit_congr hcfg.symm hregs.symm hmem.symm] at hstep
  constructor
  · intro e hw
    obtain ⟨pc', ins', r', a', d', he', hx⟩ := writeBack_error hw
    rw [he] at he'
    cases he'
    simp only [hx] at hstep
    exact hstep
  · intro t hw
    rcases writeBack_ok hw with ⟨he', _⟩ | ⟨pc', ins', r', a', d', t', he', hx, rfl⟩
    · rw [he] at he'; cases he'
    · rw [he] at he'
      cases he'
      simp only [hx] at hstep
      rw [hstep, hnext]
      congr 2
      have hr : t'.retired = s.retired := by
        rcases commit_ok hx with ⟨rd, w, _, rfl, _⟩ | ⟨_, rfl⟩ | ⟨_, n, _, rfl⟩
        · simp
        · rfl
        · rfl
      have : v.retired = s.retired := h.agree.retired
      simp [hr, this]

/-- After Write-back, `v` is at what DE, FD or Fetch holds next. -/
structure Mid (v t : State) : Prop where
  cfg : v.cfg = t.cfg
  regs : v.regs = t.regs
  mem : v.mem = t.mem
  retired : v.retired = t.retired
  status : v.status = .running
  trun : t.status = .running
  fpc : v.fpc = t.pcAfterEw
  code : CodeUnmodified v
  coh : Coherent (WillFetch v) t

/-- Write-back is one reference step, or none if EW is empty. -/
theorem mid_of_writeBack {v s t : State} (h : Sim v s) (hw : writeBack s = .ok t) :
    ∃ v', ((s.ew = .empty ∧ v' = v) ∨ (s.ew ≠ .empty ∧ sequentialStep v = .next v')) ∧ Mid v' t := by
  rcases writeBack_ok hw with ⟨he, rfl⟩ | ⟨pc, ins, result, addr, data, t', he, hc, ht⟩
  · refine ⟨v, .inl ⟨he, rfl⟩, h.agree.cfg, h.agree.regs, h.agree.mem, h.agree.retired, by rw [h.agree.status]; exact h.run,
      h.run, ?_, h.code, h.coh⟩
    rw [h.agree.fpc]; simp [State.sequentialView, State.pcToRetire, he, EwLatch.pc?]
  · obtain ⟨hf, hd, _, hok⟩ := retire_matches h he
    have hn := hok t hw
    obtain ⟨hfr, _⟩ := writeBack_frame hw
    refine ⟨_, .inr ⟨by rw [he]; simp, hn⟩, ?_⟩
    have hkept : ∀ a, WillFetch { v with regs := t.regs, mem := t.mem, fpc := s.pcAfterEw, retired := t.retired } a →
        wordAt t.mem a = wordAt s.mem a := by
      intro a ha
      have := code_kept hf hd hn h.code (by rw [h.agree.mem]; exact h.inv.structural.memForm) ha
      rw [show v.mem = s.mem from h.agree.mem] at this
      exact this
    refine ⟨by rw [hfr]; exact h.agree.cfg, rfl, rfl, rfl, by rw [show ({ v with regs := t.regs, mem := t.mem, fpc := s.pcAfterEw, retired := t.retired } : State).status = v.status from rfl, h.agree.status]; exact h.run,
      by rw [hfr]; exact h.run, by rw [hfr]; rfl, codeUnmodified_next hn h.code, ?_⟩
    have e1 : t.de = s.de := by rw [hfr]
    have e2 : t.fd = s.fd := by rw [hfr]
    have e3 : t.l1i = s.l1i := by rw [hfr]
    have e4 : t.cfg = s.cfg := by rw [hfr]
    constructor
    · intro pc ins a b pn hde hK
      rw [hkept _ hK]; rw [e1] at hde
      exact h.coh.de _ _ _ _ _ hde (willFetch_next hn hK)
    · intro pc pc' word hde hK
      rw [hkept _ hK]; rw [e1] at hde
      exact h.coh.tok _ _ _ hde (willFetch_next hn hK)
    · intro pc word pn hfd hK
      rw [hkept _ hK]; rw [e2] at hfd
      exact h.coh.fd _ _ _ hfd (willFetch_next hn hK)
    · intro a line hl hb hK ha
      rw [hkept _ hK]; rw [e3, e4] at hl; rw [e4] at hb ⊢
      exact h.coh.line _ _ hl hb (willFetch_next hn hK) ha

/-- An error of Execute is the reference's next error -/
theorem execute_error_matches {v s t : State} (hS : StructureInv t) (h : Mid v t) (hI : ExecutionInv s) (hde' : t.de = s.de)
    (hw : writeBack s = .ok t) (hn : ∀ n, t.cfg.stop = .retireCount n → t.retired < n) {e : FatalError}
    (hx : executeStage t.de = .error e) : sequentialStep v = .next (raise e v) := by
  have hn' : ∀ n, v.cfg.stop = .retireCount n → v.retired < n := by rw [h.cfg, h.retired]; exact hn
  have hgo : ∀ pc, v.fpc = pc → v.cfg.stop ≠ .haltAt pc → stopsHere v = false := by
    intro pc hp hne
    unfold stopsHere
    cases hs : v.cfg.stop with
    | haltAt h => rw [hs] at hne; subst hp; simpa [eq_comm] using hne
    | retireCount n => have := hn' n hs; simp; omega
  rcases executeStage_error hx with ⟨pc, hde⟩ | ⟨pc, ins, a, b, pn, hde, hxe⟩
  · have hpc : v.fpc = pc := by rw [h.fpc]; simp [State.pcAfterEw, hde, DeLatch.pc?]
    cases hS.deToken _ _ hde with
    | fetch err hf =>
      cases hf with
      | misaligned ha hs =>
        have hg := hgo pc hpc (by rw [h.cfg]; exact hs)
        unfold sequentialStep
        rw [h.status]
        subst hpc
        have ha : ¬ v.fpc.toNat % 4 = 0 := ha
        simp [hg, ha]
      | outOfBounds ha hb hs =>
        have hg := hgo pc hpc (by rw [h.cfg]; exact hs)
        unfold sequentialStep
        rw [h.status]
        subst hpc
        have ha : v.fpc.toNat % 4 = 0 := ha
        rw [← h.cfg] at hb
        simp [hg, ha, hb]
    | unknown word hd ha =>
      have hf := fetches_of_address h.status hpc (by rw [h.cfg]; exact ha) hn'
      have hword := h.coh.tok _ _ _ hde (hpc ▸ willFetch_now hf)
      rw [← h.mem, ← hpc] at hword
      rw [seqStep_unknown hf (by rw [hword]; exact hd), hword, hpc]
  · have hpc : v.fpc = pc := by rw [h.fpc]; simp [State.pcAfterEw, hde, DeLatch.pc?]
    have hf := fetches_of_address h.status hpc (by rw [h.cfg]; exact hS.deAddress _ _ _ _ _ hde) hn'
    have hd := h.coh.de _ _ _ _ _ hde (hpc ▸ willFetch_now hf)
    rw [← h.mem, ← hpc] at hd
    rw [seqStep_exec hf hd, exec_eq_runAlone]
    have hs : s.de = .decoded pc ins a b pn := by rw [← hde']; exact hde
    obtain ⟨h1, h2⟩ := hI.operands _ _ _ _ _ hs
    have hlock := fun pc' ins' result addr data rd he hl hrd h0 => hI.interlock _ _ _ _ _ pc' ins' result addr data rd hs he hl hrd h0
    rw [operand_after_writeBack hw hlock (mem_srcs1 (i := ins))] at h1
    rw [operand_after_writeBack hw hlock (mem_srcs2 (i := ins))] at h2
    unfold runAlone
    rw [readSource_congr h.regs, readSource_congr h.regs, ← h1, ← h2, hpc, hxe]

/-- The rest of a tick leaves the next address to retire as Write-back left it. -/
theorem pcToRetire_advance {t : State} {x : ExecuteOut} (hx : executeStage t.de = .ok x) :
    (advance t x).pcToRetire = t.pcAfterEw := by
  have ha := advance_cases hx
  generalize advance t x = u at ha
  cases executeStage_cases hx with
  | executed pc ins a b pn c hde hc =>
    cases ha <;> simp [State.pcToRetire, EwLatch.pc?, State.pcAfterEw, hde, DeLatch.pc?]
  | bubble hde =>
    cases ha with
    | stall hd hr =>
      have hc := decodeStage_cases t none
      simp only at hd
      rw [hd] at hc
      cases hc with
      | stall pc word pn d h hdec hs =>
        rw [hde] at hs; simp [loadUse] at hs
    | redirect target hr => cases hr
    | pass de hd hr =>
      have hde' : t.de.pc? = none := by rw [hde]; rfl
      simp only [State.pcToRetire, EwLatch.pc?, State.pcAfterEw, State.pcAfterDe, hde', decode_pc hd, Option.getD_none]
      rw [fetch_pc]

/-- A tick whose Write-back raises changes cycles and the status alone. -/
theorem tick_of_writeBack_error {s : State} {e : FatalError} (hr : s.status = .running)
    (hw : writeBack { s with cycles := s.cycles + 1 } = .error e) : tick s = raise e { s with cycles := s.cycles + 1 } := by
  have ht : tick s = tickRunning s := by simp [tick, hr]
  rw [ht]; unfold tickRunning; simp only [hw]

/-- A tick leaves registers, memory and the retirement count as its Write-back left them, and while the core runs, the next
to retire is the oldest instruction behind EW. -/
theorem tick_after_writeBack {s t : State} (hr : s.status = .running)
    (hw : writeBack { s with cycles := s.cycles + 1 } = .ok t) :
    SameResults (tick s) t ∧ ((tick s).status = .running → (tick s).pcToRetire = s.pcAfterEw) := by
  have hc := tick_cases hr
  have hfr := (writeBack_frame hw).1
  generalize tick s = u at hc
  cases hc with
  | raiseWriteBack e hw' => rw [hw'] at hw; cases hw
  | stop t' hw' hst => rw [hw'] at hw; cases hw; exact ⟨⟨rfl, rfl, rfl⟩, fun h => by cases h⟩
  | raiseExecute t' e hw' hst hx => rw [hw'] at hw; cases hw; exact ⟨⟨rfl, rfl, rfl⟩, fun h => by cases h⟩
  | advance t' x hw' hst hx =>
    rw [hw'] at hw; cases hw
    obtain ⟨b1, b2, b3, _⟩ := advance_frame hx
    rcases checkHaltAt_cases (advance t x) with ⟨h1, _⟩ | ⟨h1, _⟩ <;> rw [h1]
    · exact ⟨⟨b1, b2, b3⟩, fun _ => by rw [pcToRetire_advance hx, hfr]; rfl⟩
    · exact ⟨⟨b1, b2, b3⟩, fun h => by cases h⟩

/-- Fetch keeps what is in flight coherent with memory. -/
theorem coherent_fetch {K : Word → Prop} {t : State} (hS : StructureInv t) (h : Coherent K t) :
    (∀ pc word pn, (fetchStage t).fd = .fetched pc word pn → K pc → word = wordAt t.mem pc) ∧
    (∀ a line, lineAt (fetchStage t).state.l1i (lineIndex t.cfg a) = some line → line.base = lineBase t.cfg a → K a →
      wordAligned a → lineWord t.cfg line a = wordAt t.mem a) := by
  have hf := fetchStage_cases t
  have hidx : lineIndex t.cfg t.fpc < t.l1i.length := by rw [hS.lineCount]; exact lineIndex_lt hS.params _
  generalize fetchStage t = f at hf
  cases hf with
  | wait hw => exact ⟨fun _ _ _ hp => (by cases hp), h.line⟩
  | idle hw hs => exact ⟨fun _ _ _ hp => (by cases hp), h.line⟩
  | token err hw hs he => exact ⟨fun _ _ _ hp => (by cases hp), h.line⟩
  | arrive hw =>
    refine ⟨fun pc word pn hp hK => ?_, h.line⟩
    cases hp
    obtain ⟨_, ha, line, hl, hb⟩ := hS.waiting (by omega)
    rw [deliveredWord, hl]
    exact h.line _ _ hl hb hK ha.aligned
  | hit word hw hs ha hb hl =>
    refine ⟨fun pc word pn hp hK => ?_, h.line⟩
    cases hp
    obtain ⟨line, h1, h2, rfl⟩ := lookup_eq_some.1 hl
    exact h.line _ _ h1 h2 hK ha
  | miss hw hs ha hb hl =>
    refine ⟨fun _ _ _ hp => (by cases hp), fun a line hl hbase hK hal => ?_⟩
    simp only [lineAt_fill hidx] at hl
    split at hl
    · cases hl
      exact lineWord_fill hS.params hbase hal
    · exact h.line a line hl hbase hK hal

/-- The rest of a tick, after Write-back, keeps the relation. -/
theorem sim_advance {v t : State} {x : ExecuteOut} (hS : StructureInv t) (h : Mid v t) (hx : executeStage t.de = .ok x)
    (hinv : CoreInv (advance t x)) : Sim v (advance t x) := by
  have hpc := pcToRetire_advance hx
  have ha := advance_cases hx
  obtain ⟨_, _, _, _, _, hf⟩ := fetchStage_frame t
  obtain ⟨hc1, hc2⟩ := coherent_fetch hS h.coh
  have hew : ∀ pc ins result addr data, x.ew = .executed pc ins result addr data → WillFetch v pc →
      decode (wordAt t.mem pc) = .ok ins := by
    intro pc ins result addr data he hK
    cases executeStage_cases hx with
    | bubble => cases he
    | executed pc ins a b pn c hde hc => cases he; exact h.coh.de _ _ _ _ _ hde hK
  generalize advance t x = u at ha hpc hinv
  have fs : (fetchStage t).state.cfg = t.cfg ∧ (fetchStage t).state.regs = t.regs ∧ (fetchStage t).state.mem = t.mem ∧
      (fetchStage t).state.retired = t.retired ∧ (fetchStage t).state.status = t.status := by rw [hf]; simp
  obtain ⟨f1, f2, f3, f4, f5⟩ := fs
  cases ha with
  | stall hd hr =>
    refine ⟨hinv, h.trun, ⟨h.cfg, h.regs, h.mem, by rw [h.fpc, ← hpc]; rfl, h.retired, by rw [h.status]; exact h.trun.symm⟩, h.code, hew, ?_⟩
    exact ⟨fun _ _ _ _ _ hp => (by cases hp), fun _ _ _ hp => (by cases hp), h.coh.fd, h.coh.line⟩
  | redirect target hr =>
    refine ⟨hinv, by rw [redirectTo_status, f5]; exact h.trun, ⟨by simp [State.sequentialView, f1, h.cfg], by simp [State.sequentialView, f2, h.regs], by simp [State.sequentialView, f3, h.mem],
      by rw [h.fpc, ← hpc]; rfl, by simp [State.sequentialView, f4, h.retired], by simp [State.sequentialView, f5, h.status, h.trun]⟩, h.code, by simpa [f3] using hew, ?_⟩
    exact ⟨fun _ _ _ _ _ hp => (by cases hp), fun _ _ _ hp => (by cases hp), fun _ _ _ hp => (by cases hp), by simpa [f1, f3] using hc2⟩
  | pass de hd hr =>
    have hdc := decodeStage_cases t x.forward
    rw [hd] at hdc
    refine ⟨hinv, by simp [f5, h.trun], ⟨by simp [State.sequentialView, f1, h.cfg], by simp [State.sequentialView, f2, h.regs], by simp [State.sequentialView, f3, h.mem],
      by rw [h.fpc, ← hpc]; rfl, by simp [State.sequentialView, f4, h.retired], by simp [State.sequentialView, f5, h.status, h.trun]⟩, h.code, by simpa [f3] using hew, ?_⟩
    refine ⟨?_, ?_, by simpa [f3] using hc1, by simpa [f1, f3] using hc2⟩
    · intro pc ins a b pn hp hK
      simp only at hp
      subst hp
      cases hdc with
      | decoded _ word _ _ hfd hdw _ => simp only [f3]; rw [← h.coh.fd _ _ _ hfd hK]; exact hdw
    · intro pc pc' word hp hK
      simp only at hp
      subst hp
      cases hdc with
      | token _ _ hfd => have := hS.fdToken _ _ hfd; cases this
      | unknown _ _ _ hfd hdw => simp only [f3]; exact (h.coh.fd _ _ _ hfd hK).symm

/-- A tick that goes on after Write-back has not reached N retirements (R164). -/
theorem retired_lt_of_not_reached {s t : State} (hI : ExecutionInv s) (hw : writeBack s = .ok t)
    (hs : retireCountReached s t = false) : ∀ n, t.cfg.stop = .retireCount n → t.retired < n := by
  obtain ⟨hfr, hret⟩ := writeBack_frame hw
  have hcfg : t.cfg = s.cfg := by rw [hfr]
  intro n hn
  have hp := hI.policy
  have hst : s.cfg.stop = .retireCount n := by rw [← hn, hcfg]
  simp only [hst] at hp
  simp only [retireCountReached, hst] at hs
  split at hret <;> rename_i he
  · omega
  · have := of_decide_eq_false hs
    simp only [ne_eq, he, not_false_eq_true, true_and] at this
    omega

/-- One tick: the simulation goes on, with one reference step iff an instruction retires, or both ends are the same. -/
theorem sim_tick {v s : State} (h : Sim v s) :
    (∃ v', ((s.ew = .empty ∧ v' = v) ∨ (s.ew ≠ .empty ∧ sequentialStep v = .next v')) ∧ Sim v' (tick s)) ∨
    ((tick s).status ≠ .running ∧ ∃ k, SameEnd (sequentialRun k v) (tick s)) := by
  have hinv := inv_tick h.inv h.run
  have h1 := sim_cycles h (s.cycles + 1)
  have hI := h1.inv.execution h1.run
  have hc := tick_cases h.run
  generalize tick s = s' at hc hinv
  have run1 : ∀ {v w : State}, sequentialStep v = .next w → sequentialRun 1 v = w := by
    intro v w hw; simp [sequentialRun, hw]
  have run2 : ∀ {v w u : State}, sequentialStep v = .next w → sequentialStep w = .next u → sequentialRun 2 v = u := by
    intro v w u h1 h2; simp [sequentialRun, h1, h2]
  cases hc with
  | raiseWriteBack e hw =>
    obtain ⟨pc, ins, r, a, d, he, _⟩ := writeBack_error hw
    obtain ⟨_, _, herr, _⟩ := retire_matches h1 he
    refine .inr ⟨by simp, 1, ?_⟩
    rw [run1 (herr e hw)]
    exact ⟨rfl, h.agree.regs, h.agree.mem, h.agree.retired⟩
  | stop t hw hs =>
    obtain ⟨v', hv, hm⟩ := mid_of_writeBack h1 hw
    refine .inr ⟨by simp, 2, ?_⟩
    have hst : ∃ n, t.cfg.stop = .retireCount n ∧ t.retired = n ∧ s.ew ≠ .empty := by
      obtain ⟨hfr, _⟩ := writeBack_frame hw
      have hcfg : t.cfg = s.cfg := by rw [hfr]
      unfold retireCountReached at hs
      cases hst : s.cfg.stop with
      | haltAt _ => simp [hst] at hs
      | retireCount n =>
        simp only [hst] at hs
        have := of_decide_eq_true hs
        exact ⟨n, by rw [hcfg, hst], this.2, this.1⟩
    obtain ⟨n, hn, hrn, hew⟩ := hst
    rcases hv with ⟨he, _⟩ | ⟨_, hv⟩
    · exact absurd he hew
    · have hstep : sequentialStep v' = .next { v' with status := .stopped } := by
        unfold sequentialStep
        rw [hm.status]
        have : stopsHere v' = true := by
          unfold stopsHere; rw [hm.cfg, hn]; simp [hm.retired, hrn]
        simp [this]
      rw [run2 hv hstep]
      exact ⟨rfl, hm.regs, hm.mem, hm.retired⟩
  | raiseExecute t e hw hs hx =>
    obtain ⟨v', hv, hm⟩ := mid_of_writeBack h1 hw
    have hS := structure_writeBack h1.inv.structural hw
    obtain ⟨hfr, _⟩ := writeBack_frame hw
    have hstep := execute_error_matches hS hm hI (by rw [hfr]) hw (retired_lt_of_not_reached hI hw hs) hx
    refine .inr ⟨by simp, ?_⟩
    rcases hv with ⟨_, rfl⟩ | ⟨_, hv⟩
    · exact ⟨1, by rw [run1 hstep]; exact ⟨rfl, hm.regs, hm.mem, hm.retired⟩⟩
    · exact ⟨2, by rw [run2 hv hstep]; exact ⟨rfl, hm.regs, hm.mem, hm.retired⟩⟩
  | advance t x hw hs hx =>
    obtain ⟨v', hv, hm⟩ := mid_of_writeBack h1 hw
    have hS := structure_writeBack h1.inv.structural hw
    rcases checkHaltAt_cases (advance t x) with ⟨hce, hno⟩ | ⟨hce, hst, hdr⟩
    · rw [hce] at hinv ⊢
      exact .inl ⟨v', hv, sim_advance hS hm hx hinv⟩
    · rw [hce]
      refine .inr ⟨by simp, ?_⟩
      have hfacts : (advance t x).cfg = t.cfg ∧ (advance t x).regs = t.regs ∧ (advance t x).mem = t.mem ∧
          (advance t x).retired = t.retired := by
        obtain ⟨_, _, _, _, _, hf⟩ := fetchStage_frame t
        have ha := advance_cases hx
        generalize advance t x = u at ha
        cases ha <;> simp [hf]
      obtain ⟨a1, a2, a3, a4⟩ := hfacts
      have hpc : v'.fpc = (advance t x).fpc := by
        rw [hm.fpc, ← pcToRetire_advance hx]
        obtain ⟨e1, e2, e3, _⟩ := of_decide_eq_true hdr
        simp [State.pcToRetire, State.pcAfterEw, State.pcAfterDe, e1, e2, e3, EwLatch.pc?, DeLatch.pc?, FdLatch.pc?]
      have hstep : sequentialStep v' = .next { v' with status := .stopped } := by
        unfold sequentialStep
        rw [hm.status]
        have : stopsHere v' = true := by
          unfold stopsHere; rw [hm.cfg, ← a1, hst]; simp [hpc]
        simp [this]
      rcases hv with ⟨_, rfl⟩ | ⟨_, hv⟩
      · exact ⟨1, by rw [run1 hstep]; exact ⟨rfl, by simp [hm.regs, a2], by simp [hm.mem, a3], by simp [hm.retired, a4]⟩⟩
      · exact ⟨2, by rw [run2 hv hstep]; exact ⟨rfl, by simp [hm.regs, a2], by simp [hm.mem, a3], by simp [hm.retired, a4]⟩⟩

end Sys2Proof.Machine
end

