-- ==== Sys2Proof/Tests/Slice0.lean ====
section
/-! SUPPORT. The model's own tests, each by decide, and a witness for every obligation that has hypotheses. Expected results are
the spec's: its encodings (30_encoding.md R62, R73), the examples of its instruction rules, and 95_test_vectors.md. -/

namespace Sys2Proof.Machine

/-! ### Small states -/

/-- A state after reset with the fetch PC and x1 and x2 set. -/
def stateWith (pc x1 x2 : Word) : State :=
  { State.reset with fpc := pc, regs := (State.reset.regs.set 1 x1).set 2 x2 }

/-- The memory image of 42_loads_stores.md R112: 0x80, 0x7F, 0xFE, 0xFF at 0x100. -/
def imageR112 : Memory := [(0x100, 0x80#8), (0x101, 0x7F#8), (0x102, 0xFE#8), (0x103, 0xFF#8)]

/-- That image, with x1 and x2 set. -/
def loadState (x1 x2 : Word) : State := { stateWith 0 x1 x2 with mem := imageR112 }

/-- The next state of an outcome, if it is one. -/
def nextOf : Host.Outcome State Fault Refusal → Option State
  | .next t => some t
  | .fault _ => none
  | .refused _ => none

/-- What a test of one instruction looks at: a register, the pc and the retirement count. -/
def seen (r : RegIdx) (o : Host.Outcome State Fault Refusal) : Option (Word × Word × Nat) :=
  (nextOf o).map fun t => (t.readReg r, t.fpc, t.retired)

/-- The status an outcome's state has. -/
def statusOf (o : Host.Outcome State Fault Refusal) : Option RunStatus := (nextOf o).map fun t => t.status

/-! ### WellFormed refuses ill-formed terms (R63 to R67) -/

theorem test_wf_refuses_imm12_above : Instr.wf (.addi 1#5 2#5 2048#32) = false := by decide
theorem test_wf_refuses_imm12_below : Instr.wf (.lw 1#5 2#5 0xFFFFF7FF#32) = false := by decide
theorem test_wf_refuses_imm12_store : Instr.wf (.sw 1#5 2#5 2048#32) = false := by decide
theorem test_wf_refuses_imm12_jalr : Instr.wf (.jalr 1#5 2#5 0xFFFFF7FF#32) = false := by decide
theorem test_wf_refuses_branch_odd : Instr.wf (.beq 1#5 2#5 3#32) = false := by decide
theorem test_wf_refuses_branch_above : Instr.wf (.bne 1#5 2#5 4096#32) = false := by decide
theorem test_wf_refuses_branch_below : Instr.wf (.bgeu 1#5 2#5 0xFFFFEFFE#32) = false := by decide
theorem test_wf_refuses_jal_odd : Instr.wf (.jal 1#5 1#32) = false := by decide
theorem test_wf_refuses_jal_above : Instr.wf (.jal 1#5 0x00100000#32) = false := by decide
theorem test_wf_refuses_jal_below : Instr.wf (.jal 1#5 0xFFEFFFFE#32) = false := by decide
theorem test_wf_refuses_lui_low_bits : Instr.wf (.lui 1#5 0x12345001#32) = false := by decide
theorem test_wf_refuses_auipc_low_bits : Instr.wf (.auipc 1#5 0x00000800#32) = false := by decide
theorem test_wf_accepts_the_ends_of_the_ranges :
    ([.addi 1#5 2#5 2047#32, .addi 1#5 2#5 0xFFFFF800#32, .beq 1#5 2#5 4094#32, .beq 1#5 2#5 0xFFFFF000#32,
      .jal 1#5 0x000FFFFE#32, .jal 1#5 0xFFF00000#32, .lui 1#5 0xFFFFF000#32] : List Instr).all Instr.wf = true := by decide

/-! ### Decoding words written out from R62 and R73, one for every constructor -/

theorem test_decode_lui : decode (0b10100101110000111001#20 ++ 0b00111#5 ++ 0b0110111#7 : BitVec 32) =
    .ok (.lui 7#5 0xA5C39000#32) := by decide
theorem test_decode_auipc : decode (0b01011010001111000110#20 ++ 0b00111#5 ++ 0b0010111#7 : BitVec 32) =
    .ok (.auipc 7#5 0x5A3C6000#32) := by decide
theorem test_decode_jal : decode (0b1#1 ++ 0b0100101101#10 ++ 0b1#1 ++ 0b10100101#8 ++ 0b00111#5 ++ 0b1101111#7 : BitVec 32) =
    .ok (.jal 7#5 0xFFFA5A5A#32) := by decide
theorem test_decode_jalr : decode (0b111111111101#12 ++ 0b01101#5 ++ 0b000#3 ++ 0b00111#5 ++ 0b1100111#7 : BitVec 32) =
    .ok (.jalr 7#5 13#5 0xFFFFFFFD#32) := by decide
theorem test_decode_beq : decode (0b0#1 ++ 0b010010#6 ++ 0b10010#5 ++ 0b01101#5 ++ 0b000#3 ++ 0b1101#4 ++ 0b1#1 ++ 0b1100011#7 : BitVec 32) =
    .ok (.beq 13#5 18#5 0x00000A5A#32) := by decide
theorem test_decode_bne : decode (0b1#1 ++ 0b010010#6 ++ 0b10010#5 ++ 0b01101#5 ++ 0b001#3 ++ 0b1101#4 ++ 0b1#1 ++ 0b1100011#7 : BitVec 32) =
    .ok (.bne 13#5 18#5 0xFFFFFA5A#32) := by decide
theorem test_decode_blt : decode (0b0#1 ++ 0b000000#6 ++ 0b10010#5 ++ 0b01101#5 ++ 0b100#3 ++ 0b1001#4 ++ 0b1#1 ++ 0b1100011#7 : BitVec 32) =
    .ok (.blt 13#5 18#5 0x00000812#32) := by decide
theorem test_decode_bge : decode (0b1#1 ++ 0b000000#6 ++ 0b10010#5 ++ 0b01101#5 ++ 0b101#3 ++ 0b0000#4 ++ 0b0#1 ++ 0b1100011#7 : BitVec 32) =
    .ok (.bge 13#5 18#5 0xFFFFF000#32) := by decide
theorem test_decode_bltu : decode (0b0#1 ++ 0b111111#6 ++ 0b10010#5 ++ 0b01101#5 ++ 0b110#3 ++ 0b1111#4 ++ 0b1#1 ++ 0b1100011#7 : BitVec 32) =
    .ok (.bltu 13#5 18#5 0x00000FFE#32) := by decide
theorem test_decode_bgeu : decode (0b1#1 ++ 0b111111#6 ++ 0b10010#5 ++ 0b01101#5 ++ 0b111#3 ++ 0b1111#4 ++ 0b1#1 ++ 0b1100011#7 : BitVec 32) =
    .ok (.bgeu 13#5 18#5 0xFFFFFFFE#32) := by decide
theorem test_decode_lb : decode (0b100000000000#12 ++ 0b01101#5 ++ 0b000#3 ++ 0b00111#5 ++ 0b0000011#7 : BitVec 32) =
    .ok (.lb 7#5 13#5 0xFFFFF800#32) := by decide
theorem test_decode_lh : decode (0b011111111111#12 ++ 0b01101#5 ++ 0b001#3 ++ 0b00111#5 ++ 0b0000011#7 : BitVec 32) =
    .ok (.lh 7#5 13#5 0x000007FF#32) := by decide
theorem test_decode_lw : decode (0b111111111100#12 ++ 0b01101#5 ++ 0b010#3 ++ 0b00111#5 ++ 0b0000011#7 : BitVec 32) =
    .ok (.lw 7#5 13#5 0xFFFFFFFC#32) := by decide
theorem test_decode_lbu : decode (0b010110100011#12 ++ 0b01101#5 ++ 0b100#3 ++ 0b00111#5 ++ 0b0000011#7 : BitVec 32) =
    .ok (.lbu 7#5 13#5 0x000005A3#32) := by decide
theorem test_decode_lhu : decode (0b110110100100#12 ++ 0b01101#5 ++ 0b101#3 ++ 0b00111#5 ++ 0b0000011#7 : BitVec 32) =
    .ok (.lhu 7#5 13#5 0xFFFFFDA4#32) := by decide
theorem test_decode_sb : decode (0b1000000#7 ++ 0b10010#5 ++ 0b01101#5 ++ 0b000#3 ++ 0b00000#5 ++ 0b0100011#7 : BitVec 32) =
    .ok (.sb 13#5 18#5 0xFFFFF800#32) := by decide
theorem test_decode_sh : decode (0b0101101#7 ++ 0b10010#5 ++ 0b01101#5 ++ 0b001#3 ++ 0b00011#5 ++ 0b0100011#7 : BitVec 32) =
    .ok (.sh 13#5 18#5 0x000005A3#32) := by decide
theorem test_decode_sw : decode (0b1111111#7 ++ 0b10010#5 ++ 0b01101#5 ++ 0b010#3 ++ 0b11000#5 ++ 0b0100011#7 : BitVec 32) =
    .ok (.sw 13#5 18#5 0xFFFFFFF8#32) := by decide
theorem test_decode_addi : decode (0b111111111001#12 ++ 0b01101#5 ++ 0b000#3 ++ 0b00111#5 ++ 0b0010011#7 : BitVec 32) =
    .ok (.addi 7#5 13#5 0xFFFFFFF9#32) := by decide
theorem test_decode_slti : decode (0b011111111111#12 ++ 0b01101#5 ++ 0b010#3 ++ 0b00111#5 ++ 0b0010011#7 : BitVec 32) =
    .ok (.slti 7#5 13#5 0x000007FF#32) := by decide
theorem test_decode_sltiu : decode (0b111111111111#12 ++ 0b01101#5 ++ 0b011#3 ++ 0b00111#5 ++ 0b0010011#7 : BitVec 32) =
    .ok (.sltiu 7#5 13#5 0xFFFFFFFF#32) := by decide
theorem test_decode_xori : decode (0b000011110000#12 ++ 0b01101#5 ++ 0b100#3 ++ 0b00111#5 ++ 0b0010011#7 : BitVec 32) =
    .ok (.xori 7#5 13#5 0x000000F0#32) := by decide
theorem test_decode_ori : decode (0b000011111111#12 ++ 0b01101#5 ++ 0b110#3 ++ 0b00111#5 ++ 0b0010011#7 : BitVec 32) =
    .ok (.ori 7#5 13#5 0x000000FF#32) := by decide
theorem test_decode_andi : decode (0b111111110000#12 ++ 0b01101#5 ++ 0b111#3 ++ 0b00111#5 ++ 0b0010011#7 : BitVec 32) =
    .ok (.andi 7#5 13#5 0xFFFFFFF0#32) := by decide
theorem test_decode_slli : decode (0b0000000#7 ++ 0b10101#5 ++ 0b01101#5 ++ 0b001#3 ++ 0b00111#5 ++ 0b0010011#7 : BitVec 32) =
    .ok (.slli 7#5 13#5 21#5) := by decide
theorem test_decode_srli : decode (0b0000000#7 ++ 0b10101#5 ++ 0b01101#5 ++ 0b101#3 ++ 0b00111#5 ++ 0b0010011#7 : BitVec 32) =
    .ok (.srli 7#5 13#5 21#5) := by decide
theorem test_decode_srai : decode (0b0100000#7 ++ 0b10101#5 ++ 0b01101#5 ++ 0b101#3 ++ 0b00111#5 ++ 0b0010011#7 : BitVec 32) =
    .ok (.srai 7#5 13#5 21#5) := by decide
theorem test_decode_add : decode (0b0000000#7 ++ 0b10010#5 ++ 0b01101#5 ++ 0b000#3 ++ 0b00111#5 ++ 0b0110011#7 : BitVec 32) =
    .ok (.add 7#5 13#5 18#5) := by decide
theorem test_decode_sub : decode (0b0100000#7 ++ 0b10010#5 ++ 0b01101#5 ++ 0b000#3 ++ 0b00111#5 ++ 0b0110011#7 : BitVec 32) =
    .ok (.sub 7#5 13#5 18#5) := by decide
theorem test_decode_sll : decode (0b0000000#7 ++ 0b10010#5 ++ 0b01101#5 ++ 0b001#3 ++ 0b00111#5 ++ 0b0110011#7 : BitVec 32) =
    .ok (.sll 7#5 13#5 18#5) := by decide
theorem test_decode_slt : decode (0b0000000#7 ++ 0b10010#5 ++ 0b01101#5 ++ 0b010#3 ++ 0b00111#5 ++ 0b0110011#7 : BitVec 32) =
    .ok (.slt 7#5 13#5 18#5) := by decide
theorem test_decode_sltu : decode (0b0000000#7 ++ 0b10010#5 ++ 0b01101#5 ++ 0b011#3 ++ 0b00111#5 ++ 0b0110011#7 : BitVec 32) =
    .ok (.sltu 7#5 13#5 18#5) := by decide
theorem test_decode_xor : decode (0b0000000#7 ++ 0b10010#5 ++ 0b01101#5 ++ 0b100#3 ++ 0b00111#5 ++ 0b0110011#7 : BitVec 32) =
    .ok (.xor 7#5 13#5 18#5) := by decide
theorem test_decode_srl : decode (0b0000000#7 ++ 0b10010#5 ++ 0b01101#5 ++ 0b101#3 ++ 0b00111#5 ++ 0b0110011#7 : BitVec 32) =
    .ok (.srl 7#5 13#5 18#5) := by decide
theorem test_decode_sra : decode (0b0100000#7 ++ 0b10010#5 ++ 0b01101#5 ++ 0b101#3 ++ 0b00111#5 ++ 0b0110011#7 : BitVec 32) =
    .ok (.sra 7#5 13#5 18#5) := by decide
theorem test_decode_or : decode (0b0000000#7 ++ 0b10010#5 ++ 0b01101#5 ++ 0b110#3 ++ 0b00111#5 ++ 0b0110011#7 : BitVec 32) =
    .ok (.or 7#5 13#5 18#5) := by decide
theorem test_decode_and : decode (0b0000000#7 ++ 0b10010#5 ++ 0b01101#5 ++ 0b111#3 ++ 0b00111#5 ++ 0b0110011#7 : BitVec 32) =
    .ok (.and 7#5 13#5 18#5) := by decide

/-! ### Illegal words (R74), and the opcode table (R73) -/

/-- Words of R74's classes: zero, all ones, FENCE, FENCE.I, ECALL, EBREAK, CSRRW, MUL, an AMO, JALR with funct3 1, BRANCH with
funct3 2, LD, LWU, SD, a shift immediate with shamt[5] = 1, SUB's funct7 with funct3 7, custom-0, c.nop. -/
theorem test_illegal_words :
    ([0x00000000#32, 0xFFFFFFFF#32, 0x0FF0000F#32, 0x0000100F#32, 0x00000073#32, 0x00100073#32, 0x30001073#32, 0x02208033#32,
      0x1000202F#32, 0x00001067#32, 0x00002063#32, 0x00003003#32, 0x00006003#32, 0x00003023#32, 0x02009013#32, 0x40007033#32,
      0x0000000B#32, 0x00000001#32] : List Word).all (fun w => decide (decode w = .error (.unknownInstruction w))) = true := by
  decide

theorem test_truncated_bytes_are_no_instruction : decodeBytes [0x13#8, 0x00#8, 0x00#8] = .error .truncated := by decide

theorem test_bytes_are_little_endian :
    decodeBytes [0xB3#8, 0x81#8, 0x20#8, 0x00#8, 0x55#8] = .ok (.add 3#5 1#5 2#5, [0x55#8]) := by decide

/-- No word matches two rows: on the bits that both masks fix, any two rows differ (R71). -/
theorem test_opcode_rows_are_disjoint :
    opcodeTable.Pairwise fun r q => (r.bits ^^^ q.bits) &&& (r.mask &&& q.mask) ≠ 0#32 := by decide

theorem test_opcode_rows_fix_only_masked_bits : opcodeTable.all (fun r => r.bits &&& r.mask == r.bits) = true := by decide

/-! ### One instruction at a time: the examples of the instruction rules -/

theorem test_exec_addi : seen 2#5 (exec (.addi 2#5 1#5 0xFFFFFFF9#32) (stateWith 0 5 0)) = some (0xFFFFFFFE#32, 4#32, 1) := by decide
theorem test_exec_addi_wraps : seen 2#5 (exec (.addi 2#5 1#5 1#32) (stateWith 0xFFFFFFFC#32 0x7FFFFFFF#32 0)) = some (0x80000000#32, 0#32, 1) := by decide
theorem test_exec_slti : seen 2#5 (exec (.slti 2#5 1#5 0#32) (stateWith 0 0xFFFFFFFF#32 0)) = some (1#32, 4#32, 1) := by decide
theorem test_exec_slti_most_negative : seen 2#5 (exec (.slti 2#5 1#5 0xFFFFF800#32) (stateWith 0 0x80000000#32 0)) = some (1#32, 4#32, 1) := by decide
theorem test_exec_sltiu : seen 2#5 (exec (.sltiu 2#5 1#5 0xFFFFFFFF#32) (stateWith 0 5 0)) = some (1#32, 4#32, 1) := by decide
theorem test_exec_sltiu_equal : seen 2#5 (exec (.sltiu 2#5 1#5 0xFFFFFFFF#32) (stateWith 0 0xFFFFFFFF#32 7)) = some (0#32, 4#32, 1) := by decide
theorem test_exec_xori : seen 2#5 (exec (.xori 2#5 1#5 0xFFFFFFFF#32) (stateWith 0 0x0F0F0F0F#32 0)) = some (0xF0F0F0F0#32, 4#32, 1) := by decide
theorem test_exec_ori : seen 2#5 (exec (.ori 2#5 1#5 0xFF#32) (stateWith 0 0x100#32 0)) = some (0x000001FF#32, 4#32, 1) := by decide
theorem test_exec_andi : seen 2#5 (exec (.andi 2#5 1#5 0xFFFFFFF0#32) (stateWith 0 0x12345678#32 0)) = some (0x12345670#32, 4#32, 1) := by decide
theorem test_exec_slli : seen 2#5 (exec (.slli 2#5 1#5 31#5) (stateWith 0 1 0)) = some (0x80000000#32, 4#32, 1) := by decide
theorem test_exec_srli : seen 2#5 (exec (.srli 2#5 1#5 31#5) (stateWith 0 0x80000000#32 0)) = some (1#32, 4#32, 1) := by decide
theorem test_exec_srai : seen 2#5 (exec (.srai 2#5 1#5 31#5) (stateWith 0 0x80000000#32 0)) = some (0xFFFFFFFF#32, 4#32, 1) := by decide
theorem test_exec_add : seen 3#5 (exec (.add 3#5 1#5 2#5) (stateWith 0 0x7FFFFFFF#32 1)) = some (0x80000000#32, 4#32, 1) := by decide
theorem test_exec_add_onto_source : seen 1#5 (exec (.add 1#5 1#5 1#5) (stateWith 0 0xFFFFFFFF#32 1)) = some (0xFFFFFFFE#32, 4#32, 1) := by decide
theorem test_exec_sub : seen 3#5 (exec (.sub 3#5 1#5 2#5) (stateWith 0 0 1)) = some (0xFFFFFFFF#32, 4#32, 1) := by decide
theorem test_exec_sll : seen 3#5 (exec (.sll 3#5 1#5 2#5) (stateWith 0 1 33)) = some (2#32, 4#32, 1) := by decide
theorem test_exec_slt : seen 3#5 (exec (.slt 3#5 1#5 2#5) (stateWith 0 0xFFFFFFFF#32 1)) = some (1#32, 4#32, 1) := by decide
theorem test_exec_sltu : seen 3#5 (exec (.sltu 3#5 1#5 2#5) (stateWith 0 0xFFFFFFFF#32 1)) = some (0#32, 4#32, 1) := by decide
theorem test_exec_xor : seen 3#5 (exec (.xor 3#5 1#5 2#5) (stateWith 0 0xFF00FF00#32 0x0FF00FF0#32)) = some (0xF0F0F0F0#32, 4#32, 1) := by decide
theorem test_exec_srl : seen 3#5 (exec (.srl 3#5 1#5 2#5) (stateWith 0 0xF0000000#32 4)) = some (0x0F000000#32, 4#32, 1) := by decide
theorem test_exec_srl_by_32 : seen 3#5 (exec (.srl 3#5 1#5 2#5) (stateWith 0 0xF0000000#32 32)) = some (0xF0000000#32, 4#32, 1) := by decide
theorem test_exec_sra : seen 3#5 (exec (.sra 3#5 1#5 2#5) (stateWith 0 0xF0000000#32 4)) = some (0xFF000000#32, 4#32, 1) := by decide
theorem test_exec_or : seen 3#5 (exec (.or 3#5 1#5 2#5) (stateWith 0 0xF0#32 0x0F#32)) = some (0xFF#32, 4#32, 1) := by decide
theorem test_exec_and : seen 3#5 (exec (.and 3#5 1#5 2#5) (stateWith 0 0xFF00#32 0x0FF0#32)) = some (0x0F00#32, 4#32, 1) := by decide
theorem test_exec_lui : seen 1#5 (exec (.lui 1#5 0x12345000#32) (stateWith 0 0 0)) = some (0x12345000#32, 4#32, 1) := by decide
theorem test_exec_auipc : seen 1#5 (exec (.auipc 1#5 0x1000#32) (stateWith 0x24#32 0 0)) = some (0x00001024#32, 40#32, 1) := by decide
theorem test_exec_auipc_wraps : seen 1#5 (exec (.auipc 1#5 0xFFFFF000#32) (stateWith 0x10#32 0 0)) = some (0xFFFFF010#32, 20#32, 1) := by decide
theorem test_exec_ori_into_x0 : seen 0#5 (exec (.ori 0#5 1#5 5#32) (stateWith 0 9 0)) = some (0#32, 4#32, 1) := by decide
theorem test_exec_lb : seen 2#5 (exec (.lb 2#5 1#5 0#32) (loadState 0x100#32 0)) = some (0xFFFFFF80#32, 4#32, 1) := by decide
theorem test_exec_lh : seen 2#5 (exec (.lh 2#5 1#5 2#32) (loadState 0x100#32 0)) = some (0xFFFFFFFE#32, 4#32, 1) := by decide
theorem test_exec_lw : seen 2#5 (exec (.lw 2#5 1#5 0xFFFFFFFC#32) (loadState 0x104#32 0)) = some (0xFFFE7F80#32, 4#32, 1) := by decide
theorem test_exec_lbu : seen 2#5 (exec (.lbu 2#5 1#5 3#32) (loadState 0x100#32 0)) = some (0x000000FF#32, 4#32, 1) := by decide
theorem test_exec_lhu : seen 2#5 (exec (.lhu 2#5 1#5 2#32) (loadState 0x100#32 0)) = some (0x0000FFFE#32, 4#32, 1) := by decide
theorem test_exec_jal : seen 1#5 (exec (.jal 1#5 2048#32) (stateWith 0 0 0)) = some (4#32, 2048#32, 1) := by decide
theorem test_exec_jalr : seen 1#5 (exec (.jalr 1#5 1#5 5#32) (stateWith 0x10#32 0x200#32 0)) = some (0x14#32, 516#32, 1) := by decide
theorem test_exec_beq : seen 1#5 (exec (.beq 1#5 2#5 16#32) (stateWith 0x100#32 7#32 7#32)) = some (7#32, 0x110#32, 1) := by decide
theorem test_exec_bne : seen 1#5 (exec (.bne 1#5 2#5 0xFFFFFFF8#32) (stateWith 0x100#32 1#32 2#32)) = some (1#32, 0x0F8#32, 1) := by decide
theorem test_exec_blt : seen 1#5 (exec (.blt 1#5 2#5 8#32) (stateWith 0x100#32 0xFFFFFFFF#32 1#32)) = some (0xFFFFFFFF#32, 0x108#32, 1) := by decide
theorem test_exec_bge : seen 1#5 (exec (.bge 1#5 2#5 8#32) (stateWith 0x100#32 1#32 0xFFFFFFFF#32)) = some (1#32, 0x108#32, 1) := by decide
theorem test_exec_bltu : seen 1#5 (exec (.bltu 1#5 2#5 8#32) (stateWith 0x100#32 1#32 0xFFFFFFFF#32)) = some (1#32, 0x108#32, 1) := by decide
theorem test_exec_bgeu : seen 1#5 (exec (.bgeu 1#5 2#5 8#32) (stateWith 0x100#32 0xFFFFFFFF#32 1#32)) = some (0xFFFFFFFF#32, 0x108#32, 1) := by decide
theorem test_exec_bne_not_taken_to_odd_word : seen 1#5 (exec (.bne 1#5 2#5 2#32) (stateWith 0x100#32 3#32 3#32)) = some (3#32, 0x104#32, 1) := by decide
theorem test_exec_blt_equal : seen 1#5 (exec (.blt 1#5 2#5 8#32) (stateWith 0x100#32 3#32 3#32)) = some (3#32, 0x104#32, 1) := by decide
theorem test_exec_bltu_not_taken : seen 1#5 (exec (.bltu 1#5 2#5 8#32) (stateWith 0x100#32 0xFFFFFFFF#32 1#32)) = some (0xFFFFFFFF#32, 0x104#32, 1) := by decide
theorem test_exec_bgeu_not_taken : seen 1#5 (exec (.bgeu 1#5 2#5 8#32) (stateWith 0x100#32 1#32 0xFFFFFFFF#32)) = some (1#32, 0x104#32, 1) := by decide
theorem test_exec_bge_equal : seen 1#5 (exec (.bge 1#5 2#5 8#32) (stateWith 0x100#32 3 3)) = some (3#32, 0x108#32, 1) := by decide
theorem test_exec_sb : (nextOf (exec (.sb 1#5 2#5 1#32) (loadState 0x100#32 0x12345678#32))).map (fun t => t.mem) =
    some [(0x100, 0x80#8), (0x101, 0x78#8), (0x102, 0xFE#8), (0x103, 0xFF#8)] := by decide
theorem test_exec_sh : (nextOf (exec (.sh 1#5 2#5 2#32) (loadState 0x100#32 0x12345678#32))).map (fun t => t.mem) =
    some [(0x100, 0x80#8), (0x101, 0x7F#8), (0x102, 0x78#8), (0x103, 0x56#8)] := by decide
theorem test_exec_sw : (nextOf (exec (.sw 1#5 2#5 0xFFFFFFF8#32) (loadState 0x108#32 0x12345678#32))).map (fun t => t.mem) =
    some [(0x100, 0x78#8), (0x101, 0x56#8), (0x102, 0x34#8), (0x103, 0x12#8)] := by decide
theorem test_exec_sw_of_zero_unlists : (nextOf (exec (.sw 1#5 0#5 0#32) (loadState 0x100#32 0x12345678#32))).map (fun t => t.mem) =
    some [] := by decide
theorem test_exec_lh_at_last_byte_is_misaligned : statusOf (exec (.lh 2#5 1#5 0#32) (loadState 4095#32 0)) = some (.halted (.misalignedAccess 0 4095#32 2)) := by decide
theorem test_exec_lw_below_zero : statusOf (exec (.lw 2#5 0#5 0xFFFFFFFC#32) (loadState 0 0)) = some (.halted (.memoryOutOfBounds 0 0xFFFFFFFC#32 4)) := by decide
theorem test_exec_sb_past_the_end : statusOf (exec (.sb 1#5 2#5 0#32) (loadState 4096#32 0)) = some (.halted (.memoryOutOfBounds 0 4096#32 1)) := by decide
theorem test_exec_lbu_into_x0_past_the_end : statusOf (exec (.lbu 0#5 1#5 0#32) (loadState 4096#32 0)) = some (.halted (.memoryOutOfBounds 0 4096#32 1)) := by decide
theorem test_exec_jalr_misaligned : statusOf (exec (.jalr 1#5 1#5 3#32) (stateWith 0x10#32 0x200#32 0)) = some (.halted (.misalignedAccess 0x10#32 0x202#32 4)) := by decide
theorem test_exec_jal_misaligned : statusOf (exec (.jal 1#5 2#32) (stateWith 0 0 0)) = some (.halted (.misalignedAccess 0 2#32 4)) := by decide
theorem test_exec_beq_misaligned : statusOf (exec (.beq 1#5 2#5 2#32) (stateWith 0x100#32 7 7)) = some (.halted (.misalignedAccess 0x100#32 0x102#32 4)) := by decide

/-! ### One step or one tick -/

/-- From reset with one instruction placed, the first step misses, waits, and retires it in its sixth cycle (R153, R171). -/
theorem test_first_step_runs_the_placed_word :
    (nextOf (step ((stateWith 0 0x7FFFFFFF#32 1).withFetchWord 32 0x002081B3))).map
      (fun t => (t.readReg 3#5, t.retired, t.cycles, t.l1iMisses)) = some (0x80000000#32, 1, 6, 1) := by decide

/-- From reset with nothing placed the first word is 0, an illegal one (R74, R136). -/
theorem test_reset_runs_into_an_illegal_word :
    statusOf (step State.reset) = some (.halted (.unknownInstruction 0#32 0#32)) := by decide

/-- A core in the middle of a run: EW, DE and FD each hold an instruction, and the line of address 0 is resident. -/
def busy (ew : EwLatch) (de : DeLatch) (fd : FdLatch) : State :=
  { stateWith 0x10#32 0x100#32 7#32 with
    mem := imageR112
    l1i := [some { base := 0#32, data := List.replicate 64 0x13#8 }]
    ew := ew, de := de, fd := fd, cycles := 9, retired := 3 }

/-- LW x2, 0(x1) in EW. -/
def lwInEw : EwLatch := .executed 4#32 (.lw 2#5 1#5 0#32) 0#32 0x100#32 0#32
/-- LW x2 in DE. -/
def lwInDe : DeLatch := .decoded 8#32 (.lw 2#5 1#5 0#32) 0x100#32 0#32 12#32
/-- ADD x3, x1, x1 in DE. -/
def addInDe : DeLatch := .decoded 8#32 (.add 3#5 1#5 1#5) 0x100#32 0x100#32 12#32
/-- A taken BEQ in DE. -/
def beqInDe : DeLatch := .decoded 8#32 (.beq 1#5 1#5 64#32) 0x100#32 0x100#32 12#32
/-- A taken BEQ in DE whose target is misaligned. -/
def beqMisalignedInDe : DeLatch := .decoded 8#32 (.beq 1#5 1#5 2#32) 0x100#32 0x100#32 12#32
/-- ADD x4, x2, x3 in FD (0x00310233). -/
def addInFd : FdLatch := .fetched 12#32 0x00310233#32 16#32

/-- The load-use stall (R159): FD held, a bubble in DE, no fetch. -/
theorem test_load_use_stall :
    let t := tick (busy .empty lwInDe addInFd)
    (t.fd, t.de, t.fpc, t.l1iHits) = (addInFd, .empty, 0x10#32, 0) := by decide

/-- Write-back before Decode in one tick, and forwarding from Execute (R157, R158): x2 from the load, x3 from the ADD. -/
theorem test_operands_from_write_back_and_forwarding :
    (tick (busy lwInEw addInDe addInFd)).de = .decoded 12#32 (.add 4#5 2#5 3#5) 0xFFFE7F80#32 0x200#32 16#32 := by decide

/-- A taken branch flushes FD and DE and redirects; the fetch of this tick still counts as a hit (R162). -/
theorem test_flush_and_redirect :
    let t := tick (busy .empty beqInDe addInFd)
    (t.fd, t.de, t.fpc, t.flushes, t.l1iHits) = (.empty, .empty, 72#32, 1, 1) := by decide

/-- An error at Write-back pre-empts a younger one at Execute, and nothing retires (R140, R142). -/
theorem test_older_error_wins :
    let t := tick (busy (.executed 4#32 (.lw 2#5 1#5 1#32) 0#32 0x101#32 0#32) beqMisalignedInDe addInFd)
    (t.status, t.retired, t.cycles) = (.halted (.misalignedAccess 4#32 0x101#32 4), 3, 10) := by decide

/-- A store into a resident line leaves the line stale, and the fetch of that tick returns the stale word (R57). -/
theorem test_stale_fetch :
    (tick (busy (.executed 4#32 (.sw 1#5 2#5 0#32) 0#32 0x10#32 0xFFFFFFFF#32) .empty .empty)).fd =
      .fetched 0x10#32 0x13131313#32 0x14#32 := by decide

/-- The halt address is never fetched, and the drained core stops there (R164). -/
theorem test_halt_at :
    let s := { stateWith 0x10#32 0 0 with cfg := { Params.conventional with stop := .haltAt 0x10#32 } }
    ((tick s).status, (tick s).l1iMisses, (tick s).cycles) = (.stopped, 0, 1) := by decide

/-- The N-th retirement ends the tick: the error of the younger branch is not raised (R164). -/
theorem test_retire_count :
    let s := { busy lwInEw beqMisalignedInDe addInFd with
      cfg := { Params.conventional with stop := .retireCount 4 } }
    ((tick s).status, (tick s).retired, (tick s).readReg 2#5) = (.stopped, 4, 0xFFFE7F80#32) := by decide

/-! ### Witnesses: for every obligation with hypotheses, states and operands that meet them, clause by clause -/

theorem witness_RegisterZeroIsHardwired : (31#5 : RegIdx) ≠ 0#5 ∧ (1#5 : RegIdx) ≠ 31#5 := by decide

/-- The conventional parameters with another policy. -/
def withStop (p : StopPolicy) : Params := { Params.conventional with stop := p }

theorem witness_LaunchSetsEveryPiece :
    ((withStop (.haltAt 0)).stop = .haltAt 0 ∧ (withStop (.haltAt 0)).entry = 0) ∧
    ((withStop (.haltAt 4)).stop = .haltAt 4 ∧ (withStop (.haltAt 4)).entry ≠ 4) ∧
    (withStop (.retireCount 0)).stop = .retireCount 0 ∧ (withStop (.retireCount 1)).stop = .retireCount 1 := by decide

theorem witness_ByteOrderIsLittleEndian : Memory.wf imageR112 ∧ 3 < 4 ∧ 1 < 2 ∧ 60 + 4 ≤ 64 := by decide

/-- Misaligned (and past the end besides); aligned and one byte past the end; at the top of the address space; and in EW. -/
theorem witness_DataAccessChecksRaise :
    (accessWidth (.lh 2#5 1#5 0#32) = some 2 ∧ (accessAddress (.lh 2#5 1#5 0#32) (loadState 4095 0)).toNat % 2 ≠ 0) ∧
    (accessWidth (.sw 1#5 2#5 4#32) = some 4 ∧ (accessAddress (.sw 1#5 2#5 4#32) (loadState 4092 0)).toNat % 4 = 0 ∧
      (loadState 4092 0).cfg.memSize < (accessAddress (.sw 1#5 2#5 4#32) (loadState 4092 0)).toNat + 4) ∧
    (accessWidth (.lb 2#5 1#5 0#32) = some 1 ∧
      (loadState 0 0).cfg.memSize < (accessAddress (.lb 2#5 0#5 0xFFFFFFFF#32) (loadState 0 0)).toNat + 1) ∧
    (busy (.executed 4#32 (.lw 2#5 1#5 1#32) 0#32 0x101#32 0#32) .empty .empty).ew =
      .executed 4#32 (.lw 2#5 1#5 1#32) 0#32 0x101#32 0#32 ∧ (0x101#32 : Word).toNat % 4 ≠ 0 ∧
    (busy (.executed 4#32 (.sb 1#5 2#5 0#32) 0#32 4096#32 0#32) .empty .empty).cfg.memSize < (4096#32 : Word).toNat + 1 := by
  decide

/-- The last byte, the last aligned half-word and the last word of memory. -/
theorem witness_LoadsCompleteWithExtendedValue :
    ((loadState 4095 0).readReg 1#5 + 0#32).toNat + 1 ≤ (loadState 4095 0).cfg.memSize ∧
    ((loadState 4094 0).readReg 1#5 + 0#32).toNat % 2 = 0 ∧
    ((loadState 4094 0).readReg 1#5 + 0#32).toNat + 2 ≤ (loadState 4094 0).cfg.memSize ∧
    ((loadState 4088 0).readReg 1#5 + 4#32).toNat % 4 = 0 ∧
    ((loadState 4088 0).readReg 1#5 + 4#32).toNat + 4 ≤ (loadState 4088 0).cfg.memSize := by decide

theorem witness_LoadIntoX0StillChecks :
    (.lw 0#5 1#5 0#32 : Instr) ∈ loadInstrs 0#5 1#5 0#32 ∧ accessWidth (.lw 0#5 1#5 0#32) = some 4 ∧
    (accessAddress (.lw 0#5 1#5 0#32) (loadState 2 0)).toNat % 4 ≠ 0 ∧
    ((accessAddress (.lw 0#5 1#5 0#32) (loadState 4096 0)).toNat % 4 = 0 ∧
      (loadState 4096 0).cfg.memSize < (accessAddress (.lw 0#5 1#5 0#32) (loadState 4096 0)).toNat + 4) ∧
    ((accessAddress (.lw 0#5 1#5 0#32) (loadState 4092 0)).toNat % 4 = 0 ∧
      (accessAddress (.lw 0#5 1#5 0#32) (loadState 4092 0)).toNat + 4 ≤ (loadState 4092 0).cfg.memSize) := by decide

theorem witness_StoresCompleteWithLowBytes :
    Memory.wf (loadState 4092 9).mem ∧ (.sw 1#5 2#5 0#32 : Instr) ∈ storeInstrs 1#5 2#5 0#32 ∧
    accessWidth (.sw 1#5 2#5 0#32) = some 4 ∧
    ((loadState 4092 9).readReg 1#5 + 0#32).toNat % 4 = 0 ∧
    ((loadState 4092 9).readReg 1#5 + 0#32).toNat + 4 ≤ (loadState 4092 9).cfg.memSize := by decide

theorem witness_StoreFrame :
    Memory.wf (loadState 0x100 9).mem ∧ (.sh 1#5 2#5 0#32 : Instr) ∈ storeInstrs 1#5 2#5 0#32 ∧
    (nextOf (exec (.sh 1#5 2#5 0#32) (loadState 0x100 9))).isSome = true ∧
    storeSpan (.sh 1#5 2#5 0#32) (loadState 0x100 9) = some (0x100, 2) ∧ 0x102 + 0 ≥ 0x100 + 2 := by decide

theorem witness_RegisterWriterFrame :
    ([.lw 3#5 1#5 0#32, .add 3#5 1#5 2#5, .lui 3#5 0x1000#32, .jalr 3#5 1#5 0#32] : List Instr).all (fun i =>
      decide (i ∈ loadInstrs 3#5 1#5 0#32 ++ aluInstrs 3#5 1#5 2#5 0#32 0#5 ++ upperInstrs 3#5 0x1000#32 ++
        jumpInstrs 3#5 1#5 0#32) && (nextOf (exec i (loadState 0x100 9))).isSome) = true := by decide

theorem witness_BranchFrame :
    (branchInstrs 1#5 2#5 8#32).all (fun i => (nextOf (exec i (loadState 0x100 9))).isSome) = true := by decide

theorem witness_LoadAfterStoreReturnsStoredValue :
    Memory.wf (loadState 0x100 9).mem ∧ (3#5 : RegIdx) ≠ 0#5 ∧
    (loadState 0x100 9).readReg 1#5 + 4#32 = (loadState 0x100 9).readReg 1#5 + 4#32 ∧
    ([.sw 1#5 2#5 4#32, .sh 1#5 2#5 4#32, .sb 1#5 2#5 4#32] : List Instr).all (fun i =>
      statusOf (exec i (loadState 0x100 9)) == some .running) = true := by decide

theorem witness_ComparisonsWriteZeroOrOne :
    decode 0xFFF0B113#32 = .ok (.sltiu 2#5 1#5 0xFFFFFFFF#32) ∧ decode 0x7FF0B113#32 = .ok (.sltiu 2#5 1#5 0x7FF#32) := by
  decide

theorem witness_AluStageSplit :
    (.add 3#5 1#5 2#5 : Instr) ∈ aluInstrs 3#5 1#5 2#5 0#32 0#5 ∧
    (nextOf (exec (.add 3#5 1#5 2#5) (loadState 1 2))).isSome = true := by decide

theorem witness_HintFormsAreOrdinary :
    (.addi 0#5 0#5 0#32 : Instr) ∈ aluInstrs 0#5 0#5 0#5 0#32 0#5 ++ upperInstrs 0#5 0#32 ∧
    ([0x0B#32, 0x2B#32, 0x5B#32, 0x7B#32] : List Word).all
      (fun w => decide (w.extractLsb' 0 7 ∈ [0b0001011#7, 0b0101011#7, 0b1011011#7, 0b1111011#7])) = true := by decide

theorem witness_UpperImmediateInstructions :
    0x123450B7#32 &&& 0x0000007F#32 = 0x00000037#32 ∧ 0x00001097#32 &&& 0x0000007F#32 = 0x00000017#32 := by decide

/-- Each branch, with its condition true and false, and an aligned target. -/
theorem witness_BranchesCompleteAtTheirNextAddress :
    (branchCondition (.beq 1#5 2#5 8#32) 7#32 7#32 ∧ ¬ branchCondition (.beq 1#5 2#5 8#32) 7#32 8#32) ∧
    (branchCondition (.bne 1#5 2#5 8#32) 7#32 8#32 ∧ ¬ branchCondition (.bne 1#5 2#5 8#32) 7#32 7#32) ∧
    (branchCondition (.blt 1#5 2#5 8#32) 0xFFFFFFFF#32 1#32 ∧ ¬ branchCondition (.blt 1#5 2#5 8#32) 1#32 1#32) ∧
    (branchCondition (.bge 1#5 2#5 8#32) 1#32 1#32 ∧ ¬ branchCondition (.bge 1#5 2#5 8#32) 0xFFFFFFFF#32 1#32) ∧
    (branchCondition (.bltu 1#5 2#5 8#32) 1#32 0xFFFFFFFF#32 ∧ ¬ branchCondition (.bltu 1#5 2#5 8#32) 1#32 1#32) ∧
    (branchCondition (.bgeu 1#5 2#5 8#32) 1#32 1#32 ∧ ¬ branchCondition (.bgeu 1#5 2#5 8#32) 1#32 0xFFFFFFFF#32) ∧
    ((stateWith 0x100 7 7).fpc + 8#32).toNat % 4 = 0 ∧ (stateWith 0x100 7 7).readReg 1#5 = 7#32 := by
  simp only [branchCondition]; decide

theorem witness_MisalignedTargetsRaise :
    (branchCondition (.beq 1#5 2#5 2#32) 7#32 7#32 ∧ ¬ branchCondition (.beq 1#5 2#5 2#32) 7#32 8#32) ∧
    ((0x100#32 : Word) + 2#32).toNat % 4 ≠ 0 ∧ (jalrTarget 0x200#32 3#32).toNat % 4 ≠ 0 ∧
    (0x100#32 : Word).toNat % 4 = 0 ∧ (2#32 : Word).toNat % 2 = 0 ∧
    decode 0x00208163#32 = .ok (.beq 1#5 2#5 2#32) ∧ decode 0x002000EF#32 = .ok (.jal 1#5 2#32) := by
  simp only [branchCondition]; decide

theorem witness_JumpsLinkAndGoToTarget :
    ((stateWith 0xFFFFFFFC 0 0).fpc + 4#32).toNat % 4 = 0 ∧
    (BitVec.ofNat 32 (((stateWith 0 0x200 0).readReg 1#5 + 5#32).toNat -
      ((stateWith 0 0x200 0).readReg 1#5 + 5#32).toNat % 2)).toNat % 4 = 0 := by decide

/-- A fetched word that waits in FD. -/
def fetched : State := busy .empty .empty addInFd

theorem witness_EveryFetchPredictsFallThrough :
    (fetchStage (busy .empty .empty .empty)).fd = .fetched 0x10#32 0x13131313#32 0x14#32 ∧
    decodeStage fetched none = .pass (.decoded 12#32 (.add 4#5 2#5 3#5) 7#32 0#32 16#32) := by decide

/-- Whether Execute passes, and asks for a redirect. -/
def redirectOf (de : DeLatch) : Option (Option Word) :=
  match executeStage de with
  | .ok x => some x.redirect
  | .error _ => none

theorem witness_BranchUnitValidatesInExecute :
    redirectOf beqInDe = some (some 72#32) ∧ redirectOf (.decoded 8#32 (.bne 1#5 1#5 64#32) 1#32 1#32 12#32) = some none ∧
    redirectOf (.decoded 8#32 (.jal 1#5 64#32) 0#32 0#32 12#32) = some (some 72#32) ∧
    redirectOf (.decoded 8#32 (.jal 1#5 4#32) 0#32 0#32 12#32) = some none ∧
    redirectOf (.decoded 8#32 (.jalr 1#5 1#5 0#32) 0x40#32 0#32 12#32) = some (some 0x40#32) ∧
    redirectOf addInDe = some none := by decide

/-- A state whose EW raises, and one whose DE raises under a passing Write-back. -/
def raisesInEw : State := busy (.executed 4#32 (.lw 2#5 1#5 1#32) 0#32 0x101#32 0#32) .empty .empty
/-- A state whose DE raises. -/
def raisesInDe : State := busy lwInEw beqMisalignedInDe addInFd

theorem witness_HaltIsPrecise :
    raisesInEw.status = .running ∧ raisesInDe.status = .running ∧
    writeBack { raisesInEw with cycles := raisesInEw.cycles + 1 } = .error (.misalignedAccess 4#32 0x101#32 4) ∧
    (writeBack { raisesInDe with cycles := raisesInDe.cycles + 1 }).toOption.isSome = true ∧
    (writeBack { raisesInDe with cycles := raisesInDe.cycles + 1 }).toOption.map
      (fun t => retireCountReached { raisesInDe with cycles := raisesInDe.cycles + 1 } t) = some false ∧
    (executeStage raisesInDe.de).toOption.isNone = true ∧
    (tick raisesInEw).status = .halted (.misalignedAccess 4#32 0x101#32 4) ∧
    (tick raisesInDe).status = .halted (.misalignedAccess 8#32 10#32 4) := by decide

theorem witness_HaltedCoreNeverResumes : (tick raisesInEw).status = .halted (.misalignedAccess 4#32 0x101#32 4) := by decide

theorem witness_LookupHitsOnIndexAndBase :
    Params.conventional.Valid ∧ (0x3C#32 : Word).toNat % 4 = 0 ∧
    (∀ line, some line ∈ fetched.l1i → line.data.length = Params.conventional.lineBytes) ∧
    lookup Params.conventional fetched.l1i 0x3C#32 = some 0x13131313#32 ∧
    lookup Params.conventional fetched.l1i 0x40#32 = none ∧
    fetched.fwait = 0 ∧ lookup fetched.cfg fetched.l1i fetched.fpc = some 0x13131313#32 := by
  refine ⟨by decide, by decide, ?_, by decide, by decide, by decide, by decide⟩
  intro line h
  simp only [fetched, busy, List.mem_singleton, Option.some.injEq] at h
  subst h
  decide

/-- A core about to miss at the last word of memory. -/
def aboutToMiss : State := { loadState 0 0 with fpc := 4092#32 }

theorem witness_MissFillsThenDelivers :
    aboutToMiss.cfg.Valid ∧ aboutToMiss.l1i.length = aboutToMiss.cfg.numLines ∧ aboutToMiss.fwait = 0 ∧
    aboutToMiss.cfg.stop ≠ .haltAt aboutToMiss.fpc ∧ aboutToMiss.fpc.toNat % 4 = 0 ∧
    aboutToMiss.fpc.toNat + 4 ≤ aboutToMiss.cfg.memSize ∧ lookup aboutToMiss.cfg aboutToMiss.l1i aboutToMiss.fpc = none ∧
    0 + 1 < aboutToMiss.cfg.missPenalty := by decide

theorem witness_OnlyMissFillsWriteTheL1I : lineAt fetched.l1i 0 ≠ none ∧ lineAt (tick aboutToMiss).l1i 0 ≠ none := by decide

theorem witness_StoresAreInvisibleToResidentLines :
    (writeBack (busy (.executed 4#32 (.sw 1#5 2#5 0#32) 0#32 0x10#32 0xFFFFFFFF#32) .empty .empty)).toOption.isSome = true ∧
    fetched.fwait = 0 ∧ fetched.cfg.stop ≠ .haltAt fetched.fpc ∧ fetched.fpc.toNat % 4 = 0 ∧
    fetched.fpc.toNat + 4 ≤ fetched.cfg.memSize ∧ lookup fetched.cfg fetched.l1i fetched.fpc = some 0x13131313#32 := by
  decide

/-- A core whose miss wait has `n` bubbles left. -/
def waiting (n : Nat) : State := { busy .empty .empty .empty with fwait := n }

theorem witness_FetchCasesInOrder :
    ((waiting 1).fwait = 1 ∧ lineAt (waiting 1).l1i (lineIndex (waiting 1).cfg (waiting 1).fpc) ≠ none) ∧
    1 < (waiting 2).fwait ∧
    (let s := { waiting 0 with cfg := withStop (.haltAt 0x10) }
     s.fwait = 0 ∧ s.cfg.stop = .haltAt s.fpc) ∧
    (let s := { waiting 0 with fpc := 4097#32 }
     s.cfg.stop ≠ .haltAt s.fpc ∧ s.fpc.toNat % 4 ≠ 0) ∧
    (let s := { waiting 0 with fpc := 4096#32 }
     s.cfg.stop ≠ .haltAt s.fpc ∧ s.fpc.toNat % 4 = 0 ∧ s.cfg.memSize < s.fpc.toNat + 4) ∧
    (aboutToMiss.fpc.toNat + 4 ≤ aboutToMiss.cfg.memSize ∧ lookup aboutToMiss.cfg aboutToMiss.l1i aboutToMiss.fpc = none) ∧
    ((waiting 0).fpc.toNat + 4 ≤ (waiting 0).cfg.memSize ∧
      lookup (waiting 0).cfg (waiting 0).l1i (waiting 0).fpc = some 0x13131313#32) ∧
    (executeStage (busy .empty lwInDe addInFd).de).toOption.isSome = true ∧
    decodeStage (busy .empty lwInDe addInFd) none = .stall := by decide

theorem witness_DecodeStageCases :
    fetched.fd = addInFd ∧ decode 0x00310233#32 = .ok (.add 4#5 2#5 3#5) ∧
    loadUse lwInDe (.add 4#5 2#5 3#5) = true ∧ loadUse addInDe (.add 4#5 2#5 3#5) = false ∧
    decode 0#32 = .error (.unknownInstruction 0#32) ∧
    (busy .empty .empty (.fault 12#32 (.misalignedAccess 12#32 12#32 4))).fd =
      .fault 12#32 (.misalignedAccess 12#32 12#32 4) := by decide

/-- A state after Write-back whose Execute forwards to the instruction in FD. -/
def forwarding : State := busy .empty addInDe addInFd

theorem witness_OperandsAreTheMostRecentOlderValues :
    (executeStage forwarding.de).toOption.map (fun x => x.forward) = some (some (3#5, 0x200#32)) ∧
    decodeStage forwarding (some (3#5, 0x200#32)) = .pass (.decoded 12#32 (.add 4#5 2#5 3#5) 7#32 0x200#32 16#32) ∧
    ((executeStage forwarding.de).toOption.bind fun x => (writeBack { forwarding with ew := x.ew }).toOption).isSome = true ∧
    (3#5 : RegIdx) ≠ 0#5 ∧ (some (2#5, 1#32) : Option (RegIdx × Word)) ≠ some (3#5, 1#32) := by decide

theorem witness_ForwardingPath :
    ([.add 3#5 1#5 2#5, .lui 3#5 0x1000#32, .jal 3#5 64#32, .lw 3#5 1#5 0#32, .sw 1#5 2#5 0#32, .beq 1#5 2#5 64#32] :
      List Instr).all (fun i => (executeStage (.decoded 8#32 i 0x40#32 0x40#32 12#32)).toOption.isSome) = true := by decide

theorem witness_LoadUseStallLastsOneCycle :
    (busy .empty lwInDe addInFd).fd = .fetched 12#32 0x00310233#32 16#32 ∧
    decode 0x00310233#32 = .ok (.add 4#5 2#5 3#5) ∧ loadUse (busy .empty lwInDe addInFd).de (.add 4#5 2#5 3#5) = true ∧
    (executeStage (busy .empty lwInDe addInFd).de).toOption.isSome = true ∧
    (tick (busy .empty lwInDe addInFd)).de = .empty := by decide

theorem witness_ExecuteStageCases :
    executeStage beqMisalignedInDe = .error (.misalignedAccess 8#32 10#32 4) ∧
    ((splitOf (.add 3#5 1#5 2#5)).execute 8#32 1#32 2#32).toOption.isSome = true ∧
    (executeStage (.decoded 8#32 (.sw 1#5 2#5 0#32) 1#32 2#32 12#32)).toOption.isSome = true := by decide

/-- A running core with a load in EW, a taken branch in DE and an ADD in FD. -/
def mispredicting : State := busy lwInEw beqInDe addInFd

theorem witness_MispredictionFlushesAndRedirects :
    mispredicting.status = .running ∧
    (writeBack { mispredicting with cycles := mispredicting.cycles + 1 }).toOption.map
      (fun t => retireCountReached { mispredicting with cycles := mispredicting.cycles + 1 } t) = some false ∧
    redirectOf mispredicting.de = some (some 72#32) := by decide

/-- The same core with the target's line resident and Fetch in that line, so that the target hits after the redirect. -/
def mispredictingToHit : State :=
  { mispredicting with fpc := 76#32, l1i := fill mispredicting.cfg mispredicting.mem mispredicting.l1i 72#32 }

theorem witness_MispredictionFlushesAndRedirects_hit :
    redirectOf mispredictingToHit.de = some (some 72#32) ∧ mispredictingToHit.cfg.stop ≠ .haltAt 72#32 ∧
    (lookup mispredictingToHit.cfg (tick mispredictingToHit).l1i 72#32).isSome = true ∧
    (ticks 2 mispredictingToHit).status = .running ∧ (ticks 3 mispredictingToHit).ew = .empty ∧
    (ticks 4 mispredictingToHit).status = .halted (.unknownInstruction 72#32 0#32) := by decide

theorem witness_WriteBackCommitsInOrder :
    (busy .empty .empty .empty).ew = .empty ∧
    (.add 3#5 1#5 2#5 : Instr) ∈ aluInstrs 3#5 1#5 2#5 0#32 0#5 ++ upperInstrs 3#5 0#32 ++ jumpInstrs 3#5 1#5 0#32 ∧
    (busy (.executed 4#32 (.add 3#5 1#5 2#5) 9#32 0#32 0#32) .empty .empty).ew =
      .executed 4#32 (.add 3#5 1#5 2#5) 9#32 0#32 0#32 ∧
    accessWidth (.lw 2#5 1#5 0#32) = some 4 ∧ (0x101#32 : Word).toNat % 4 ≠ 0 ∧
    ((4096#32 : Word).toNat % 4 = 0 ∧ (busy lwInEw .empty .empty).cfg.memSize < (4096#32 : Word).toNat + 4) ∧
    ((4092#32 : Word).toNat % 4 = 0 ∧ (4092#32 : Word).toNat + 4 ≤ (busy lwInEw .empty .empty).cfg.memSize) ∧
    (busy lwInEw .empty .empty).status = .running ∧
    (writeBack { busy lwInEw .empty .empty with cycles := (busy lwInEw .empty .empty).cycles + 1 }).toOption.isSome = true := by
  decide

/-- Each load in EW at the two ends of its extension, over the bytes 0x80, 0x7F, 0xFE, 0xFF of R112, and a raise. -/
theorem witness_WriteBackCommitsInOrder_loads :
    (([(.lb 2#5 1#5 0#32, 0x100#32), (.lb 2#5 1#5 0#32, 0x101#32), (.lh 2#5 1#5 0#32, 0x100#32),
       (.lh 2#5 1#5 0#32, 0x102#32), (.lw 2#5 1#5 0#32, 0x100#32), (.lbu 2#5 1#5 0#32, 0x100#32),
       (.lhu 2#5 1#5 0#32, 0x102#32)] : List (Instr × Word)).map fun (i, a) =>
      (writeBack (busy (.executed 4#32 i 0#32 a 0#32) .empty .empty)).toOption.map fun t => t.readReg 2#5) =
    [some 0xFFFFFF80#32, some 0x7F#32, some 0x7F80#32, some 0xFFFFFFFE#32, some 0xFFFE7F80#32, some 0x80#32,
     some 0xFFFE#32] ∧
    raisesInEw.status = .running ∧
    writeBack { raisesInEw with cycles := raisesInEw.cycles + 1 } = .error (.misalignedAccess 4#32 0x101#32 4) := by decide

theorem witness_LatchUpdate :
    ([busy lwInEw addInDe addInFd, busy lwInEw lwInDe addInFd, mispredicting] : List State).all (fun s =>
      decide (s.status = .running) &&
      ((writeBack { s with cycles := s.cycles + 1 }).toOption.map
        (fun t => retireCountReached { s with cycles := s.cycles + 1 } t) == some false) &&
      (executeStage s.de).toOption.isSome) = true := by decide

theorem witness_TerminationPolicies :
    (let s := { stateWith 0x10 0 0 with cfg := withStop (.haltAt 0x10) }
     s.status = .running ∧ s.cfg.stop = .haltAt 0x10#32 ∧ s.fwait = 0 ∧ s.fpc = 0x10#32 ∧ (tick s).status = .stopped) ∧
    (let s := { busy lwInEw .empty .empty with cfg := withStop (.retireCount 4) }
     s.status = .running ∧ s.cfg.stop = .retireCount 4 ∧ s.retired < 4 ∧ (tick s).status = .stopped ∧
     (writeBack { s with cycles := s.cycles + 1 }).toOption.map (fun t => t.retired) = some 4) := by decide

/-- With an instruction in EW and without, the retirement count standing at N already in the second state. -/
theorem witness_RetireCountComparesAtRetirements :
    (let s := { busy lwInEw .empty .empty with cfg := withStop (.retireCount 4) }
     s.status = .running ∧ s.cfg.stop = .retireCount 4 ∧ s.ew ≠ .empty ∧
     (writeBack { s with cycles := s.cycles + 1 }).toOption.map (fun t => t.retired) = some 4) ∧
    (let s := { busy .empty .empty .empty with cfg := withStop (.retireCount 3) }
     s.status = .running ∧ s.cfg.stop = .retireCount 3 ∧ s.retired = 3 ∧ (tick s).status = .running) := by decide

theorem witness_CounterEvents :
    raisesInEw.status = .running ∧
    writeBack { raisesInEw with cycles := raisesInEw.cycles + 1 } = .error (.misalignedAccess 4#32 0x101#32 4) ∧
    (executeStage raisesInDe.de).toOption.isNone = true ∧
    (executeStage (busy lwInEw addInDe addInFd).de).toOption.isSome = true ∧
    decodeStage (busy lwInEw lwInDe addInFd) none = .stall ∧
    (fetched.fwait = 0 ∧ fetched.cfg.stop ≠ .haltAt fetched.fpc ∧ fetched.fpc.toNat % 4 = 0 ∧
      fetched.fpc.toNat + 4 ≤ fetched.cfg.memSize ∧ lookup fetched.cfg fetched.l1i fetched.fpc ≠ none) ∧
    (aboutToMiss.fwait = 0 ∧ aboutToMiss.fpc.toNat + 4 ≤ aboutToMiss.cfg.memSize ∧
      lookup aboutToMiss.cfg aboutToMiss.l1i aboutToMiss.fpc = none) ∧
    ¬ (waiting 2).fwait = 0 := by decide

theorem witness_OnlyFetchAndRedirectWriteThePc :
    (writeBack (busy lwInEw .empty .empty)).toOption.isSome = true ∧ (tick fetched).fpc = fetched.fpc + 4#32 ∧
    (tick mispredicting).fpc = 72#32 := by decide

theorem witness_DecoderFollowsTheOpcodeTable :
    decode 0x002081B3#32 = .ok (.add 3#5 1#5 2#5) ∧ (∃ row ∈ opcodeTable, 0x002081B3#32 &&& row.mask = row.bits) ∧
    ∀ row ∈ opcodeTable, 0x00000073#32 &&& row.mask ≠ row.bits := by decide

theorem witness_ReservedWordsAreIllegal :
    (busy .empty .empty (.fetched 12#32 0x73#32 16#32)).fd = .fetched 12#32 0x73#32 16#32 ∧
    decode 0x73#32 = .error (.unknownInstruction 0x73#32) := by decide

theorem witness_AluWrapsAndNeverRaises :
    (.addi 1#5 2#5 0xFFFFF800#32 : Instr) ∈ aluInstrs 1#5 2#5 3#5 0xFFFFF800#32 31#5 ∧
    (.and 1#5 2#5 3#5 : Instr) ∈ aluInstrs 1#5 2#5 3#5 0xFFFFF800#32 31#5 := by decide

theorem witness_DecodeOfEncodeIsIdentity :
    ([.jal 31#5 0xFFF00000#32, .beq 31#5 0#5 4094#32, .sw 31#5 1#5 0xFFFFF800#32, .lui 31#5 0xFFFFF000#32,
      .addi 31#5 31#5 2047#32, .srai 31#5 31#5 31#5] : List Instr).all Instr.wf = true := by decide

theorem witness_EncodeOfDecodeIsIdentity : decode 0xFE20AC23#32 = .ok (.sw 1#5 2#5 0xFFFFFFF8#32) := by decide

theorem witness_TableWordsDecodeThroughBytes : Instr.wf (.sw 1#5 2#5 0xFFFFFFF8#32) = true := by decide

/-- A word of each format at the lowest immediate of its range, a shift by 31, and a shift word with bit 25 set. -/
theorem witness_ImmediatesAreAssembledFromTheirFields :
    decode 0x80008093#32 = .ok (.addi 1#5 1#5 0xFFFFF800#32) ∧ decode 0x80112023#32 = .ok (.sw 2#5 1#5 0xFFFFF800#32) ∧
    decode 0x80208063#32 = .ok (.beq 1#5 2#5 0xFFFFF000#32) ∧ decode 0xFFFFF0B7#32 = .ok (.lui 1#5 0xFFFFF000#32) ∧
    decode 0x800000EF#32 = .ok (.jal 1#5 0xFFF00000#32) ∧ decode 0x41F0D113#32 = .ok (.srai 2#5 1#5 31#5) ∧
    ((0x02109113#32 : Word).extractLsb' 0 7 = 0b0010011#7 ∧ (0x02109113#32 : Word).extractLsb' 12 3 = 0b001#3 ∧
      (0x02109113#32 : Word).getLsbD 25 = true) := by decide

/-- One word of each format. -/
theorem witness_RegisterUseSets :
    ([0x002081B3#32, 0x0FF0E113#32, 0xFE20AC23#32, 0x00208863#32, 0x123450B7#32, 0x001000EF#32] : List Word).map
      (fun w => (decode w).toOption.map formatOf) = [some .r, some .i, some .s, some .b, some .u, some .j] := by decide

/-! ### Witnesses about the whole machine -/

/-- Two instructions in memory: SW x1, 64(x0) (0x04102023) at 0 and ADDI x2, x0, 1 (0x00100113) at 4. -/
def demoMemory : Memory :=
  [(0, 0x23#8), (1, 0x20#8), (2, 0x10#8), (3, 0x04#8), (4, 0x13#8), (5, 0x01#8), (6, 0x10#8)]

/-- A launch of them that stops after two retirements. -/
def demoParams : Params := withStop (.retireCount 2)

/-- x1 = 5 at launch. -/
def demoRegs : Vector Word 32 := (Vector.replicate 32 0#32).set 1 5#32

/-- The state that launch gives. -/
def demo : State := State.launch demoParams demoRegs demoMemory

theorem demo_launchOk : LaunchOk demoParams demoMemory := ⟨by decide, by decide, by decide⟩

theorem demo_inv : CoreInv demo :=
  ⟨structure_launch demoRegs demo_launchOk, fun _ =>
    ⟨fun _ _ _ _ _ h => (by cases h), fun _ _ _ _ _ _ _ _ _ _ _ h => (by cases h), fun _ _ _ _ _ h => (by cases h),
      (by show (0 : Nat) < 2; decide)⟩⟩

theorem demo_tick_1_inv : CoreInv (tick demo) := inv_tick demo_inv (by decide)

theorem demo_tick_2_inv : CoreInv (tick (tick demo)) := inv_tick demo_tick_1_inv (by decide)

theorem demo_tick_3_inv : CoreInv (tick (tick (tick demo))) := inv_tick demo_tick_2_inv (by decide)

theorem demo_tick_4_inv : CoreInv (tick (tick (tick (tick demo)))) := inv_tick demo_tick_3_inv (by decide)

/-- Five ticks into that run the store is in EW. -/
theorem demo_tick_5_inv : CoreInv (tick (tick (tick (tick (tick demo))))) := inv_tick demo_tick_4_inv (by decide)

theorem witness_InvariantHoldsAfterLaunch : LaunchOk demoParams demoMemory := demo_launchOk

theorem witness_StepKeepsInvariant : CoreInv demo ∧ ∃ t, step demo = .next t := ⟨demo_inv, _, rfl⟩

theorem witness_StepIsTicksToTheNextRetirement_inv : CoreInv demo ∧ demo.status = .running ∧
    (ticks 6 demo).retired = demo.retired + 1 := ⟨demo_inv, by decide, by decide⟩

theorem witness_StepIsTicksToTheNextRetirement :
    demo.status = .running ∧ (boot (withStop (.retireCount 0)) demoRegs demoMemory).status = .stopped ∧
    (tick raisesInEw).status = .halted (.misalignedAccess 4#32 0x101#32 4) := by decide

theorem witness_StepMakesProgress : CoreInv demo ∧ demo.status = .running := ⟨demo_inv, by decide⟩

/-- With no line resident, and with a fresh one. -/
theorem witness_StepRunsTheDecodedInstruction :
    ReadyToFetch demo (.sw 0#5 1#5 64#32) ∧
    ReadyToFetch { demo with l1i := fill demo.cfg demo.mem demo.l1i 0#32 } (.sw 0#5 1#5 64#32) :=
  ⟨⟨by decide, by decide, by decide, by decide, by decide, by decide, by decide, by decide, by decide⟩,
   ⟨by decide, by decide, by decide, by decide, by decide, by decide, by decide, by decide, by decide⟩⟩

theorem witness_PlacedInstructionRunsNext :
    decodeTableWord 32 0x002081B3 = some (.add 3#5 1#5 2#5) ∧ State.reset.cfg.Valid ∧
    State.reset.l1i.length = State.reset.cfg.numLines ∧ State.reset.status = .running ∧ Memory.wf State.reset.mem ∧
    State.reset.cfg.stop ≠ .haltAt State.reset.fpc ∧ State.reset.fpc.toNat % 4 = 0 ∧
    State.reset.fpc.toNat + 4 ≤ State.reset.cfg.memSize := by decide

/-- The clause about program order, with the store of the run in EW and with an empty EW. -/
theorem witness_WriteBackCommitsInOrder_order :
    (CoreInv (tick (tick (tick (tick (tick demo))))) ∧ (tick (tick (tick (tick (tick demo))))).status = .running ∧
      (tick (tick (tick (tick (tick (tick demo)))))).status = .running ∧
      (tick (tick (tick (tick (tick demo))))).ew = .executed 0#32 (.sw 0#5 1#5 64#32) 0#32 64#32 5#32) ∧
    (CoreInv demo ∧ demo.status = .running ∧ (tick demo).status = .running ∧ demo.ew = .empty) :=
  ⟨⟨demo_tick_5_inv, by decide, by decide, by decide⟩, demo_inv, by decide, by decide, by decide⟩

theorem witness_TickRefinesSequentialExecution :
    (CoreInv (tick (tick (tick (tick (tick demo))))) ∧ (tick (tick (tick (tick (tick demo))))).status = .running ∧
      (tick (tick (tick (tick (tick demo))))).ew = .executed 0#32 (.sw 0#5 1#5 64#32) 0#32 64#32 5#32) ∧
    (CoreInv demo ∧ demo.status = .running ∧ demo.ew = .empty) :=
  ⟨⟨demo_tick_5_inv, by decide, by decide⟩, demo_inv, by decide, by decide⟩

theorem sequentialRun_of_ended {s : State} (h : s.status ≠ .running) (n : Nat) : sequentialRun n s = s := by
  cases n with
  | zero => rfl
  | succ n =>
    unfold sequentialRun sequentialStep
    cases hs : s.status with
    | running => exact absurd hs h
    | stopped => rfl
    | halted e => rfl

theorem sequentialRun_add (m n : Nat) (s : State) (h : ∀ k, k < m → ∃ t, sequentialStep (sequentialRun k s) = .next t) :
    sequentialRun (m + n) s = sequentialRun n (sequentialRun m s) := by
  induction m generalizing s with
  | zero => simp [sequentialRun]
  | succ m ih =>
    obtain ⟨t, ht⟩ := h 0 (by omega)
    have ht : sequentialStep s = .next t := ht
    rw [Nat.succ_add, seqRun_succ_next ht, seqRun_succ_next ht]
    exact ih t fun k hk => by have := h (k + 1) (by omega); rwa [seqRun_succ_next ht] at this

/-- The demo's reference run ends after its third step: it fetches at 0 and at 4, and stores to 64. -/
theorem demo_codeUnmodified : CodeUnmodified demo := by
  have hend : ∀ k, sequentialRun (3 + k) demo = sequentialRun 3 demo := by
    intro k
    rw [sequentialRun_add 3 k demo (by
      intro j hj
      match j, hj with
      | 0, _ => exact ⟨_, rfl⟩
      | 1, _ => exact ⟨_, rfl⟩
      | 2, _ => exact ⟨_, rfl⟩)]
    exact sequentialRun_of_ended (by decide) k
  have hstop : ∀ k, 2 ≤ k → ¬ Fetches (sequentialRun k demo) := by
    intro k hk hf
    match k, hk with
    | 2, _ => exact absurd hf.goesOn (by decide)
    | k + 3, _ =>
      have := hf.running
      rw [Nat.add_comm k 3, hend k] at this
      exact absurd this (by decide)
  intro j k hjk _ hk i addr n hd hs
  have hk2 : k < 2 := by by_contra h; exact hstop k (by omega) hk
  obtain ⟨rfl, rfl⟩ : j = 0 ∧ k = 1 := by omega
  have hi : decode (memoryWord (sequentialRun 0 demo)) = .ok (.sw 0#5 1#5 64#32) := by decide
  rw [hi] at hd
  cases hd
  have hsp : storeSpan (.sw 0#5 1#5 64#32) (sequentialRun 0 demo) = some (64, 4) := by decide
  rw [hsp] at hs
  cases hs
  exact .inr (by decide)

theorem witness_PipelineMatchesSequentialReference :
    LaunchOk demoParams demoMemory ∧ CodeUnmodified (State.launch demoParams demoRegs demoMemory) ∧
    (sequentialRun 3 (State.launch demoParams demoRegs demoMemory)).status = .stopped ∧
    (ticks 7 (boot demoParams demoRegs demoMemory)).status = .stopped :=
  ⟨demo_launchOk, demo_codeUnmodified, by decide, by decide⟩

end Sys2Proof.Machine
end

section
/-! The state (10_state.md): the register file's two contracts, and what writes the fetch PC in each part of a tick. -/

namespace Sys2Proof.Machine

/-! ### Registers (R16) -/

theorem readReg_writeReg_same (s : State) {r : RegIdx} (v : Word) (h : r ≠ 0#5) : (s.writeReg r v).readReg r = v := by
  rw [readReg_writeReg, if_pos ⟨rfl, h⟩]

theorem readReg_writeReg_of_ne (s : State) {r q : RegIdx} (v : Word) (h : q ≠ r) :
    (s.writeReg r v).readReg q = s.readReg q := by
  rw [readReg_writeReg, if_neg fun hq => h hq.1]

/-- Settles O1, by the read and write contracts of the register file. -/
theorem registerZeroIsHardwired : Obligations.RegisterZeroIsHardwired := by
  intro s
  refine ⟨fun v => ⟨readReg_x0 s, writeReg_x0 s v⟩, fun r v hr => ⟨readReg_of_ne s hr, ?_, fun q hq => ?_⟩⟩
  · exact readReg_writeReg_same s v hr
  · exact readReg_writeReg_of_ne s v hq

/-! ### The fetch PC (R21) -/

theorem writeBack_fpc {s t : State} (h : writeBack s = .ok t) : t.fpc = s.fpc := by
  obtain ⟨hframe, _⟩ := writeBack_frame h
  rw [hframe]

/-- Fetch leaves the fetch PC, or advances it past the instruction or token it offers to FD (R153). -/
theorem fetchStage_fpc (s : State) :
    (fetchStage s).state.fpc = s.fpc ∨
      ((fetchStage s).state.fpc = nextPc s.fpc ∧ (fetchStage s).fd.pc? = some s.fpc) := by
  have h := fetchStage_cases s
  generalize fetchStage s = f at h
  cases h with
  | wait | idle | miss => exact .inl rfl
  | arrive | token | hit => exact .inr ⟨rfl, rfl⟩

/-- The rest of a tick after Execute leaves the fetch PC, advances it past what Fetch put into FD, or takes the target of
Execute's redirect (R152, R162). -/
theorem advance_fpc {s : State} {x : ExecuteOut} (hx : executeStage s.de = .ok x) :
    (advance s x).fpc = s.fpc ∨
      ((advance s x).fpc = nextPc s.fpc ∧ (advance s x).fd.pc? = some s.fpc) ∨
      x.redirect = some (advance s x).fpc := by
  have h := advance_cases hx
  generalize advance s x = u at h
  cases h with
  | stall => exact .inl rfl
  | redirect target hr => exact .inr (.inr hr)
  | pass => exact (fetchStage_fpc s).imp_right .inl

@[simp] theorem checkHaltAt_fpc (s : State) : (checkHaltAt s).fpc = s.fpc := by rw [checkHaltAt_frame]

@[simp] theorem checkHaltAt_fd (s : State) : (checkHaltAt s).fd = s.fd := by rw [checkHaltAt_frame]

/-- A tick of a running core leaves the fetch PC wherever it ends early, and otherwise writes it as its last stages do. -/
theorem tick_fpc {s : State} (hr : s.status = .running) :
    (tick s).fpc = s.fpc ∨
      ((tick s).fpc = nextPc s.fpc ∧ (tick s).fd.pc? = some s.fpc) ∨
      ∃ x, executeStage s.de = .ok x ∧ x.redirect = some (tick s).fpc := by
  have h := tick_cases hr
  generalize tick s = u at h
  cases h with
  | raiseWriteBack => exact .inl rfl
  | stop t hw | raiseExecute t _ hw => exact .inl (afterWriteBack hw).fpc
  | advance t x hw _ hx =>
    have hkept := afterWriteBack hw
    rw [checkHaltAt_fpc, checkHaltAt_fd, ← hkept.fpc, ← hkept.de]
    exact (advance_fpc hx).imp_right (.imp_right fun hredirect => ⟨x, hx, hredirect⟩)

/-- Settles O42: each stage's writes of the fetch PC, over the ways a tick can go. -/
theorem onlyFetchAndRedirectWriteThePc : Obligations.OnlyFetchAndRedirectWriteThePc := by
  refine ⟨fun s => ?_, fun _ _ => writeBack_fpc⟩
  by_cases hr : s.status = .running
  · exact tick_fpc hr
  · exact .inl (by rw [tick_of_not_running hr])

end Sys2Proof.Machine
end

section
/-! The memory system (20_memory.md): the byte order of data and of fetched words, the checks of data accesses, and the L1I,
which nothing but a miss fill of Fetch writes. -/

namespace Sys2Proof.Machine

/-! ### Byte order (R38 to R41) -/

/-- A read of `n` bytes inside the `w` stored ones, `k` bytes past the lowest, gives the `n` bytes of the value above its
lowest `k`. -/
theorem readBytes_writeBytes {m : Memory} (h : Memory.wf m) (a w : Nat) (v : Word) {k n : Nat} (hkn : k + n ≤ w) :
    Memory.readBytes (Memory.writeBytes m a w v) (a + k) n = v.toNat / 2 ^ (8 * k) % 2 ^ (8 * n) := by
  induction n with
  | zero => simp [Memory.readBytes, Nat.mod_one]
  | succ n ih =>
    have hbyte : (Memory.read (Memory.writeBytes m a w v) (a + k + n)).toNat =
        v.toNat / 2 ^ (8 * k) / 2 ^ (8 * n) % 2 ^ 8 := by
      rw [Memory.read_writeBytes h, if_pos (by omega), show a + k + n - a = k + n by omega, BitVec.extractLsb'_toNat,
        Nat.shiftRight_eq_div_pow, Nat.div_div_eq_div_mul, ← Nat.pow_add, Nat.mul_add]
    rw [Memory.readBytes, ih (by omega), hbyte, Nat.mul_add, Nat.mul_one, Nat.pow_add, Nat.mod_mul]

/-- Four bytes put together, the first the least significant. -/
theorem wordOfBytes_toNat (b0 b1 b2 b3 : Byte) :
    (wordOfBytes b0 b1 b2 b3).toNat = b0.toNat + 2 ^ 8 * b1.toNat + 2 ^ 16 * b2.toNat + 2 ^ 24 * b3.toNat := by
  have h0 := b0.isLt
  have h1 := b1.isLt
  have h2 := b2.isLt
  simp only [wordOfBytes, BitVec.toNat_append]
  rw [← Nat.shiftLeft_add_eq_or_of_lt h2, ← Nat.shiftLeft_add_eq_or_of_lt h1, ← Nat.shiftLeft_add_eq_or_of_lt h0]
  simp only [Nat.shiftLeft_eq]
  omega

/-- The little-endian value of four bytes of memory. -/
theorem readBytes_four (m : Memory) (a : Nat) :
    BitVec.ofNat 32 (Memory.readBytes m a 4) =
      wordOfBytes (Memory.read m a) (Memory.read m (a + 1)) (Memory.read m (a + 2)) (Memory.read m (a + 3)) := by
  apply BitVec.eq_of_toNat_eq
  have hlt := Memory.readBytes_lt m a 4
  rw [BitVec.toNat_ofNat, Nat.mod_eq_of_lt hlt, wordOfBytes_toNat]
  simp [Memory.readBytes]

@[simp] theorem readBlock_length (m : Memory) (base n : Nat) : (Memory.readBlock m base n).length = n := by
  simp [Memory.readBlock]

/-- Byte `o` of a block read is the byte of memory `o` past the base (R41). -/
theorem readBlock_getElem? (m : Memory) {base n o : Nat} (h : o < n) :
    (Memory.readBlock m base n)[o]? = some (Memory.read m (base + o)) := by
  simp [Memory.readBlock, h]

theorem blockByte_readBlock (m : Memory) {base n o : Nat} (h : o < n) :
    blockByte (Memory.readBlock m base n) o = Memory.read m (base + o) := by
  rw [blockByte, List.getD_eq_getElem?_getD, readBlock_getElem? m h, Option.getD_some]

/-- The word at an offset of a block read is memory's word there (R49, R50). -/
theorem blockWord_readBlock (m : Memory) {base n o : Nat} (h : o + 4 ≤ n) :
    blockWord (Memory.readBlock m base n) o = BitVec.ofNat 32 (Memory.readBytes m (base + o) 4) := by
  rw [readBytes_four, blockWord]
  simp only [blockByte_readBlock m (show o < n by omega), blockByte_readBlock m (show o + 1 < n by omega),
    blockByte_readBlock m (show o + 2 < n by omega), blockByte_readBlock m (show o + 3 < n by omega), Nat.add_assoc]

/-- Settles O4: every read is a slice of the stored value, and a fetched word is a read of four bytes. -/
theorem byteOrderIsLittleEndian : Obligations.ByteOrderIsLittleEndian := by
  intro m hm a v
  have hslice := fun (w k n : Nat) (h : k + n ≤ w) => readBytes_writeBytes hm a w v h
  have hv : v.toNat < 2 ^ 32 := v.isLt
  refine ⟨⟨?_, ?_, ?_, fun k hk => hslice 4 k 1 (by omega)⟩, ⟨?_, fun k hk => hslice 2 k 1 (by omega)⟩, ?_,
    fun base n o h => blockWord_readBlock m h⟩
  · exact (hslice 4 0 4 (by omega)).trans (by omega)
  · exact (hslice 4 0 2 (by omega)).trans (by omega)
  · exact (hslice 4 2 2 (by omega)).trans (by omega)
  · exact (hslice 2 0 2 (by omega)).trans (by omega)
  · exact (hslice 1 0 1 (by omega)).trans (by omega)

/-! ### The checks of data accesses (R43, R44) -/

/-- Write-back of a load or store raises exactly what the checks of its access raise (R108). -/
theorem commit_access_error {i : Instr} {n : Nat} (hn : accessWidth i = some n) {pc result addr data : Word} {s : State}
    {e : FatalError} :
    (splitOf i).commit pc result addr data s = .error e ↔ checkAccess s.cfg.memSize pc addr n = .error e := by
  cases i
  case lb | lh | lw | lbu | lhu => cases hn; exact loadAccess_error
  case sb | sh | sw => cases hn; exact storeAccess_error
  all_goals cases hn

/-- Execute of a load or store raises nothing and computes the effective address (R106, R107). -/
theorem execute_access {i : Instr} {n : Nat} (hn : accessWidth i = some n) (pc : Word) (s : State) :
    ∃ c, (splitOf i).execute pc (s.readSource (rs1Of i)) (s.readSource (rs2Of i)) = .ok c ∧ c.addr = accessAddress i s := by
  cases i
  case lb | lh | lw | lbu | lhu | sb | sh | sw => exact ⟨_, rfl, rfl⟩
  all_goals cases hn

/-- A load or store whose checks fail raises their error and does nothing else. -/
theorem exec_access_error {i : Instr} {n : Nat} (hn : accessWidth i = some n) {s : State} {e : FatalError}
    (h : checkAccess s.cfg.memSize s.fpc (accessAddress i s) n = .error e) : exec i s = .next (raise e s) := by
  obtain ⟨c, hx, hc⟩ := execute_access hn s.fpc s
  rw [← hc] at h
  simp only [exec_eq_runAlone, runAlone, hx, (commit_access_error hn).2 h]

/-- Write-back raises the error of a load's or store's checks. -/
theorem writeBack_access_error {i : Instr} {n : Nat} (hn : accessWidth i = some n) {s : State}
    {pc result addr data : Word} {e : FatalError} (hew : s.ew = .executed pc i result addr data)
    (h : checkAccess s.cfg.memSize pc addr n = .error e) : writeBack s = .error e := by
  rw [writeBack_executed hew, (commit_access_error hn).2 h]

/-- Settles O5: the checks' error, misalignment first, is the error of the instruction and of Write-back. -/
theorem dataAccessChecksRaise : Obligations.DataAccessChecksRaise := by
  intro i n hn
  refine ⟨fun s => ⟨fun ha => ?_, fun ha hb => ?_, fun h1 => by rw [h1, Nat.mod_one]⟩,
    fun s pc result addr data hew => ⟨fun ha => ?_, fun ha hb => ?_⟩⟩
  · exact exec_access_error hn (checkAccess_misaligned ha)
  · exact exec_access_error hn (checkAccess_outOfBounds ha hb)
  · exact writeBack_access_error hn hew (checkAccess_misaligned ha)
  · exact writeBack_access_error hn hew (checkAccess_outOfBounds ha hb)

/-! ### The L1I: lookup (R48, R49) -/

theorem lineAt_eq_some {lines : List (Option CacheLine)} {i : Nat} {line : CacheLine} :
    lineAt lines i = some line ↔ lines[i]? = some (some line) := Option.join_eq_some_iff

/-- A line has the base of an address exactly when it starts `a mod LINE_BYTES` below it. -/
theorem eq_lineBase_iff {p : Params} {a base : Word} : base = lineBase p a ↔ base.toNat = a.toNat - a.toNat % p.lineBytes := by
  rw [← lineBase_toNat, BitVec.toNat_inj]

/-- A word is that of a line at an address exactly when it is the little-endian value of the line's four bytes from the
address's offset on. -/
theorem eq_lineWord_iff {p : Params} {line : CacheLine} {a w : Word} :
    w = lineWord p line a ↔
      w.toNat = (blockByte line.data (a.toNat % p.lineBytes)).toNat +
        2 ^ 8 * (blockByte line.data (a.toNat % p.lineBytes + 1)).toNat +
        2 ^ 16 * (blockByte line.data (a.toNat % p.lineBytes + 2)).toNat +
        2 ^ 24 * (blockByte line.data (a.toNat % p.lineBytes + 3)).toNat := by
  rw [← BitVec.toNat_inj, lineWord, blockWord, wordOfBytes_toNat]

/-- Settles O27: the lookup's own line, its base and its word as numbers; and a hit is not the miss case of Fetch. -/
theorem lookupHitsOnIndexAndBase : Obligations.LookupHitsOnIndexAndBase := by
  refine ⟨fun p lines a w _ _ _ => ?_, fun s w hw hl => ?_⟩
  · rw [lookup_eq_some]
    refine exists_congr fun line => and_congr lineAt_eq_some ?_
    rw [eq_lineBase_iff, eq_lineWord_iff]
    refine and_congr_right fun hbase => ?_
    have hoffset : a.toNat - line.base.toNat = a.toNat % p.lineBytes := by
      have := Nat.mod_le a.toNat p.lineBytes
      omega
    rw [hoffset]
    rfl
  · have hf := fetchStage_cases s
    generalize fetchStage s = f at hf
    cases hf with
    | idle | token | hit => exact ⟨rfl, rfl⟩
    | wait h | arrive h => omega
    | miss _ _ _ _ hmiss => rw [hmiss] at hl; cases hl

/-! ### The L1I: hits, misses and the wait (R50, R153) -/

/-- With no wait in progress, Fetch looks up an address that is aligned, in bounds and not the halt address. -/
theorem fetchStage_eq_fetchLookup {s : State} (hw : s.fwait = 0) (ha : FetchAddressOk s.cfg s.fpc) :
    fetchStage s = fetchLookup s := by
  unfold fetchStage
  rw [if_neg (by omega), if_neg ha.notHalt, if_neg (not_not.2 ha.aligned), if_neg (Nat.not_lt.2 ha.bound)]

/-- A hit delivers the resident word. -/
theorem fetchStage_hit_fd {s : State} {w : Word} (hw : s.fwait = 0) (ha : FetchAddressOk s.cfg s.fpc)
    (hl : lookup s.cfg s.l1i s.fpc = some w) : (fetchStage s).fd = .fetched s.fpc w (nextPc s.fpc) := by
  rw [fetchStage_eq_fetchLookup hw ha, fetchLookup, hl]
  rfl

/-- A miss fills the address's line, starts the wait and delivers nothing (R50). -/
theorem fetchStage_miss {s : State} (hw : s.fwait = 0) (ha : FetchAddressOk s.cfg s.fpc)
    (hl : lookup s.cfg s.l1i s.fpc = none) :
    fetchStage s =
      { fd := .empty, state := { s with
          l1iMisses := s.l1iMisses + 1
          l1i := fill s.cfg s.mem s.l1i s.fpc
          fwait := s.cfg.missPenalty } } := by
  rw [fetchStage_eq_fetchLookup hw ha, fetchLookup, hl]

/-- A wait of more than one tick goes on with a bubble. -/
theorem fetchStage_wait {s : State} (h : 1 < s.fwait) :
    fetchStage s = { fd := .empty, state := { s with fwait := s.fwait - 1 } } := by
  have hf := fetchStage_cases s
  generalize fetchStage s = f at hf
  cases hf with
  | wait => rfl
  | arrive h' | idle h' | token _ h' | hit _ h' | miss h' => omega

/-- The last tick of a wait delivers the word of the line at the address's index. -/
theorem fetchStage_arrive_fd {s : State} (h : s.fwait = 1) :
    (fetchStage s).fd = .fetched s.fpc (deliveredWord s.cfg s.l1i s.fpc) (nextPc s.fpc) := by
  have hf := fetchStage_cases s
  generalize fetchStage s = f at hf
  cases hf with
  | arrive => rfl
  | wait h' | idle h' | token _ h' | hit _ h' | miss h' => omega

/-- While a wait lasts, a tick of Fetch shortens it by one and does nothing else. -/
theorem fetchStage_iterate_wait (s : State) {k : Nat} (h : k < s.fwait) :
    (fun u => (fetchStage u).state)^[k] s = { s with fwait := s.fwait - k } := by
  induction k with
  | zero => rfl
  | succ k ih =>
    rw [Function.iterate_succ_apply', ih (by omega), fetchStage_wait (show 1 < s.fwait - k by omega)]
    simp [Nat.sub_sub]

/-- While more than one tick of a wait is left, Fetch delivers a bubble. -/
theorem fetchStage_fd_during_wait (s : State) {k : Nat} (h : k + 1 < s.fwait) :
    (fetchStage ((fun u => (fetchStage u).state)^[k] s)).fd = .empty := by
  rw [fetchStage_iterate_wait s (by omega), fetchStage_wait (show 1 < s.fwait - k by omega)]

/-- A wait delivers in its last tick the word of the line that stood at the address's index when it began. -/
theorem fetchStage_fd_after_wait (s : State) (h : 1 ≤ s.fwait) :
    (fetchStage ((fun u => (fetchStage u).state)^[s.fwait - 1] s)).fd =
      .fetched s.fpc (deliveredWord s.cfg s.l1i s.fpc) (nextPc s.fpc) := by
  rw [fetchStage_iterate_wait s (by omega), fetchStage_arrive_fd (show s.fwait - (s.fwait - 1) = 1 by omega)]

/-- After a fill, the line at the address's index holds memory's word at the address. -/
theorem deliveredWord_fill {p : Params} (hp : p.Valid) {mem : Memory} {lines : List (Option CacheLine)} {a : Word}
    (hlines : lines.length = p.numLines) (ha : wordAligned a) :
    deliveredWord p (fill p mem lines a) a = wordAt mem a := by
  rw [deliveredWord, lineAt_fill (hlines ▸ lineIndex_lt hp a), if_pos rfl]
  exact lineWord_fill hp rfl ha

/-- After a fill, the lookup of the address hits with memory's word. -/
theorem lookup_fill {p : Params} (hp : p.Valid) {mem : Memory} {lines : List (Option CacheLine)} {a : Word}
    (hlines : lines.length = p.numLines) (ha : wordAligned a) :
    lookup p (fill p mem lines a) a = some (wordAt mem a) := by
  refine lookup_eq_some.2 ⟨_, ?_, rfl, (lineWord_fill hp rfl ha).symm⟩
  rw [lineAt_fill (hlines ▸ lineIndex_lt hp a), if_pos rfl]

/-- Settles O28: the miss state, and the ticks of its wait from there. -/
theorem missFillsThenDelivers : Obligations.MissFillsThenDelivers := by
  intro s hp hlines hw hs ha hb hl
  have hmiss := fetchStage_miss hw ⟨ha, hb, hs⟩ hl
  have ⟨_, _, _, _, _, _, _, hpenalty⟩ := hp
  have hwait : (fetchStage s).state.fwait = s.cfg.missPenalty := by rw [hmiss]
  refine ⟨⟨⟨lineBase s.cfg s.fpc, Memory.readBlock s.mem (lineBase s.cfg s.fpc).toNat s.cfg.lineBytes⟩, hmiss,
    lineBase_toNat _ _, readBlock_length _ _ _, fun o ho => readBlock_getElem? _ ho⟩, fun k hk => ?_, ?_⟩
  · exact fetchStage_fd_during_wait _ (hwait ▸ hk)
  · rw [← hwait]
    refine (fetchStage_fd_after_wait _ (hwait ▸ hpenalty)).trans ?_
    rw [hmiss]
    exact congrArg (FdLatch.fetched s.fpc · (nextPc s.fpc)) (deliveredWord_fill hp hlines ha)

/-! ### The L1I: nothing but a miss fill writes it (R53, R57, R58) -/

/-- Fetch writes the L1I by the fill of a miss alone. -/
theorem fetchStage_l1i (s : State) :
    (fetchStage s).state.l1i = s.l1i ∨
      (lookup s.cfg s.l1i s.fpc = none ∧ (fetchStage s).state.l1i = fill s.cfg s.mem s.l1i s.fpc) := by
  have hf := fetchStage_cases s
  generalize fetchStage s = f at hf
  cases hf with
  | wait | arrive | idle | token | hit => exact .inl rfl
  | miss _ _ _ _ hl => exact .inr ⟨hl, rfl⟩

/-- The rest of a tick after Execute writes the L1I as Fetch does, if it fetches at all. -/
theorem advance_l1i {s : State} {x : ExecuteOut} (hx : executeStage s.de = .ok x) :
    (advance s x).l1i = s.l1i ∨
      (lookup s.cfg s.l1i s.fpc = none ∧ (advance s x).l1i = fill s.cfg s.mem s.l1i s.fpc) := by
  have h := advance_cases hx
  generalize advance s x = u at h
  cases h with
  | stall => exact .inl rfl
  | redirect | pass => exact fetchStage_l1i s

@[simp] theorem checkHaltAt_l1i (s : State) : (checkHaltAt s).l1i = s.l1i := by rw [checkHaltAt_frame]

@[simp] theorem checkHaltAt_mem (s : State) : (checkHaltAt s).mem = s.mem := by rw [checkHaltAt_frame]

/-- A tick leaves the L1I, or fills the line of a fetch address that misses from the memory that its Write-back left. -/
theorem tick_l1i (s : State) :
    (tick s).l1i = s.l1i ∨
      (lookup s.cfg s.l1i s.fpc = none ∧ (tick s).l1i = fill s.cfg (tick s).mem s.l1i s.fpc) := by
  by_cases hr : s.status = .running
  · have h := tick_cases hr
    generalize tick s = u at h
    cases h with
    | raiseWriteBack => exact .inl rfl
    | stop t hw | raiseExecute t _ hw => exact .inl (afterWriteBack hw).l1i
    | advance t x hw _ hx =>
      have hkept := afterWriteBack hw
      obtain ⟨_, hmem, _⟩ := advance_frame hx
      rw [checkHaltAt_l1i, checkHaltAt_mem, hmem, ← hkept.l1i, ← hkept.cfg, ← hkept.fpc]
      exact advance_l1i hx
  · exact .inl (by rw [tick_of_not_running hr])

/-- A fill leaves every valid line's slot valid. -/
theorem lineAt_fill_valid {p : Params} {mem : Memory} {lines : List (Option CacheLine)} {a : Word} {k : Nat}
    {line : CacheLine} (h : lineAt lines k = some line) : ∃ line', lineAt (fill p mem lines a) k = some line' := by
  by_cases hi : lineIndex p a < lines.length
  · rw [lineAt_fill hi]
    split
    · exact ⟨_, rfl⟩
    · exact ⟨line, h⟩
  · rw [fill, List.set_eq_of_length_le (Nat.not_lt.1 hi)]
    exact ⟨line, h⟩

/-- A commit changes registers and memory alone. -/
theorem commit_frame {i : Instr} {pc result addr data : Word} {s t : State}
    (h : (splitOf i).commit pc result addr data s = .ok t) : t = { s with regs := t.regs, mem := t.mem } := by
  rcases commit_ok h with ⟨rd, v, _, rfl, _⟩ | ⟨_, rfl⟩ | ⟨_, n, _, rfl⟩
  · obtain ⟨regs, hregs⟩ := writeReg_eq s rd v
    rw [hregs]
  · rfl
  · rfl

/-- A commit neither asks what the L1I holds nor changes it. -/
theorem commit_with_l1i (i : Instr) (pc result addr data : Word) (s : State) (lines : List (Option CacheLine)) :
    (splitOf i).commit pc result addr data { s with l1i := lines } =
      match (splitOf i).commit pc result addr data s with
      | .error e => .error e
      | .ok t => .ok { t with l1i := lines } := by
  rw [commit_congr (s := s) (t := { s with l1i := lines }) rfl rfl rfl]
  cases hc : (splitOf i).commit pc result addr data s with
  | error e => rfl
  | ok t =>
    simp only
    rw [commit_frame hc]

/-- Settles O29: the L1I's writers over the ways a tick can go, the slots a fill keeps valid, and commits apart from it. -/
theorem onlyMissFillsWriteTheL1I : Obligations.OnlyMissFillsWriteTheL1I := by
  refine ⟨tick_l1i, fun s k line h => ?_, fun i pc result addr data s lines => ?_, fun cfg _ _ i => ?_⟩
  · rcases tick_l1i s with hkept | ⟨_, hfill⟩
    · exact ⟨line, hkept ▸ h⟩
    · rw [hfill]
      exact lineAt_fill_valid h
  · exact commit_with_l1i i pc result addr data s lines
  · exact lineAt_replicate cfg.numLines i

/-- Settles O30: Write-back's frame, the word of a hit, and the lookup after a miss's fill. -/
theorem storesAreInvisibleToResidentLines : Obligations.StoresAreInvisibleToResidentLines := by
  refine ⟨fun s t h => ?_, fun s w m hw hs ha hb hl => ?_, fun s hp hlines hw hs ha hb hl => ?_⟩
  · obtain ⟨hframe, _⟩ := writeBack_frame h
    rw [hframe]
    exact ⟨rfl, rfl, rfl⟩
  · exact fetchStage_hit_fd (s := { s with mem := m }) hw ⟨ha, hb, hs⟩ hl
  · rw [fetchStage_miss hw ⟨ha, hb, hs⟩ hl]
    exact lookup_fill hp hlines ha

end Sys2Proof.Machine
end

section
/-! The encoding (30_encoding.md): which words are instructions and which are illegal, what the fields of a word become, and
the round trip of decoder and encoder. -/

namespace Sys2Proof.Machine

/-! ### The round trip (R76) -/

/-- Settles O46, by the round trip of each instruction. -/
theorem decodeOfEncodeIsIdentity : Obligations.DecodeOfEncodeIsIdentity
  | .lui _ _ => Laws.RoundTrip.lui _ _
  | .auipc _ _ => Laws.RoundTrip.auipc _ _
  | .jal _ _ => Laws.RoundTrip.jal _ _
  | .jalr _ _ _ => Laws.RoundTrip.jalr _ _ _
  | .beq _ _ _ => Laws.RoundTrip.beq _ _ _
  | .bne _ _ _ => Laws.RoundTrip.bne _ _ _
  | .blt _ _ _ => Laws.RoundTrip.blt _ _ _
  | .bge _ _ _ => Laws.RoundTrip.bge _ _ _
  | .bltu _ _ _ => Laws.RoundTrip.bltu _ _ _
  | .bgeu _ _ _ => Laws.RoundTrip.bgeu _ _ _
  | .lb _ _ _ => Laws.RoundTrip.lb _ _ _
  | .lh _ _ _ => Laws.RoundTrip.lh _ _ _
  | .lw _ _ _ => Laws.RoundTrip.lw _ _ _
  | .lbu _ _ _ => Laws.RoundTrip.lbu _ _ _
  | .lhu _ _ _ => Laws.RoundTrip.lhu _ _ _
  | .sb _ _ _ => Laws.RoundTrip.sb _ _ _
  | .sh _ _ _ => Laws.RoundTrip.sh _ _ _
  | .sw _ _ _ => Laws.RoundTrip.sw _ _ _
  | .addi _ _ _ => Laws.RoundTrip.addi _ _ _
  | .slti _ _ _ => Laws.RoundTrip.slti _ _ _
  | .sltiu _ _ _ => Laws.RoundTrip.sltiu _ _ _
  | .xori _ _ _ => Laws.RoundTrip.xori _ _ _
  | .ori _ _ _ => Laws.RoundTrip.ori _ _ _
  | .andi _ _ _ => Laws.RoundTrip.andi _ _ _
  | .slli _ _ _ => Laws.RoundTrip.slli _ _ _
  | .srli _ _ _ => Laws.RoundTrip.srli _ _ _
  | .srai _ _ _ => Laws.RoundTrip.srai _ _ _
  | .add _ _ _ => Laws.RoundTrip.add _ _ _
  | .sub _ _ _ => Laws.RoundTrip.sub _ _ _
  | .sll _ _ _ => Laws.RoundTrip.sll _ _ _
  | .slt _ _ _ => Laws.RoundTrip.slt _ _ _
  | .sltu _ _ _ => Laws.RoundTrip.sltu _ _ _
  | .xor _ _ _ => Laws.RoundTrip.xor _ _ _
  | .srl _ _ _ => Laws.RoundTrip.srl _ _ _
  | .sra _ _ _ => Laws.RoundTrip.sra _ _ _
  | .or _ _ _ => Laws.RoundTrip.or _ _ _
  | .and _ _ _ => Laws.RoundTrip.and _ _ _

/-! ### What the decoder answers (R71 to R74) -/

/-- The instruction of a word, by the values that its row of R73 asks of opcode, funct3 and funct7. -/
inductive Decodes (w : Word) : Instr → Prop where
  | lui (ho : fieldOpcode w = 0b0110111#7) : Decodes w (.lui (fieldRd w) (fieldImmU w))
  | auipc (ho : fieldOpcode w = 0b0010111#7) : Decodes w (.auipc (fieldRd w) (fieldImmU w))
  | jal (ho : fieldOpcode w = 0b1101111#7) : Decodes w (.jal (fieldRd w) (fieldImmJ w))
  | jalr (ho : fieldOpcode w = 0b1100111#7) (h3 : fieldFunct3 w = 0b000#3) :
      Decodes w (.jalr (fieldRd w) (fieldRs1 w) (fieldImmI w))
  | beq (ho : fieldOpcode w = 0b1100011#7) (h3 : fieldFunct3 w = 0b000#3) :
      Decodes w (.beq (fieldRs1 w) (fieldRs2 w) (fieldImmB w))
  | bne (ho : fieldOpcode w = 0b1100011#7) (h3 : fieldFunct3 w = 0b001#3) :
      Decodes w (.bne (fieldRs1 w) (fieldRs2 w) (fieldImmB w))
  | blt (ho : fieldOpcode w = 0b1100011#7) (h3 : fieldFunct3 w = 0b100#3) :
      Decodes w (.blt (fieldRs1 w) (fieldRs2 w) (fieldImmB w))
  | bge (ho : fieldOpcode w = 0b1100011#7) (h3 : fieldFunct3 w = 0b101#3) :
      Decodes w (.bge (fieldRs1 w) (fieldRs2 w) (fieldImmB w))
  | bltu (ho : fieldOpcode w = 0b1100011#7) (h3 : fieldFunct3 w = 0b110#3) :
      Decodes w (.bltu (fieldRs1 w) (fieldRs2 w) (fieldImmB w))
  | bgeu (ho : fieldOpcode w = 0b1100011#7) (h3 : fieldFunct3 w = 0b111#3) :
      Decodes w (.bgeu (fieldRs1 w) (fieldRs2 w) (fieldImmB w))
  | lb (ho : fieldOpcode w = 0b0000011#7) (h3 : fieldFunct3 w = 0b000#3) :
      Decodes w (.lb (fieldRd w) (fieldRs1 w) (fieldImmI w))
  | lh (ho : fieldOpcode w = 0b0000011#7) (h3 : fieldFunct3 w = 0b001#3) :
      Decodes w (.lh (fieldRd w) (fieldRs1 w) (fieldImmI w))
  | lw (ho : fieldOpcode w = 0b0000011#7) (h3 : fieldFunct3 w = 0b010#3) :
      Decodes w (.lw (fieldRd w) (fieldRs1 w) (fieldImmI w))
  | lbu (ho : fieldOpcode w = 0b0000011#7) (h3 : fieldFunct3 w = 0b100#3) :
      Decodes w (.lbu (fieldRd w) (fieldRs1 w) (fieldImmI w))
  | lhu (ho : fieldOpcode w = 0b0000011#7) (h3 : fieldFunct3 w = 0b101#3) :
      Decodes w (.lhu (fieldRd w) (fieldRs1 w) (fieldImmI w))
  | sb (ho : fieldOpcode w = 0b0100011#7) (h3 : fieldFunct3 w = 0b000#3) :
      Decodes w (.sb (fieldRs1 w) (fieldRs2 w) (fieldImmS w))
  | sh (ho : fieldOpcode w = 0b0100011#7) (h3 : fieldFunct3 w = 0b001#3) :
      Decodes w (.sh (fieldRs1 w) (fieldRs2 w) (fieldImmS w))
  | sw (ho : fieldOpcode w = 0b0100011#7) (h3 : fieldFunct3 w = 0b010#3) :
      Decodes w (.sw (fieldRs1 w) (fieldRs2 w) (fieldImmS w))
  | addi (ho : fieldOpcode w = 0b0010011#7) (h3 : fieldFunct3 w = 0b000#3) :
      Decodes w (.addi (fieldRd w) (fieldRs1 w) (fieldImmI w))
  | slti (ho : fieldOpcode w = 0b0010011#7) (h3 : fieldFunct3 w = 0b010#3) :
      Decodes w (.slti (fieldRd w) (fieldRs1 w) (fieldImmI w))
  | sltiu (ho : fieldOpcode w = 0b0010011#7) (h3 : fieldFunct3 w = 0b011#3) :
      Decodes w (.sltiu (fieldRd w) (fieldRs1 w) (fieldImmI w))
  | xori (ho : fieldOpcode w = 0b0010011#7) (h3 : fieldFunct3 w = 0b100#3) :
      Decodes w (.xori (fieldRd w) (fieldRs1 w) (fieldImmI w))
  | ori (ho : fieldOpcode w = 0b0010011#7) (h3 : fieldFunct3 w = 0b110#3) :
      Decodes w (.ori (fieldRd w) (fieldRs1 w) (fieldImmI w))
  | andi (ho : fieldOpcode w = 0b0010011#7) (h3 : fieldFunct3 w = 0b111#3) :
      Decodes w (.andi (fieldRd w) (fieldRs1 w) (fieldImmI w))
  | slli (ho : fieldOpcode w = 0b0010011#7) (h3 : fieldFunct3 w = 0b001#3) (h7 : fieldFunct7 w = 0b0000000#7) :
      Decodes w (.slli (fieldRd w) (fieldRs1 w) (fieldShamt w))
  | srli (ho : fieldOpcode w = 0b0010011#7) (h3 : fieldFunct3 w = 0b101#3) (h7 : fieldFunct7 w = 0b0000000#7) :
      Decodes w (.srli (fieldRd w) (fieldRs1 w) (fieldShamt w))
  | srai (ho : fieldOpcode w = 0b0010011#7) (h3 : fieldFunct3 w = 0b101#3) (h7 : fieldFunct7 w = 0b0100000#7) :
      Decodes w (.srai (fieldRd w) (fieldRs1 w) (fieldShamt w))
  | add (ho : fieldOpcode w = 0b0110011#7) (h3 : fieldFunct3 w = 0b000#3) (h7 : fieldFunct7 w = 0b0000000#7) :
      Decodes w (.add (fieldRd w) (fieldRs1 w) (fieldRs2 w))
  | sub (ho : fieldOpcode w = 0b0110011#7) (h3 : fieldFunct3 w = 0b000#3) (h7 : fieldFunct7 w = 0b0100000#7) :
      Decodes w (.sub (fieldRd w) (fieldRs1 w) (fieldRs2 w))
  | sll (ho : fieldOpcode w = 0b0110011#7) (h3 : fieldFunct3 w = 0b001#3) (h7 : fieldFunct7 w = 0b0000000#7) :
      Decodes w (.sll (fieldRd w) (fieldRs1 w) (fieldRs2 w))
  | slt (ho : fieldOpcode w = 0b0110011#7) (h3 : fieldFunct3 w = 0b010#3) (h7 : fieldFunct7 w = 0b0000000#7) :
      Decodes w (.slt (fieldRd w) (fieldRs1 w) (fieldRs2 w))
  | sltu (ho : fieldOpcode w = 0b0110011#7) (h3 : fieldFunct3 w = 0b011#3) (h7 : fieldFunct7 w = 0b0000000#7) :
      Decodes w (.sltu (fieldRd w) (fieldRs1 w) (fieldRs2 w))
  | xor (ho : fieldOpcode w = 0b0110011#7) (h3 : fieldFunct3 w = 0b100#3) (h7 : fieldFunct7 w = 0b0000000#7) :
      Decodes w (.xor (fieldRd w) (fieldRs1 w) (fieldRs2 w))
  | srl (ho : fieldOpcode w = 0b0110011#7) (h3 : fieldFunct3 w = 0b101#3) (h7 : fieldFunct7 w = 0b0000000#7) :
      Decodes w (.srl (fieldRd w) (fieldRs1 w) (fieldRs2 w))
  | sra (ho : fieldOpcode w = 0b0110011#7) (h3 : fieldFunct3 w = 0b101#3) (h7 : fieldFunct7 w = 0b0100000#7) :
      Decodes w (.sra (fieldRd w) (fieldRs1 w) (fieldRs2 w))
  | or (ho : fieldOpcode w = 0b0110011#7) (h3 : fieldFunct3 w = 0b110#3) (h7 : fieldFunct7 w = 0b0000000#7) :
      Decodes w (.or (fieldRd w) (fieldRs1 w) (fieldRs2 w))
  | and (ho : fieldOpcode w = 0b0110011#7) (h3 : fieldFunct3 w = 0b111#3) (h7 : fieldFunct7 w = 0b0000000#7) :
      Decodes w (.and (fieldRd w) (fieldRs1 w) (fieldRs2 w))

/-- The nine major opcodes of the opcode table (R73). -/
def majorOpcodes : List (BitVec 7) :=
  [0b0110111#7, 0b0010111#7, 0b1101111#7, 0b1100111#7, 0b1100011#7, 0b0000011#7, 0b0100011#7, 0b0010011#7, 0b0110011#7]

/-- The illegal words by opcode, funct3 and funct7 (R74). -/
def Reserved (w : Word) : Prop :=
  fieldOpcode w ∉ majorOpcodes ∨
  (fieldOpcode w = 0b1100111#7 ∧ fieldFunct3 w ≠ 0b000#3) ∨
  (fieldOpcode w = 0b1100011#7 ∧ fieldFunct3 w ∈ [0b010#3, 0b011#3]) ∨
  (fieldOpcode w = 0b0000011#7 ∧ fieldFunct3 w ∈ [0b011#3, 0b110#3, 0b111#3]) ∨
  (fieldOpcode w = 0b0100011#7 ∧ fieldFunct3 w ∈ [0b011#3, 0b100#3, 0b101#3, 0b110#3, 0b111#3]) ∨
  (fieldOpcode w = 0b0010011#7 ∧ fieldFunct3 w = 0b001#3 ∧ fieldFunct7 w ≠ 0b0000000#7) ∨
  (fieldOpcode w = 0b0010011#7 ∧ fieldFunct3 w = 0b101#3 ∧ fieldFunct7 w ∉ [0b0000000#7, 0b0100000#7]) ∨
  (fieldOpcode w = 0b0110011#7 ∧ fieldFunct7 w ∉ [0b0000000#7, 0b0100000#7]) ∨
  (fieldOpcode w = 0b0110011#7 ∧ fieldFunct7 w = 0b0100000#7 ∧ fieldFunct3 w ∉ [0b000#3, 0b101#3])

/-- What the decoder can answer on a word (R71). -/
inductive DecoderCase (w : Word) : Except DecodeError Instr → Prop where
  | instr {i : Instr} (h : Decodes w i) : DecoderCase w (.ok i)
  | reserved (h : Reserved w) : DecoderCase w (.error (.unknownInstruction w))

theorem bitVec3_cases : ∀ f : BitVec 3,
    f = 0b000#3 ∨ f = 0b001#3 ∨ f = 0b010#3 ∨ f = 0b011#3 ∨ f = 0b100#3 ∨ f = 0b101#3 ∨ f = 0b110#3 ∨ f = 0b111#3 := by
  decide

/-- The decoder's cases: opcode first, then funct3 (and funct7), an answer of UnknownInstruction being the default of each. -/
theorem decode_cases (w : Word) : DecoderCase w (decode w) := by
  have h3 := bitVec3_cases (fieldFunct3 w)
  unfold decode
  dsimp only
  split
  case h_1 | h_2 | h_3 => exact .instr (by constructor; assumption)
  case h_4 => -- JALR
    split
    case h_2 => exact .reserved (by simp_all [Reserved])
    all_goals exact .instr (by constructor <;> assumption)
  case h_5 => -- the branches
    split
    case h_7 => exact .reserved (by simp_all [Reserved])
    all_goals exact .instr (by constructor <;> assumption)
  case h_6 => -- the loads
    split
    case h_6 => exact .reserved (by simp_all [Reserved])
    all_goals exact .instr (by constructor <;> assumption)
  case h_7 => -- the stores
    split
    case h_4 => exact .reserved (by simp_all [Reserved])
    all_goals exact .instr (by constructor <;> assumption)
  case h_8 => -- OP-IMM
    split
    case h_7 => -- SLLI
      split
      case h_2 => exact .reserved (by simp_all [Reserved])
      all_goals exact .instr (by constructor <;> assumption)
    case h_8 => -- SRLI and SRAI
      split
      case h_3 => exact .reserved (by simp_all [Reserved])
      all_goals exact .instr (by constructor <;> assumption)
    case h_9 => exact .reserved (by simp_all [Reserved])
    all_goals exact .instr (by constructor <;> assumption)
  case h_9 => -- OP
    split
    case h_1 =>
      split
      case h_9 => exact .reserved (by simp_all [Reserved])
      all_goals exact .instr (by constructor <;> assumption)
    case h_2 =>
      split
      case h_3 => exact .reserved (by simp_all [Reserved])
      all_goals exact .instr (by constructor <;> assumption)
    case h_3 => exact .reserved (by simp_all [Reserved])
  case h_10 => exact .reserved (.inl (by simp_all [majorOpcodes]))

/-- A word that is some row's instruction is in no class of illegal words. -/
theorem Decodes.not_reserved {w : Word} {i : Instr} (h : Decodes w i) : ¬ Reserved w := by
  cases h <;> simp [Reserved, majorOpcodes, *]

/-- The decoder gives the instruction of the row, and no other (R71). -/
theorem decode_eq_ok_iff {w : Word} {i : Instr} : decode w = .ok i ↔ Decodes w i := by
  refine ⟨fun h => ?_, fun h => ?_⟩
  · have hc := decode_cases w
    rw [h] at hc
    cases hc with
    | instr hi => exact hi
  · cases h <;> simp [decode, *]

/-- The decoder fails on the words of the classes of R74, and on no other. -/
theorem decode_eq_error_iff {w : Word} : decode w = .error (.unknownInstruction w) ↔ Reserved w := by
  have hc := decode_cases w
  generalize decode w = answer at hc
  cases hc with
  | instr hi => exact ⟨nofun, fun hr => absurd hr hi.not_reserved⟩
  | reserved hr => exact ⟨fun _ => hr, fun _ => rfl⟩

/-- Every major opcode ends in the bits 11, so a word whose low bits are not 11 has none of them. -/
theorem reserved_of_low_bits {w : Word} (h : w.extractLsb' 0 2 ≠ 0b11#2) : Reserved w := by
  have hlow : w.extractLsb' 0 2 = (fieldOpcode w).extractLsb' 0 2 := by
    ext k hk
    simp [fieldOpcode]
  have hmajor : ∀ op ∈ majorOpcodes, op.extractLsb' 0 2 = 0b11#2 := by decide
  exact .inl fun hop => h (hlow.trans (hmajor _ hop))

/-- Settles O44: the decoder fails on the classes of `Reserved`, and a word whose low bits are not 11 is in the first of
them. -/
theorem reservedWordsAreIllegal : Obligations.ReservedWordsAreIllegal := by
  refine ⟨fun w => ?_, by decide, by decide, fun s forward pc w predNext hfd hd => ⟨?_, rfl⟩⟩
  · rw [decode_eq_error_iff]
    exact ⟨fun h => h.elim reserved_of_low_bits id, .inr⟩
  · simp [decodeStage, hfd, hd]

/-! ### The opcode table (R73) -/

/-- Masking a word masks each of its R-type fields. -/
theorem and_encodeR (w : Word) (m7 : BitVec 7) (m2 m1 : RegIdx) (m3 : BitVec 3) (md : RegIdx) (mo : BitVec 7) :
    w &&& encodeR m7 m2 m1 m3 md mo =
      encodeR (fieldFunct7 w &&& m7) (fieldRs2 w &&& m2) (fieldRs1 w &&& m1) (fieldFunct3 w &&& m3) (fieldRd w &&& md)
        (fieldOpcode w &&& mo) := by
  apply BitVec.eq_of_getLsbD_eq
  intro k hk
  simp only [encodeR, fieldFunct7, fieldRs2, fieldRs1, fieldFunct3, fieldRd, fieldOpcode, BitVec.getLsbD_and,
    BitVec.getLsbD_append, BitVec.getLsbD_extractLsb']
  interval_cases k <;> simp

/-- The masks of R73 keep the opcode, the opcode and funct3, or these and funct7. -/
theorem and_opcodeMask {w : Word} {op : BitVec 7} (ho : fieldOpcode w = op) :
    w &&& 0x0000007F#32 = encodeR 0#7 0#5 0#5 0#3 0#5 op := by
  refine (and_encodeR w 0#7 0#5 0#5 0#3 0#5 (.allOnes 7)).trans ?_
  simp only [BitVec.and_zero, BitVec.and_allOnes, ho]

theorem and_funct3Mask {w : Word} {op : BitVec 7} {f3 : BitVec 3} (ho : fieldOpcode w = op) (h3 : fieldFunct3 w = f3) :
    w &&& 0x0000707F#32 = encodeR 0#7 0#5 0#5 f3 0#5 op := by
  refine (and_encodeR w 0#7 0#5 0#5 (.allOnes 3) 0#5 (.allOnes 7)).trans ?_
  simp only [BitVec.and_zero, BitVec.and_allOnes, ho, h3]

theorem and_funct7Mask {w : Word} {op : BitVec 7} {f3 : BitVec 3} {f7 : BitVec 7} (ho : fieldOpcode w = op)
    (h3 : fieldFunct3 w = f3) (h7 : fieldFunct7 w = f7) :
    w &&& 0xFE00707F#32 = encodeR f7 0#5 0#5 f3 0#5 op := by
  refine (and_encodeR w (.allOnes 7) 0#5 0#5 (.allOnes 3) 0#5 (.allOnes 7)).trans ?_
  simp only [BitVec.and_zero, BitVec.and_allOnes, ho, h3, h7]

/-- Two rows whose bits agree under both masks are the same row. -/
theorem opcodeTable_disjoint : ∀ r ∈ opcodeTable, ∀ r' ∈ opcodeTable,
    r.bits &&& r'.mask = r'.bits &&& r.mask → r = r' := by decide

/-- Two rows that match one word are the same row. -/
theorem row_unique {w : Word} {r r' : OpcodeRow} (hr : r ∈ opcodeTable) (hr' : r' ∈ opcodeTable)
    (h : w &&& r.mask = r.bits) (h' : w &&& r'.mask = r'.bits) : r' = r :=
  opcodeTable_disjoint r' hr' r hr (by rw [← h, ← h', BitVec.and_assoc, BitVec.and_assoc, BitVec.and_comm r.mask])

/-- The word of an instruction matches the row of its mnemonic. -/
theorem Decodes.row {w : Word} {i : Instr} (h : Decodes w i) :
    ∃ row ∈ opcodeTable, row.mnemonic = i.mnemonic ∧ w &&& row.mask = row.bits := by
  cases h
  case lui ho | auipc ho | jal ho => exact ⟨⟨_, _, _⟩, by decide, rfl, and_opcodeMask ho⟩
  case slli ho h3 h7 | srli ho h3 h7 | srai ho h3 h7 | add ho h3 h7 | sub ho h3 h7 | sll ho h3 h7 | slt ho h3 h7 |
      sltu ho h3 h7 | xor ho h3 h7 | srl ho h3 h7 | sra ho h3 h7 | or ho h3 h7 | and ho h3 h7 =>
    exact ⟨⟨_, _, _⟩, by decide, rfl, and_funct7Mask ho h3 h7⟩
  all_goals
    rename_i ho h3
    exact ⟨⟨_, _, _⟩, by decide, rfl, and_funct3Mask ho h3⟩

/-- Bits under a mask that keeps all of them. -/
theorem extract_of_and {w m b : Word} {a n : Nat} (h : w &&& m = b) (hm : m.extractLsb' a n = BitVec.allOnes n) :
    w.extractLsb' a n = b.extractLsb' a n := by
  rw [← h, BitVec.extractLsb'_and, hm, BitVec.and_allOnes]

/-- A word that matches a row is that row's instruction: its mask keeps the fields that the instruction asks for. -/
theorem decodes_of_row {w : Word} {row : OpcodeRow} (hrow : row ∈ opcodeTable) (h : w &&& row.mask = row.bits) :
    ∃ i, Decodes w i := by
  fin_cases hrow
  · exact ⟨_, .lui (extract_of_and h rfl)⟩
  · exact ⟨_, .auipc (extract_of_and h rfl)⟩
  · exact ⟨_, .jal (extract_of_and h rfl)⟩
  · exact ⟨_, .jalr (extract_of_and h rfl) (extract_of_and h rfl)⟩
  · exact ⟨_, .beq (extract_of_and h rfl) (extract_of_and h rfl)⟩
  · exact ⟨_, .bne (extract_of_and h rfl) (extract_of_and h rfl)⟩
  · exact ⟨_, .blt (extract_of_and h rfl) (extract_of_and h rfl)⟩
  · exact ⟨_, .bge (extract_of_and h rfl) (extract_of_and h rfl)⟩
  · exact ⟨_, .bltu (extract_of_and h rfl) (extract_of_and h rfl)⟩
  · exact ⟨_, .bgeu (extract_of_and h rfl) (extract_of_and h rfl)⟩
  · exact ⟨_, .lb (extract_of_and h rfl) (extract_of_and h rfl)⟩
  · exact ⟨_, .lh (extract_of_and h rfl) (extract_of_and h rfl)⟩
  · exact ⟨_, .lw (extract_of_and h rfl) (extract_of_and h rfl)⟩
  · exact ⟨_, .lbu (extract_of_and h rfl) (extract_of_and h rfl)⟩
  · exact ⟨_, .lhu (extract_of_and h rfl) (extract_of_and h rfl)⟩
  · exact ⟨_, .sb (extract_of_and h rfl) (extract_of_and h rfl)⟩
  · exact ⟨_, .sh (extract_of_and h rfl) (extract_of_and h rfl)⟩
  · exact ⟨_, .sw (extract_of_and h rfl) (extract_of_and h rfl)⟩
  · exact ⟨_, .addi (extract_of_and h rfl) (extract_of_and h rfl)⟩
  · exact ⟨_, .slti (extract_of_and h rfl) (extract_of_and h rfl)⟩
  · exact ⟨_, .sltiu (extract_of_and h rfl) (extract_of_and h rfl)⟩
  · exact ⟨_, .xori (extract_of_and h rfl) (extract_of_and h rfl)⟩
  · exact ⟨_, .ori (extract_of_and h rfl) (extract_of_and h rfl)⟩
  · exact ⟨_, .andi (extract_of_and h rfl) (extract_of_and h rfl)⟩
  · exact ⟨_, .slli (extract_of_and h rfl) (extract_of_and h rfl) (extract_of_and h rfl)⟩
  · exact ⟨_, .srli (extract_of_and h rfl) (extract_of_and h rfl) (extract_of_and h rfl)⟩
  · exact ⟨_, .srai (extract_of_and h rfl) (extract_of_and h rfl) (extract_of_and h rfl)⟩
  · exact ⟨_, .add (extract_of_and h rfl) (extract_of_and h rfl) (extract_of_and h rfl)⟩
  · exact ⟨_, .sub (extract_of_and h rfl) (extract_of_and h rfl) (extract_of_and h rfl)⟩
  · exact ⟨_, .sll (extract_of_and h rfl) (extract_of_and h rfl) (extract_of_and h rfl)⟩
  · exact ⟨_, .slt (extract_of_and h rfl) (extract_of_and h rfl) (extract_of_and h rfl)⟩
  · exact ⟨_, .sltu (extract_of_and h rfl) (extract_of_and h rfl) (extract_of_and h rfl)⟩
  · exact ⟨_, .xor (extract_of_and h rfl) (extract_of_and h rfl) (extract_of_and h rfl)⟩
  · exact ⟨_, .srl (extract_of_and h rfl) (extract_of_and h rfl) (extract_of_and h rfl)⟩
  · exact ⟨_, .sra (extract_of_and h rfl) (extract_of_and h rfl) (extract_of_and h rfl)⟩
  · exact ⟨_, .or (extract_of_and h rfl) (extract_of_and h rfl) (extract_of_and h rfl)⟩
  · exact ⟨_, .and (extract_of_and h rfl) (extract_of_and h rfl) (extract_of_and h rfl)⟩

/-- Settles O43: the row of the decoded instruction, which no other row shares a word with, and the instruction of a row. -/
theorem decoderFollowsTheOpcodeTable : Obligations.DecoderFollowsTheOpcodeTable := by
  refine ⟨rfl, fun w i hd => ?_, fun w ⟨row, hrow, h⟩ => ?_, fun w hnone => ?_⟩
  · obtain ⟨row, hrow, hname, h⟩ := (decode_eq_ok_iff.1 hd).row
    exact ⟨row, hrow, hname, h, fun row' hrow' h' => row_unique hrow hrow' h h'⟩
  · obtain ⟨i, hi⟩ := decodes_of_row hrow h
    exact ⟨i, decode_eq_ok_iff.2 hi⟩
  · cases hd : decode w with
    | error e => rw [decode_error hd]
    | ok i =>
      obtain ⟨row, hrow, _, h⟩ := (decode_eq_ok_iff.1 hd).row
      exact absurd h (hnone row hrow)

/-! ### The fields of each format (R62 to R70) -/

/-- The source registers that a word of a format names (R70). -/
def sourceFields (w : Word) : Format → List RegIdx
  | .r | .s | .b => [fieldRs1 w, fieldRs2 w]
  | .i => [fieldRs1 w]
  | .u | .j => []

/-- The destination register that a word of a format names (R70). -/
def destinationField (w : Word) : Format → Option RegIdx
  | .r | .i | .u | .j => some (fieldRd w)
  | .s | .b => none

/-- Being one of the three shift immediates (R68). -/
abbrev IsShiftImm (i : Instr) : Prop := i.mnemonic = "SLLI" ∨ i.mnemonic = "SRLI" ∨ i.mnemonic = "SRAI"

/-- The immediate that the word of an instruction spells (R63 to R69). -/
def immediateField (w : Word) (i : Instr) : Word :=
  match formatOf i with
  | .r => 0#32
  | .i => if IsShiftImm i then (fieldShamt w).setWidth 32 else fieldImmI w
  | .s => fieldImmS w
  | .b => fieldImmB w
  | .u => fieldImmU w
  | .j => fieldImmJ w

section
variable {w : Word} {i : Instr} (h : Decodes w i)
include h

theorem Decodes.sources : srcsOf i = sourceFields w (formatOf i) := by cases h <;> rfl

theorem Decodes.destination : rdOf i = destinationField w (formatOf i) := by cases h <;> rfl

theorem Decodes.immediate : immOf i = immediateField w i := by cases h <;> rfl

/-- A shift immediate has format I and its funct7 (R68). -/
theorem Decodes.shift (hs : IsShiftImm i) :
    formatOf i = .i ∧ fieldFunct7 w = if i.mnemonic = "SRAI" then 32#7 else 0#7 := by
  cases h
  case slli h7 | srli h7 | srai h7 => exact ⟨rfl, h7⟩
  all_goals simp [IsShiftImm, Instr.mnemonic] at hs

end

/-- Settles O50, by the fields that each format has. -/
theorem registerUseSets : Obligations.RegisterUseSets := by
  intro w i hd rd rs1 rs2
  have hw := decode_eq_ok_iff.1 hd
  rw [hw.sources, hw.destination]
  generalize formatOf i = format
  refine ⟨?_, ?_, ?_, ?_⟩
  · rintro rfl; exact ⟨rfl, rfl⟩
  · rintro rfl; exact ⟨rfl, rfl⟩
  · rintro (rfl | rfl) <;> exact ⟨rfl, rfl⟩
  · rintro (rfl | rfl) <;> exact ⟨rfl, rfl⟩

/-! ### Immediates as numbers (R63 to R68) -/

/-- `w[hi:lo]` as a number (R61). -/
abbrev bitsOf (w : Word) (hi lo : Nat) : Nat := w.toNat / 2 ^ lo % 2 ^ (hi - lo + 1)

/-- The `n`-bit two's-complement number spelled by `v`. -/
abbrev twosComplement (n v : Nat) : Int := if v < 2 ^ (n - 1) then (v : Int) else (v : Int) - 2 ^ n

/-- A sign extension to a word is the two's-complement number of its bits (R10). -/
theorem toInt_signExtend_word {n : Nat} (h0 : 0 < n) (hn : n ≤ 32) (v : BitVec n) :
    (v.signExtend 32).toInt = twosComplement n v.toNat := by
  have := Nat.two_pow_pred_add_two_pow_pred h0
  rw [BitVec.toInt_signExtend_of_le hn, BitVec.toInt_eq_toNat_cond]
  exact if_congr (by omega) rfl (by push_cast; rfl)

/-- The number of two concatenated bit strings. -/
theorem toNat_append_mul_add {m n : Nat} (x : BitVec m) (y : BitVec n) : (x ++ y).toNat = 2 ^ n * x.toNat + y.toNat := by
  rw [BitVec.toNat_append, ← Nat.shiftLeft_add_eq_or_of_lt y.isLt, Nat.shiftLeft_eq, Nat.mul_comm]

/-- The number of an extracted field. -/
theorem toNat_extract (w : Word) (lo n : Nat) : (w.extractLsb' lo (n + 1)).toNat = bitsOf w (lo + n) lo := by
  rw [BitVec.extractLsb'_toNat, Nat.shiftRight_eq_div_pow, bitsOf, Nat.add_sub_cancel_left]

theorem fieldImmI_toInt (w : Word) : (fieldImmI w).toInt = twosComplement 12 (bitsOf w 31 20) := by
  rw [fieldImmI, toInt_signExtend_word (by decide) (by decide), toNat_extract]

theorem fieldImmS_toInt (w : Word) : (fieldImmS w).toInt = twosComplement 12 (2 ^ 5 * bitsOf w 31 25 + bitsOf w 11 7) := by
  rw [fieldImmS, toInt_signExtend_word (by decide) (by decide), toNat_append_mul_add, toNat_extract, toNat_extract]

theorem fieldImmB_toInt (w : Word) : (fieldImmB w).toInt = twosComplement 13
    (2 ^ 12 * bitsOf w 31 31 + 2 ^ 11 * bitsOf w 7 7 + 2 ^ 5 * bitsOf w 30 25 + 2 * bitsOf w 11 8) := by
  rw [fieldImmB, toInt_signExtend_word (by decide) (by decide)]
  simp only [toNat_append_mul_add, toNat_extract, BitVec.toNat_ofNat]
  simp only [Nat.reduceAdd]
  congr 1
  omega

theorem fieldImmJ_toInt (w : Word) : (fieldImmJ w).toInt = twosComplement 21
    (2 ^ 20 * bitsOf w 31 31 + 2 ^ 12 * bitsOf w 19 12 + 2 ^ 11 * bitsOf w 20 20 + 2 * bitsOf w 30 21) := by
  rw [fieldImmJ, toInt_signExtend_word (by decide) (by decide)]
  simp only [toNat_append_mul_add, toNat_extract, BitVec.toNat_ofNat]
  simp only [Nat.reduceAdd]
  congr 1
  omega

theorem fieldImmU_toNat (w : Word) : (fieldImmU w).toNat = 2 ^ 12 * bitsOf w 31 12 := by
  rw [fieldImmU, toNat_append_mul_add, toNat_extract]
  rfl

theorem fieldImmU_eq_and (w : Word) : fieldImmU w = w &&& 0xFFFFF000#32 := by
  apply BitVec.eq_of_getLsbD_eq
  intro k hk
  simp only [fieldImmU, BitVec.getLsbD_append, BitVec.getLsbD_extractLsb', BitVec.getLsbD_and]
  interval_cases k <;> simp

theorem fieldShamt_toNat (w : Word) : ((fieldShamt w).setWidth 32).toNat = bitsOf w 24 20 := by
  rw [BitVec.toNat_setWidth_of_le (by decide), fieldShamt, toNat_extract]

theorem fieldFunct7_toNat (w : Word) : (fieldFunct7 w).toNat = bitsOf w 31 25 := by
  rw [fieldFunct7, toNat_extract]

/-- A shift-immediate word asking for a shift by 32 or more is illegal (R68). -/
theorem reserved_of_shift_bit25 {w : Word} (ho : fieldOpcode w = 0b0010011#7)
    (h3 : fieldFunct3 w = 0b001#3 ∨ fieldFunct3 w = 0b101#3) (h25 : w.getLsbD 25 = true) : Reserved w := by
  have hodd : ∀ f7 ∈ [0b0000000#7, 0b0100000#7], f7.getLsbD 0 = false := by decide
  have hbit : (fieldFunct7 w).getLsbD 0 = w.getLsbD 25 := by simp [fieldFunct7]
  have h7 : fieldFunct7 w ∉ [0b0000000#7, 0b0100000#7] := fun hmem =>
    Bool.false_ne_true ((hodd _ hmem).symm.trans (hbit.trans h25))
  rcases h3 with h3 | h3
  · simp_all [Reserved]
  · simp_all [Reserved]

/-- Settles O45: the immediate is the field of its format, and that field is the number its bits spell. -/
theorem immediatesAreAssembledFromTheirFields : Obligations.ImmediatesAreAssembledFromTheirFields := by
  refine ⟨fun w i hd => ?_, fun w ho h3 h25 => ?_⟩
  · have hw := decode_eq_ok_iff.1 hd
    have himm := hw.immediate
    refine ⟨fun hf hs => ?_, fun hf => ?_, fun hf => ?_, fun hf => ?_, fun hf => ?_, fun hs => ?_⟩
    · rw [himm, immediateField, hf]
      exact (congrArg BitVec.toInt (if_neg hs)).trans (fieldImmI_toInt w)
    · rw [himm, immediateField, hf]
      exact fieldImmS_toInt w
    · rw [himm, immediateField, hf]
      exact fieldImmB_toInt w
    · rw [himm, immediateField, hf]
      exact ⟨fieldImmU_toNat w, fieldImmU_eq_and w⟩
    · rw [himm, immediateField, hf]
      exact fieldImmJ_toInt w
    · obtain ⟨hf, h7⟩ := hw.shift hs
      rw [himm, immediateField, hf]
      exact ⟨(congrArg BitVec.toNat (if_pos hs)).trans (fieldShamt_toNat w),
        (fieldFunct7_toNat w).symm.trans ((congrArg BitVec.toNat h7).trans (apply_ite ..))⟩
  · exact decode_eq_error_iff.2 (reserved_of_shift_bit25 ho h3 h25)

/-! ### Hints (R75) -/

/-- An ALU instruction, LUI or AUIPC writes a result to rd, and completes. -/
theorem exec_writesResult {rd rs1 rs2 : RegIdx} {imm : Word} {shamt : BitVec 5} {i : Instr}
    (hi : i ∈ aluInstrs rd rs1 rs2 imm shamt ++ upperInstrs rd imm) (s : State) :
    ∃ v, exec i s = .next ((s.writeReg rd v).retireTo (s.fpc + 4#32)) := by
  fin_cases hi <;> exact ⟨_, rfl⟩

/-- Settles O18: such an instruction writes its result to x0, which discards it. -/
theorem hintFormsAreOrdinary : Obligations.HintFormsAreOrdinary := by
  refine ⟨fun s rs1 rs2 imm shamt i hi => ?_, by decide, fun w hw => ?_⟩
  · obtain ⟨v, hv⟩ := exec_writesResult hi s
    rw [hv, writeReg_x0]
  · have hcustom : ∀ op ∈ [0b0001011#7, 0b0101011#7, 0b1011011#7, 0b1111011#7], op ∉ majorOpcodes := by decide
    exact decode_eq_error_iff.2 (.inl (hcustom _ hw))

end Sys2Proof.Machine
end

section
/-! The integer ALU (40_integer_alu.md): the result each of the nineteen instructions computes, as arithmetic on its operands,
and how Execute and Write-back share the work. -/

namespace Sys2Proof.Machine

/-! ### Instructions that write a result (R81) -/

/-- Being an instruction whose Execute computes a result and nothing more, and whose Write-back writes it to `rd` (R81). -/
structure WritesResult (i : Instr) (rd : RegIdx) : Prop where
  dest : rdOf i = some rd
  notLoad : isLoad i = false
  execute (pc a b : Word) : ∃ v, (splitOf i).execute pc a b = executeResult v
  commit : (splitOf i).commit = commitResult rd

theorem writesResult_of_mem {rd rs1 rs2 : RegIdx} {imm : Word} {shamt : BitVec 5} {i : Instr}
    (hi : i ∈ aluInstrs rd rs1 rs2 imm shamt ++ upperInstrs rd imm) : WritesResult i rd := by
  fin_cases hi <;> exact ⟨rfl, rfl, fun _ _ _ => ⟨_, rfl⟩, rfl⟩

/-- Run by itself, such an instruction writes the result that Execute computes from its source registers. -/
theorem exec_of_result {i : Instr} {rd : RegIdx} {s : State} {v : Word}
    (hx : (splitOf i).execute s.fpc (s.readSource (rs1Of i)) (s.readSource (rs2Of i)) = executeResult v)
    (hc : (splitOf i).commit = commitResult rd) : exec i s = .next ((s.writeReg rd v).retireTo (s.fpc + 4#32)) := by
  rw [exec_eq_runAlone, runAlone, hx, hc]
  rfl

/-- The Execute stage puts such an instruction into EW with its result, offers the result to Decode unless rd = 0, and never
redirects (R81, R158, R161). -/
theorem WritesResult.executeStage_eq {i : Instr} {rd : RegIdx} (h : WritesResult i rd) {pc a b v : Word}
    (hx : (splitOf i).execute pc a b = executeResult v) (predNext : Word) :
    executeStage (.decoded pc i a b predNext) = .ok
      { ew := .executed pc i v 0#32 0#32
        forward := if rd = 0#5 then none else some (rd, v)
        redirect := none } := by
  have hforward : forwarded i v = if rd = 0#5 then none else some (rd, v) := by simp [forwarded, h.dest, h.notLoad]
  rw [← hforward, executeStage, hx]
  rfl

/-- Settles O17, by the shape that the nineteen instructions share. -/
theorem aluStageSplit : Obligations.AluStageSplit := by
  intro rd rs1 rs2 imm shamt i hi pc a b
  have hmem := List.mem_append_left (upperInstrs rd imm) hi
  have hw := writesResult_of_mem hmem
  obtain ⟨v, hx⟩ := hw.execute pc a b
  refine ⟨v, hx, fun pc' addr data s => ?_, hw.executeStage_eq hx, fun s t ht => ?_⟩
  · rw [hw.commit]
    rfl
  · obtain ⟨_, hv⟩ := exec_writesResult hmem s
    cases hv.symm.trans ht
    rfl

/-! ### Results as numbers (R79, R82, R83) -/

/-- An addition of words is that of their signed values, kept to 32 bits. -/
theorem add_eq_ofInt_toInt (a b : Word) : a + b = BitVec.ofInt 32 (a.toInt + b.toInt) := by
  rw [BitVec.ofInt_add, BitVec.ofInt_toInt, BitVec.ofInt_toInt]

/-- A subtraction of words is that of their unsigned values, kept to 32 bits. -/
theorem sub_eq_ofInt_toNat (a b : Word) : a - b = BitVec.ofInt 32 ((a.toNat : Int) - (b.toNat : Int)) := by
  apply BitVec.eq_of_toInt_eq
  rw [BitVec.toInt_sub, BitVec.toInt_ofInt]
  simp [BitVec.toInt_eq_toNat_bmod]

theorem shiftLeft_shiftAmount (a b : Word) : a <<< shiftAmount b = BitVec.ofNat 32 (a.toNat * 2 ^ (b.toNat % 32)) := by
  rw [shiftLeft_eq_ofNat, shiftAmount_eq]

theorem shiftRight_shiftAmount (a b : Word) : a >>> shiftAmount b = BitVec.ofNat 32 (a.toNat / 2 ^ (b.toNat % 32)) := by
  rw [shiftRight_eq_ofNat, shiftAmount_eq]

theorem sshiftRight_shiftAmount (a b : Word) :
    a.sshiftRight (shiftAmount b) = BitVec.ofInt 32 (a.toInt / 2 ^ (b.toNat % 32)) := by
  rw [sshiftRight_eq_ofInt, shiftAmount_eq]

theorem boolWord_decide (p : Prop) [Decidable p] : boolWord (decide p) = if p then 1#32 else 0#32 := by
  simp [boolWord]

/-- An I-type immediate is the 12-bit number that the word's top bits spell (R63). -/
theorem fieldImmI_eq_ofInt (w : Word) : fieldImmI w = BitVec.ofInt 32 (twosComplement 12 (w.toNat / 2 ^ 20)) := by
  have htop : bitsOf w 31 20 = w.toNat / 2 ^ 20 := Nat.mod_eq_of_lt (Nat.div_lt_of_lt_mul w.isLt)
  rw [← htop, ← fieldImmI_toInt, BitVec.ofInt_toInt]

/-! ### What each instruction writes -/

/-- Settles O13: the results as exact sums, differences and products, and the shape that rules out an error. -/
theorem aluWrapsAndNeverRaises : Obligations.AluWrapsAndNeverRaises := by
  intro s rd rs1 rs2 imm shamt
  refine ⟨?addi, ?add, ?sub, ?slli, ?sll, fun i hi => ?_⟩
  case addi => exact exec_of_result (congrArg executeResult (add_eq_ofInt_toInt _ _)) rfl
  case add => exact exec_of_result (congrArg executeResult (BitVec.add_def _ _)) rfl
  case sub => exact exec_of_result (congrArg executeResult (sub_eq_ofInt_toNat _ _)) rfl
  case slli => exact exec_of_result (congrArg executeResult (shiftLeft_eq_ofNat _ _)) rfl
  case sll => exact exec_of_result (congrArg executeResult (shiftLeft_shiftAmount _ _)) rfl
  have hmem := List.mem_append_left (upperInstrs rd imm) hi
  have hw := writesResult_of_mem hmem
  refine ⟨exec_writesResult hmem s, fun pc x y e he => ?_, fun pc result addr data e he => ?_⟩
  · obtain ⟨v, hx⟩ := hw.execute pc x y
    cases hx.symm.trans he
  · rw [hw.commit] at he
    cases he

/-- Settles O14, by the shifts as arithmetic. -/
theorem shiftsUseFiveBitAmounts : Obligations.ShiftsUseFiveBitAmounts := by
  intro s rd rs1 rs2 shamt
  refine ⟨?sll, ?srl, ?sra, ?slli, ?srli, ?srai⟩
  case sll => exact exec_of_result (congrArg executeResult (shiftLeft_shiftAmount _ _)) rfl
  case srl => exact exec_of_result (congrArg executeResult (shiftRight_shiftAmount _ _)) rfl
  case sra => exact exec_of_result (congrArg executeResult (sshiftRight_shiftAmount _ _)) rfl
  case slli => exact exec_of_result (congrArg executeResult (shiftLeft_eq_ofNat _ _)) rfl
  case srli => exact exec_of_result (congrArg executeResult (shiftRight_eq_ofNat _ _)) rfl
  case srai => exact exec_of_result (congrArg executeResult (sshiftRight_eq_ofInt _ _)) rfl

/-- Settles O15: each comparison's word, and the immediate that the decoder makes of an SLTIU word. -/
theorem comparisonsWriteZeroOrOne : Obligations.ComparisonsWriteZeroOrOne := by
  refine ⟨fun s rd rs1 rs2 imm => ⟨?slt, ?slti, ?sltu, ?sltiu⟩, fun w rd rs1 imm hd => ?_⟩
  case slt | slti | sltu | sltiu => exact exec_of_result (congrArg executeResult (boolWord_decide _)) rfl
  have himm : imm = fieldImmI w := (decode_eq_ok_iff.1 hd).immediate
  rw [himm]
  exact fieldImmI_eq_ofInt w

end Sys2Proof.Machine
end

section
/-! The upper-immediate instructions (41_upper_immediate.md): the words of LUI and AUIPC, what each writes, and that neither
waits for a load. -/

namespace Sys2Proof.Machine

/-! ### Words (R104, R105) -/

theorem decode_lui {w : Word} (ho : fieldOpcode w = 0b0110111#7) :
    decode w = .ok (.lui (fieldRd w) (w &&& 0xFFFFF000#32)) := by
  rw [← fieldImmU_eq_and]
  exact decode_eq_ok_iff.2 (.lui ho)

theorem decode_auipc {w : Word} (ho : fieldOpcode w = 0b0010111#7) :
    decode w = .ok (.auipc (fieldRd w) (w &&& 0xFFFFF000#32)) := by
  rw [← fieldImmU_eq_and]
  exact decode_eq_ok_iff.2 (.auipc ho)

/-! ### Stage split (R81, R104, R105) -/

theorem writesResult_of_upper {rd : RegIdx} {imm : Word} {i : Instr} (hi : i ∈ upperInstrs rd imm) : WritesResult i rd :=
  writesResult_of_mem (List.mem_append_right (aluInstrs rd 0#5 0#5 imm 0#5) hi)

/-- Write-back of such an instruction writes the result it is given, whatever its other inputs (R163). -/
theorem WritesResult.commit_eq {i : Instr} {rd : RegIdx} (h : WritesResult i rd) (pc result addr data : Word) (s : State) :
    (splitOf i).commit pc result addr data s = .ok (s.writeReg rd result) := by
  rw [h.commit]
  rfl

/-! ### Sources (R70, R159) -/

theorem srcsOf_upper {rd : RegIdx} {imm : Word} {i : Instr} (hi : i ∈ upperInstrs rd imm) : srcsOf i = [] := by
  fin_cases hi <;> rfl

/-- An instruction without a source register never waits for a load. -/
theorem loadUse_of_no_source {d : Instr} (h : srcsOf d = []) (de : DeLatch) : loadUse de d = false := by
  rw [← Bool.not_eq_true, loadUse_eq_true]
  rintro ⟨_, _, _, _, _, rd, _, _, _, _, hmem⟩
  rw [h] at hmem
  exact List.not_mem_nil hmem

/-- Settles O19: the decoder's two rows, the shape shared with the ALU instructions, and the empty list of sources. -/
theorem upperImmediateInstructions : Obligations.UpperImmediateInstructions := by
  have hlui (rd : RegIdx) (imm : Word) : WritesResult (.lui rd imm) rd :=
    writesResult_of_upper (imm := imm) (by simp [upperInstrs])
  have hauipc (rd : RegIdx) (imm : Word) : WritesResult (.auipc rd imm) rd :=
    writesResult_of_upper (imm := imm) (by simp [upperInstrs])
  refine ⟨fun w h => decode_lui (extract_of_and h rfl), fun w h => decode_auipc (extract_of_and h rfl),
    fun s rd imm => ⟨?execLui, ?execAuipc⟩, fun pc a b predNext imm rd => ⟨?stageLui, ?stageAuipc⟩,
    fun s pc result addr data imm rd => ⟨?commitLui, ?commitAuipc⟩, fun rd imm de i hi => ?sources⟩
  case execLui => exact exec_of_result rfl (hlui rd imm).commit
  case execAuipc => exact exec_of_result (congrArg executeResult (BitVec.add_def _ _)) (hauipc rd imm).commit
  case stageLui => exact (hlui rd imm).executeStage_eq rfl predNext
  case stageAuipc => exact (hauipc rd imm).executeStage_eq rfl predNext
  case commitLui => exact (hlui rd imm).commit_eq pc result addr data s
  case commitAuipc => exact (hauipc rd imm).commit_eq pc result addr data s
  case sources => exact ⟨srcsOf_upper hi, loadUse_of_no_source (srcsOf_upper hi) de⟩

end Sys2Proof.Machine
end

section
/-! Loads and stores (42_loads_stores.md): what an access whose checks pass does, a load into x0, and the bytes a store
leaves in memory. -/

namespace Sys2Proof.Machine

/-! ### An access that passes its checks (R106 to R108) -/

/-- Execute of a load or store hands on the effective address, the value of rs2 as data (0 for a load, which has no rs2), and
no control transfer (R107). -/
theorem execute_access_eq {i : Instr} {n : Nat} (hn : accessWidth i = some n) (pc : Word) (s : State) :
    (splitOf i).execute pc (s.readSource (rs1Of i)) (s.readSource (rs2Of i)) =
      .ok { addr := accessAddress i s, data := s.readSource (rs2Of i) } := by
  cases i
  case lb | lh | lw | lbu | lhu | sb | sh | sw => rfl
  all_goals cases hn

/-- A load or store does what its Write-back does at the effective address, and retires to pc + 4. -/
theorem exec_access_ok {i : Instr} {n : Nat} (hn : accessWidth i = some n) {s t : State}
    (h : (splitOf i).commit s.fpc 0#32 (accessAddress i s) (s.readSource (rs2Of i)) s = .ok t) :
    exec i s = .next (t.retireTo (s.fpc + 4#32)) := by
  simp only [exec_eq_runAlone, runAlone, execute_access_eq hn, h]
  rfl

/-! ### Loads (R109, R111) -/

theorem accessAddress_load {rd rs1 : RegIdx} {imm : Word} {i : Instr} (hi : i ∈ loadInstrs rd rs1 imm) (s : State) :
    accessAddress i s = s.readReg rs1 + imm := by
  fin_cases hi <;> rfl

/-- An aligned load in bounds writes the extended value `v` of the bytes at its effective address to rd. -/
theorem exec_load_passes {rd rs1 : RegIdx} {imm : Word} {i : Instr} {n : Nat} (hi : i ∈ loadInstrs rd rs1 imm)
    (hn : accessWidth i = some n) {s : State} (ha : (s.readReg rs1 + imm).toNat % n = 0)
    (hb : (s.readReg rs1 + imm).toNat + n ≤ s.cfg.memSize) {v : Word}
    (hv : BitVec.ofInt 32 (loadedNumber i (Memory.readBytes s.mem (s.readReg rs1 + imm).toNat n)) = v) :
    exec i s = .next ((s.writeReg rd v).retireTo (s.fpc + 4#32)) := by
  apply exec_access_ok hn
  rw [accessAddress_load hi, ← hv]
  exact commit_load_passes hi hn ha hb ..

/-- Settles O6: the aligned load in bounds, with each mnemonic's extended value. -/
theorem loadsCompleteWithExtendedValue : Obligations.LoadsCompleteWithExtendedValue := by
  intro s rd rs1 imm
  refine ⟨fun hb => ⟨?lb, ?lbu⟩, fun ha hb => ⟨?lh, ?lhu⟩, fun ha hb => ?lw⟩
  case lb => exact exec_load_passes (i := .lb rd rs1 imm) (by simp [loadInstrs]) rfl (Nat.mod_one _) hb rfl
  case lbu => exact exec_load_passes (i := .lbu rd rs1 imm) (by simp [loadInstrs]) rfl (Nat.mod_one _) hb (BitVec.ofInt_natCast ..)
  case lh => exact exec_load_passes (i := .lh rd rs1 imm) (by simp [loadInstrs]) rfl ha hb rfl
  case lhu => exact exec_load_passes (i := .lhu rd rs1 imm) (by simp [loadInstrs]) rfl ha hb (BitVec.ofInt_natCast ..)
  case lw => exact exec_load_passes (i := .lw rd rs1 imm) (by simp [loadInstrs]) rfl ha hb (BitVec.ofInt_natCast ..)

theorem rdOf_load {rd rs1 : RegIdx} {imm : Word} {i : Instr} (hi : i ∈ loadInstrs rd rs1 imm) : rdOf i = some rd := by
  fin_cases hi <;> rfl

/-- No instruction waits for a load into x0 (R159). -/
theorem loadUse_of_dest_x0 {i : Instr} (h : rdOf i = some 0#5) (pc a b predNext : Word) (d : Instr) :
    loadUse (.decoded pc i a b predNext) d = false := by
  simp [loadUse, h]

/-- Settles O7: the checks' errors are those of every access, and a write to x0 changes nothing. -/
theorem loadIntoX0StillChecks : Obligations.LoadIntoX0StillChecks := by
  intro rs1 imm i hi n hn
  refine ⟨fun s => ⟨fun ha => ?misaligned, fun ha hb => ?outOfBounds, fun ha hb => ?completes⟩, ?neverStalls⟩
  case misaligned => exact exec_access_error hn (checkAccess_misaligned ha)
  case outOfBounds => exact exec_access_error hn (checkAccess_outOfBounds ha hb)
  case completes =>
    rw [accessAddress_load hi] at ha hb
    rw [exec_load_passes hi hn ha hb rfl, writeReg_x0]
  case neverStalls => exact loadUse_of_dest_x0 (rdOf_load hi)

/-! ### Stores (R110) -/

/-- The commit of a store that passes its checks writes the low bytes of its data, and nothing else (R108, R110). -/
theorem commit_store_passes {rs1 rs2 : RegIdx} {imm : Word} {i : Instr} {n : Nat} (hi : i ∈ storeInstrs rs1 rs2 imm)
    (hn : accessWidth i = some n) {s : State} {addr : Word} (ha : addr.toNat % n = 0)
    (hb : addr.toNat + n ≤ s.cfg.memSize) (pc result data : Word) :
    (splitOf i).commit pc result addr data s = .ok { s with mem := Memory.writeBytes s.mem addr.toNat n data } := by
  fin_cases hi <;> cases hn <;> exact storeAccess_ok.2 ⟨⟨ha, hb⟩, rfl⟩

theorem accessAddress_store {rs1 rs2 : RegIdx} {imm : Word} {i : Instr} (hi : i ∈ storeInstrs rs1 rs2 imm) (s : State) :
    accessAddress i s = s.readReg rs1 + imm := by
  fin_cases hi <;> rfl

theorem rs2Of_store {rs1 rs2 : RegIdx} {imm : Word} {i : Instr} (hi : i ∈ storeInstrs rs1 rs2 imm) :
    rs2Of i = some rs2 := by
  fin_cases hi <;> rfl

/-- An aligned store in bounds writes the low bytes of rs2 at its effective address. -/
theorem exec_store_passes {rs1 rs2 : RegIdx} {imm : Word} {i : Instr} {n : Nat} (hi : i ∈ storeInstrs rs1 rs2 imm)
    (hn : accessWidth i = some n) {s : State} (ha : (s.readReg rs1 + imm).toNat % n = 0)
    (hb : (s.readReg rs1 + imm).toNat + n ≤ s.cfg.memSize) :
    exec i s = .next (({ s with
      mem := Memory.writeBytes s.mem (s.readReg rs1 + imm).toNat n (s.readReg rs2) } : State).retireTo
        (s.fpc + 4#32)) := by
  apply exec_access_ok hn
  rw [accessAddress_store hi, rs2Of_store hi]
  exact commit_store_passes hi hn ha hb ..

/-- Byte `k` of a write of `n` bytes is byte `k` of the value. -/
theorem read_writeBytes_inside {m : Memory} (h : Memory.wf m) (a : Nat) {n k : Nat} (v : Word) (hk : k < n) :
    (Memory.read (Memory.writeBytes m a n v) (a + k)).toNat = v.toNat / 2 ^ (8 * k) % 256 := by
  simpa [Memory.readBytes] using readBytes_writeBytes h a n v (k := k) (n := 1) hk

theorem read_writeBytes_outside {m : Memory} (h : Memory.wf m) {a n x : Nat} (v : Word) (hx : x < a ∨ a + n ≤ x) :
    Memory.read (Memory.writeBytes m a n v) x = Memory.read m x := by
  rw [Memory.read_writeBytes h, if_neg (by omega)]

/-- Settles O8: the memory the store leaves, and what reads of it give inside and outside the stored bytes. -/
theorem storesCompleteWithLowBytes : Obligations.StoresCompleteWithLowBytes := by
  intro s rs1 rs2 imm hm i hi n hn a ha hb
  exact ⟨Memory.writeBytes s.mem a n (s.readReg rs2), exec_store_passes hi hn ha hb,
    fun k hk => read_writeBytes_inside hm a _ hk, fun x hx => read_writeBytes_outside hm _ hx⟩

end Sys2Proof.Machine
end

section
/-! Control transfer (43_control_transfer.md): what Execute makes of a branch or jump, the targets it refuses, the prediction
that Fetch hands down, and the flush a misprediction causes. -/

namespace Sys2Proof.Machine

/-! ### Execute of a control transfer (R122 to R125) -/

/-- Execute of a conditional branch is the shared shape, taken exactly when the branch's condition holds (R126 to R132). -/
theorem execute_branch {rs1 rs2 : RegIdx} {imm : Word} {i : Instr} (hi : i ∈ branchInstrs rs1 rs2 imm) (pc a b : Word) :
    ∃ taken, (splitOf i).execute pc a b = executeBranch taken imm pc ∧ (taken = true ↔ branchCondition i a b) := by
  fin_cases hi <;> exact ⟨_, rfl, decide_eq_true_iff⟩

theorem execute_branch_taken {rs1 rs2 : RegIdx} {imm : Word} {i : Instr} (hi : i ∈ branchInstrs rs1 rs2 imm)
    {pc a b : Word} (hc : branchCondition i a b) : (splitOf i).execute pc a b = executeBranch true imm pc := by
  obtain ⟨taken, hx, ht⟩ := execute_branch hi pc a b
  rw [hx, ht.2 hc]

theorem execute_branch_not_taken {rs1 rs2 : RegIdx} {imm : Word} {i : Instr} (hi : i ∈ branchInstrs rs1 rs2 imm)
    {pc a b : Word} (hc : ¬ branchCondition i a b) : (splitOf i).execute pc a b = executeBranch false imm pc := by
  obtain ⟨taken, hx, ht⟩ := execute_branch hi pc a b
  rw [hx, Bool.eq_false_iff.2 (mt ht.1 hc)]

/-- A taken branch to a misaligned target raises. -/
theorem executeBranch_misaligned {imm pc : Word} (h : (pc + imm).toNat % 4 ≠ 0) :
    executeBranch true imm pc = .error (.misalignedAccess pc (pc + imm) 4) := if_pos ⟨rfl, h⟩

/-- A branch that is not taken passes, whatever its offset. -/
theorem executeBranch_not_taken (imm pc : Word) :
    executeBranch false imm pc = .ok { transfer := .branch false (pc + imm) } := rfl

/-- A branch that Execute passes tells the branch unit its condition and its target. -/
theorem executeBranch_transfer {taken : Bool} {imm pc : Word} {c : Computed} (h : executeBranch taken imm pc = .ok c) :
    c.transfer = .branch taken (pc + imm) := by
  simp only [executeBranch] at h
  split at h
  · cases h
  · cases h
    rfl

/-- A jump to a misaligned target raises. -/
theorem executeJump_misaligned {target pc : Word} (h : target.toNat % 4 ≠ 0) :
    executeJump target pc = .error (.misalignedAccess pc target 4) := if_pos h

/-- A jump that Execute passes tells the branch unit its target. -/
theorem executeJump_transfer {target pc : Word} {c : Computed} (h : executeJump target pc = .ok c) :
    c.transfer = .jump target := by
  simp only [executeJump] at h
  split at h
  · cases h
  · cases h
    rfl

/-- Loads, stores, ALU and upper-immediate instructions transfer no control. -/
theorem execute_no_transfer {rd rs1 rs2 : RegIdx} {imm : Word} {shamt : BitVec 5} {i : Instr}
    (hi : i ∈ loadInstrs rd rs1 imm ++ storeInstrs rs1 rs2 imm ++ aluInstrs rd rs1 rs2 imm shamt ++ upperInstrs rd imm)
    {pc a b : Word} {c : Computed} (h : (splitOf i).execute pc a b = .ok c) : c.transfer = .none := by
  fin_cases hi <;> cases h <;> rfl

/-! ### An error of Execute, in the stage and in the instruction by itself (R125, R142) -/

theorem executeStage_raises {i : Instr} {pc a b : Word} {e : FatalError} (h : (splitOf i).execute pc a b = .error e)
    (predNext : Word) : executeStage (.decoded pc i a b predNext) = .error e := by
  simp only [executeStage, h]

theorem executeStage_passes {i : Instr} {pc a b : Word} {c : Computed} (h : (splitOf i).execute pc a b = .ok c)
    (predNext : Word) : ∃ x, executeStage (.decoded pc i a b predNext) = .ok x := by
  simp only [executeStage, h]
  exact ⟨_, rfl⟩

theorem exec_raises {i : Instr} {s : State} {e : FatalError}
    (h : (splitOf i).execute s.fpc (s.readSource (rs1Of i)) (s.readSource (rs2Of i)) = .error e) :
    exec i s = .next (raise e s) := by
  simp only [exec_eq_runAlone, runAlone, h]

/-- A conditional branch reads rs1 and rs2. -/
theorem readSource_branch {rs1 rs2 : RegIdx} {imm : Word} {i : Instr} (hi : i ∈ branchInstrs rs1 rs2 imm) (s : State) :
    s.readSource (rs1Of i) = s.readReg rs1 ∧ s.readSource (rs2Of i) = s.readReg rs2 := by
  fin_cases hi <;> exact ⟨rfl, rfl⟩

/-! ### Which targets are misaligned (R125) -/

theorem getLsbD_one_iff (a : Word) : a.getLsbD 1 = true ↔ a.toNat / 2 % 2 = 1 := by
  rw [BitVec.getLsbD, Nat.testBit_eq_decide_div_mod_eq, decide_eq_true_iff]

/-- From an aligned pc, an even offset leads to a misaligned target exactly when its bit 1 is set. -/
theorem relativeTarget_misaligned_iff {pc imm : Word} (hpc : pc.toNat % 4 = 0) (himm : imm.toNat % 2 = 0) :
    (pc + imm).toNat % 4 ≠ 0 ↔ imm.getLsbD 1 = true := by
  rw [getLsbD_one_iff, BitVec.toNat_add]
  omega

/-- The mask of JALR clears bit 0 of the sum and nothing more (R134). -/
theorem jalrTarget_toNat (base imm : Word) :
    (jalrTarget base imm).toNat = (base + imm).toNat - (base + imm).toNat % 2 := by
  have hmask : jalrTarget base imm = (base + imm) >>> 1 <<< 1 := by
    rw [BitVec.shiftLeft_ushiftRight]
    rfl
  rw [hmask, BitVec.toNat_shiftLeft, BitVec.toNat_ushiftRight, Nat.shiftLeft_eq, Nat.shiftRight_eq_div_pow]
  omega

theorem jalrTarget_misaligned_iff (base imm : Word) :
    (jalrTarget base imm).toNat % 4 ≠ 0 ↔ (base + imm).getLsbD 1 = true := by
  rw [getLsbD_one_iff, jalrTarget_toNat]
  omega

/-- A sign-extended immediate that the decoder ends in a zero bit is even. -/
theorem signExtend_append_zero_even {n : Nat} (v : BitVec n) : ((v ++ 0#1).signExtend 32).toNat % 2 = 0 := by
  have hbit : ((v ++ 0#1).signExtend 32).getLsbD 0 = false := by
    rw [BitVec.getLsbD_signExtend, BitVec.getLsbD_append]
    simp
  simpa [BitVec.getLsbD] using hbit

theorem decode_branch_even {rs1 rs2 : RegIdx} {imm w : Word} {i : Instr} (hi : i ∈ branchInstrs rs1 rs2 imm)
    (hd : decode w = .ok i) : imm.toNat % 2 = 0 := by
  have hw := decode_eq_ok_iff.1 hd
  fin_cases hi <;> cases hw <;> exact signExtend_append_zero_even _

theorem decode_jal_even {rd : RegIdx} {imm w : Word} (hd : decode w = .ok (.jal rd imm)) : imm.toNat % 2 = 0 := by
  cases decode_eq_ok_iff.1 hd with
  | jal => exact signExtend_append_zero_even _

/-- Settles O21: the error of Execute is that of the stage and of the instruction by itself, and misalignment is bit 1. -/
theorem misalignedTargetsRaise : Obligations.MisalignedTargetsRaise := by
  refine ⟨fun rs1 rs2 imm i hi pc a b predNext => ⟨fun hc ht => ?taken, fun hc => ?notTaken, fun s hc ht => ?alone⟩,
    fun rd rs1 pc a b predNext imm => ⟨fun ht => ?stageJal, fun ht => ?stageJalr⟩,
    fun s rd rs1 imm => ⟨fun ht => ?execJal, fun ht => ?execJalr⟩,
    fun pc imm => relativeTarget_misaligned_iff, jalrTarget_misaligned_iff,
    fun w rd rs1 rs2 imm => ⟨fun i => decode_branch_even, decode_jal_even⟩⟩
  case taken => exact executeStage_raises ((execute_branch_taken hi hc).trans (executeBranch_misaligned ht)) predNext
  case notTaken =>
    exact executeStage_passes ((execute_branch_not_taken hi hc).trans (executeBranch_not_taken imm pc)) predNext
  case alone =>
    obtain ⟨h1, h2⟩ := readSource_branch hi s
    rw [← h1, ← h2] at hc
    exact exec_raises ((execute_branch_taken hi hc).trans (executeBranch_misaligned ht))
  case stageJal => exact executeStage_raises (i := .jal rd imm) (executeJump_misaligned ht) predNext
  case stageJalr => exact executeStage_raises (i := .jalr rd rs1 imm) (executeJump_misaligned ht) predNext
  case execJal => exact exec_raises (i := .jal rd imm) (executeJump_misaligned ht)
  case execJalr => exact exec_raises (i := .jalr rd rs1 imm) (executeJump_misaligned ht)

/-! ### Validation (R122) -/

/-- An instruction that passes the Execute stage asks for the redirect that the branch unit finds. -/
theorem executeStage_redirect {pc a b predNext : Word} {i : Instr} {x : ExecuteOut}
    (h : executeStage (.decoded pc i a b predNext) = .ok x) :
    ∃ c, (splitOf i).execute pc a b = .ok c ∧
      x.redirect = if mispredicts predNext c.transfer then some (c.transfer.actualNext pc) else none := by
  cases executeStage_cases h with
  | bubble hde => cases hde
  | executed _ _ _ _ _ c hde hx =>
    cases hde
    exact ⟨c, hx, rfl⟩

/-- A jump mispredicts when its target is not the predicted address. -/
theorem executeStage_jump_redirect {pc a b predNext target : Word} {i : Instr} {x : ExecuteOut}
    (hi : (splitOf i).execute pc a b = executeJump target pc)
    (h : executeStage (.decoded pc i a b predNext) = .ok x) :
    x.redirect = if target = predNext then none else some target := by
  obtain ⟨c, hx, hr⟩ := executeStage_redirect h
  rw [hr, executeJump_transfer (hi.symm.trans hx)]
  by_cases ht : target = predNext <;> simp [mispredicts, Transfer.actualNext, ht]

/-- A redirect of Execute makes the rest of the tick Fetch's access and the flush: such a tick does not stall (R159, R162). -/
theorem advance_redirect {s : State} {x : ExecuteOut} {target : Word} (hx : executeStage s.de = .ok x)
    (hr : x.redirect = some target) : advance s x = redirectTo (fetchStage s).state x.ew target := by
  have h := advance_cases hx
  generalize advance s x = t at h
  cases h with
  | stall _ hnone | pass _ _ hnone => cases hr.symm.trans hnone
  | redirect _ htarget =>
    cases hr.symm.trans htarget
    rfl

/-- Settles O24: what each kind of instruction tells the branch unit, and the flush. -/
theorem branchUnitValidatesInExecute : Obligations.BranchUnitValidatesInExecute := by
  refine ⟨fun rs1 rs2 imm i hi pc a b predNext x h => ?branch,
    fun rd rs1 pc a b predNext imm x => ⟨executeStage_jump_redirect rfl, executeStage_jump_redirect rfl⟩,
    fun rd rs1 rs2 imm shamt i hi pc a b predNext x h => ?others, fun s x target hx hr => ?flush⟩
  case branch =>
    obtain ⟨c, hx, hr⟩ := executeStage_redirect h
    refine ⟨fun hc => ?_, fun hc => ?_⟩
    · rw [hr, executeBranch_transfer ((execute_branch_taken hi hc).symm.trans hx)]
      rfl
    · rw [hr, executeBranch_transfer ((execute_branch_not_taken hi hc).symm.trans hx)]
      rfl
  case others =>
    obtain ⟨c, hx, hr⟩ := executeStage_redirect h
    rw [hr, execute_no_transfer hi hx]
    rfl
  case flush =>
    rw [advance_redirect hx hr]
    exact ⟨rfl, rfl, rfl, rfl, rfl⟩

/-! ### Prediction (R121) -/

/-- A word that Fetch delivers stands at the fetch PC, is predicted to fall through, and Fetch goes on where it predicts. -/
theorem fetchStage_fetched {s : State} {pc word predNext : Word} (h : (fetchStage s).fd = .fetched pc word predNext) :
    pc = s.fpc ∧ predNext = pc + 4#32 ∧ (fetchStage s).state.fpc = pc + 4#32 := by
  have hf := fetchStage_cases s
  generalize fetchStage s = f at h hf
  cases hf with
  | wait | idle | token | miss => cases h
  | arrive | hit =>
    cases h
    exact ⟨rfl, rfl, rfl⟩

/-- An instruction that Decode puts into DE comes from the word in FD, with that word's address and prediction (R156). -/
theorem decodeStage_decoded {s : State} {forward : Option (RegIdx × Word)} {pc a b predNext : Word} {d : Instr}
    (h : decodeStage s forward = .pass (.decoded pc d a b predNext)) : ∃ word, s.fd = .fetched pc word predNext := by
  have hd := decodeStage_cases s forward
  rw [h] at hd
  cases hd with
  | decoded _ word _ _ hfd => exact ⟨word, hfd⟩

/-- Settles O23, over what Fetch and Decode can do in a tick. -/
theorem everyFetchPredictsFallThrough : Obligations.EveryFetchPredictsFallThrough :=
  ⟨fun _ _ _ _ => fetchStage_fetched, fun _ _ _ _ _ _ _ => decodeStage_decoded⟩

end Sys2Proof.Machine
end

section
/-! Errors and halts (60_exceptions.md): what a tick that raises leaves behind, which ticks halt, and that nothing follows a
halt. -/

namespace Sys2Proof.Machine

/-! ### The tick that raises (R142) -/

/-- A tick whose Execute raises ends with what its Write-back left. -/
theorem tick_of_execute_error {s t : State} {e : FatalError} (hr : s.status = .running)
    (hw : writeBack { s with cycles := s.cycles + 1 } = .ok t)
    (hs : retireCountReached { s with cycles := s.cycles + 1 } t = false) (hx : executeStage s.de = .error e) :
    tick s = raise e t := by
  rw [← (afterWriteBack hw).de] at hx
  have h := tick_cases hr
  generalize tick s = u at h
  cases h with
  | raiseWriteBack _ hw' => cases hw.symm.trans hw'
  | stop _ hw' hs' =>
    cases hw.symm.trans hw'
    cases hs.symm.trans hs'
  | raiseExecute _ _ hw' _ hx' =>
    cases hw.symm.trans hw'
    cases hx.symm.trans hx'
    rfl
  | advance _ _ hw' _ hx' =>
    cases hw.symm.trans hw'
    cases hx.symm.trans hx'

/-- The termination check halts nothing: a halt that stands after it stood before. -/
theorem status_of_checkHaltAt_halted {s : State} {e : FatalError} (h : (checkHaltAt s).status = .halted e) :
    s.status = .halted e := by
  rcases checkHaltAt_cases s with ⟨hsame, _⟩ | ⟨hstop, _⟩
  · rwa [hsame] at h
  · rw [hstop] at h
    cases h

/-- Only a raise halts: a tick of a running core that ends halted raised its error at Write-back or at Execute. -/
theorem tick_halted {s : State} {e : FatalError} (hr : s.status = .running) (h : (tick s).status = .halted e) :
    (writeBack { s with cycles := s.cycles + 1 } = .error e ∧ tick s = raise e { s with cycles := s.cycles + 1 }) ∨
      ∃ t, writeBack { s with cycles := s.cycles + 1 } = .ok t ∧ executeStage s.de = .error e ∧ tick s = raise e t := by
  have hc := tick_cases hr
  generalize tick s = u at h hc
  cases hc with
  | raiseWriteBack _ hw =>
    cases h
    exact .inl ⟨hw, rfl⟩
  | stop => cases h
  | raiseExecute t _ hw _ hx =>
    cases h
    exact .inr ⟨t, hw, (afterWriteBack hw).de ▸ hx, rfl⟩
  | advance t x hw _ hx =>
    obtain ⟨_, _, _, _, _, hstatus, _⟩ := advance_frame hx
    have hrunning : (advance t x).status = .running := hstatus.trans ((afterWriteBack hw).status.trans hr)
    cases hrunning.symm.trans (status_of_checkHaltAt_halted h)

/-- Settles O25: what a raise at Write-back and at Execute leaves, and the two as the only ways to halt. -/
theorem haltIsPrecise : Obligations.HaltIsPrecise := by
  refine fun s hr => ⟨fun _ => tick_of_writeBack_error hr, fun _ _ => tick_of_execute_error hr, fun e h => ?halts⟩
  rcases tick_halted hr h with ⟨hw, ht⟩ | ⟨t, hw, hx, ht⟩ <;> rw [ht]
  case halts.inl => exact ⟨.inl ⟨hw, rfl, rfl, rfl⟩, rfl, rfl, rfl, rfl, rfl, rfl, rfl, rfl, rfl, rfl⟩
  case halts.inr =>
    have hkept := afterWriteBack hw
    exact ⟨.inr ⟨t, hw, hx, rfl, rfl, hkept.retired⟩, hkept.cycles, hkept.fpc, hkept.fwait, hkept.l1i, hkept.fd, hkept.de,
      hkept.ew, hkept.l1iHits, hkept.l1iMisses, hkept.flushes⟩

/-! ### After a halt (R143) -/

/-- Settles O26: a halted core is one whose run has ended. -/
theorem haltedCoreNeverResumes : Obligations.HaltedCoreNeverResumes := by
  intro s e h
  have hended : s.status ≠ .running := by simp [h]
  exact ticks_ended hended

end Sys2Proof.Machine
end

section
/-! Reset and the stages of the pipeline (70_reset_and_hazards.md sections 1 to 6): what a launch sets, the cases of Fetch,
Decode and Execute, the operands that Decode reads, and the load-use stall. -/

namespace Sys2Proof.Machine

/-! ### Reset (R149, R164) -/

/-- A launch gives every register but x0 its value of INIT_REGS. -/
theorem readReg_launch (cfg : Params) (regs : Vector Word 32) (mem : Memory) {r : RegIdx} (h : r ≠ 0#5) :
    (State.launch cfg regs mem).readReg r = regs[r.toNat]'(r.isLt) := by
  have hne : 0 ≠ r.toNat := fun h0 => h (BitVec.eq_of_toNat_eq h0.symm)
  rw [readReg_of_ne _ h]
  exact Vector.getElem_set_ne (by decide) _ hne

@[simp] theorem launch_status (cfg : Params) (regs : Vector Word 32) (mem : Memory) :
    (State.launch cfg regs mem).status = .running := rfl

/-- The termination check right after reset stops a launch exactly where the policy stops the reference. -/
theorem boot_eq (cfg : Params) (regs : Vector Word 32) (mem : Memory) :
    boot cfg regs mem =
      if stopsHere (State.launch cfg regs mem) then { State.launch cfg regs mem with status := .stopped }
      else State.launch cfg regs mem := by
  rcases boot_cases cfg regs mem with ⟨hboot, hgo⟩ | ⟨hboot, hstop⟩
  · rw [hboot, hgo]; rfl
  · rw [hboot, hstop]; rfl

theorem stopsHere_launch_haltAt {cfg : Params} {h : Word} (hstop : cfg.stop = .haltAt h) (regs : Vector Word 32)
    (mem : Memory) : stopsHere (State.launch cfg regs mem) = true ↔ cfg.entry = h := by
  rw [stopsHere, show (State.launch cfg regs mem).cfg.stop = .haltAt h from hstop]
  exact decide_eq_true_iff

theorem stopsHere_launch_retireCount {cfg : Params} {n : Nat} (hstop : cfg.stop = .retireCount n)
    (regs : Vector Word 32) (mem : Memory) : stopsHere (State.launch cfg regs mem) = true ↔ n = 0 := by
  rw [stopsHere, show (State.launch cfg regs mem).cfg.stop = .retireCount n from hstop]
  exact decide_eq_true_iff.trans eq_comm

/-- Settles O2: the fields of a launch, and the check after it as the policy's own test of the launch. -/
theorem launchSetsEveryPiece : Obligations.LaunchSetsEveryPiece := by
  intro cfg regs mem
  refine ⟨⟨rfl, readReg_x0 _, Vector.getElem_set_self _, fun r hr => readReg_launch cfg regs mem hr⟩, ⟨rfl, rfl, rfl⟩,
    ⟨List.length_replicate, lineAt_replicate cfg.numLines⟩, ⟨rfl, rfl, rfl⟩, ⟨rfl, rfl, rfl, rfl, rfl⟩, rfl,
    fun h hstop => ?_, fun n hstop => ?_⟩
  · rw [boot_eq]
    exact if_congr (stopsHere_launch_haltAt hstop regs mem) rfl rfl
  · rw [boot_eq]
    exact if_congr (stopsHere_launch_retireCount hstop regs mem) rfl rfl

/-! ### Fetch (R153) -/

/-- A case of Fetch is what Fetch does: the converse of `fetchStage_cases`. -/
theorem fetchStage_eq {s : State} {f : FetchOut} (h : FetchCase s f) : fetchStage s = f := by
  cases h with
  | wait h => exact fetchStage_wait h
  | arrive h => simp [fetchStage, fetchWaiting, deliver, predictedNext, h]
  | idle h hs => simp [fetchStage, h, hs]
  | token err h hs he =>
    rcases he with ⟨ha, rfl⟩ | ⟨ha, hb, rfl⟩
    · simp [fetchStage, deliverToken, h, hs, show ¬ s.fpc.toNat % 4 = 0 from ha]
    · simp [fetchStage, deliverToken, h, hs, hb, show s.fpc.toNat % 4 = 0 from ha]
  | hit word h hs ha hb hl =>
    rw [fetchStage_eq_fetchLookup h ⟨ha, hb, hs⟩, fetchLookup, hl]
    rfl
  | miss h hs ha hb hl => exact fetchStage_miss h ⟨ha, hb, hs⟩ hl

/-- A tick that stalls holds FD, empties DE and does nothing in Fetch (R159). -/
theorem advance_stall {s : State} {x : ExecuteOut} (hx : executeStage s.de = .ok x)
    (hd : decodeStage s x.forward = .stall) : advance s x = { s with ew := x.ew, de := .empty } := by
  have h := advance_cases hx
  generalize advance s x = u at h
  cases h with
  | stall => rfl
  | redirect _ hr => cases hr.symm.trans (stall_redirect hx hd)
  | pass _ hpass => cases hpass.symm.trans hd

/-- Settles O31: each condition is that of a case of Fetch, and a stall leaves Fetch's state. -/
theorem fetchCasesInOrder : Obligations.FetchCasesInOrder := by
  refine ⟨fun s => ⟨fun hw line hl => ?arrive, fun hw => fetchStage_eq (.wait hw), fun hw =>
    ⟨fun hs => fetchStage_eq (.idle hw hs), fun hs => ⟨fun ha => fetchStage_eq (.token _ hw hs (.inl ⟨ha, rfl⟩)),
      fun ha hb => fetchStage_eq (.token _ hw hs (.inr ⟨ha, hb, rfl⟩)),
      fun ha hb => ⟨fun w hl => fetchStage_eq (.hit w hw hs ha hb hl),
        fun hl => fetchStage_eq (.miss hw hs ha hb hl)⟩⟩⟩⟩, fun s x hx hd => ?stall⟩
  case arrive =>
    have hword : deliveredWord s.cfg s.l1i s.fpc = lineWord s.cfg line s.fpc := by rw [deliveredWord, hl]
    rw [fetchStage_eq (.arrive hw), hword]
    rfl
  case stall =>
    rw [advance_stall hx hd]
    exact ⟨rfl, rfl, rfl, rfl, rfl⟩

/-! ### Decode (R156) -/

/-- A case of Decode is what Decode does: the converse of `decodeStage_cases`. -/
theorem decodeStage_eq {s : State} {forward : Option (RegIdx × Word)} {out : DecodeOut}
    (h : DecodeCase s forward out) : decodeStage s forward = out := by
  cases h with
  | bubble h => simp [decodeStage, h]
  | token _ _ h => simp [decodeStage, h]
  | unknown _ _ _ h hd => simp [decodeStage, h, hd]
  | stall _ _ _ _ h hd hs => simp [decodeStage, h, hd, hs]
  | decoded _ _ _ _ h hd hs => simp [decodeStage, h, hd, hs]

/-- Settles O32: each condition is that of a case of Decode. -/
theorem decodeStageCases : Obligations.DecodeStageCases := by
  refine fun s forward => ⟨fun h => decodeStage_eq (.bubble h), fun pc err h => decodeStage_eq (.token pc err h),
    fun pc word predNext h => ⟨fun e hd => ?_, fun d hd => ⟨fun hs => decodeStage_eq (.stall pc word predNext d h hd hs),
      fun hs => decodeStage_eq (.decoded pc word predNext d h hd hs)⟩⟩, rfl⟩
  exact decodeStage_eq (.unknown pc word predNext h (decode_error hd ▸ hd))

/-! ### Operands (R157) -/

theorem readOperand_forwarded (s : State) {r : RegIdx} (h : r ≠ 0#5) (v : Word) :
    readOperand s (some (r, v)) (some r) = v := by
  simp [readOperand, h]

/-- A source that the forwarding path does not carry is read from the register file. -/
theorem readOperand_not_forwarded (s : State) {forward : Option (RegIdx × Word)} {r : RegIdx}
    (h : ∀ v, forward ≠ some (r, v)) : readOperand s forward (some r) = s.readReg r := by
  by_cases hr : r = 0#5
  · subst hr; rfl
  · cases forward with
    | none => simp [readOperand, hr]
    | some qv =>
      have hq : qv.1 ≠ r := fun hq => h qv.2 (hq ▸ rfl)
      simp [readOperand, hr, hq]

/-- What the forwarding path carries: rd and the result, of an instruction that writes a register other than x0 and is no
load (R158). -/
theorem forwarded_eq_some {ins : Instr} {result v : Word} {q : RegIdx} :
    forwarded ins result = some (q, v) ↔ isLoad ins = false ∧ rdOf ins = some q ∧ q ≠ 0#5 ∧ v = result := by
  constructor
  · intro h
    unfold forwarded at h
    split at h
    · cases h
    · rename_i rd hrd
      split at h
      · cases h
      · rename_i hcarried
        cases h
        obtain ⟨hload, h0⟩ := not_or.1 hcarried
        exact ⟨Bool.eq_false_iff.2 hload, hrd, h0, rfl⟩
  · rintro ⟨hload, hrd, h0, rfl⟩
    simp [forwarded, hrd, hload, h0]

/-- What the Execute stage hands on for an instruction whose Execute part computes `c` (R161). -/
theorem executeStage_of_execute {pc a b : Word} {i : Instr} {c : Computed} (h : (splitOf i).execute pc a b = .ok c)
    (predNext : Word) :
    executeStage (.decoded pc i a b predNext) = .ok
      { ew := .executed pc i c.result c.addr c.data
        forward := forwarded i c.result
        redirect := if mispredicts predNext c.transfer then some (c.transfer.actualNext pc) else none } := by
  rw [executeStage, h]

/-- An instruction that passes the Execute stage goes into EW as its Execute part computed it. -/
theorem executeStage_decoded {pc a b predNext : Word} {i : Instr} {x : ExecuteOut}
    (h : executeStage (.decoded pc i a b predNext) = .ok x) :
    ∃ c, (splitOf i).execute pc a b = .ok c ∧ x.ew = .executed pc i c.result c.addr c.data ∧
      x.forward = forwarded i c.result := by
  cases executeStage_cases h with
  | bubble hde => cases hde
  | executed _ _ _ _ _ c hde hx =>
    cases hde
    exact ⟨c, hx, rfl, rfl⟩

/-- An operand of an instruction that Decode passes is its register once the instruction in Execute has committed: a result
that the path does not carry yet is that of a load, and the interlock has held back the load's readers. -/
theorem operand_after_execute {t u : State} {x : ExecuteOut} {d : Instr} (hx : executeStage t.de = .ok x)
    (hfree : loadUse t.de d = false) (hw : writeBack { t with ew := x.ew } = .ok u) {r : Option RegIdx}
    (hr : ∀ q, r = some q → q ∈ srcsOf d) : readOperand t x.forward r = u.readSource r := by
  have hinterlock : ∀ pc ins result addr data rd, x.ew = .executed pc ins result addr data → isLoad ins = true →
      rdOf ins = some rd → rd ≠ 0#5 → rd ∉ srcsOf d := by
    intro pc ins result addr data rd hew hload hrd h0 hmem
    cases executeStage_cases hx with
    | bubble => cases hew
    | executed _ _ _ _ _ _ hde =>
      cases hew
      exact Bool.false_ne_true (hfree.symm.trans (loadUse_eq_true.2 ⟨_, _, _, _, _, rd, hde, hload, hrd, h0, hmem⟩))
  rw [executeStage_forward hx, ← operand_after_writeBack hw hinterlock hr]
  exact readOperand_congr rfl _ _

/-- Settles O33: the read in its three cases, what the path carries, and the interlock. -/
theorem operandsAreTheMostRecentOlderValues : Obligations.OperandsAreTheMostRecentOlderValues := by
  refine ⟨fun s forward r => ⟨?_, fun hr => ⟨?_, fun h => ?_⟩⟩, fun pc a b predNext ins x h => ?_,
    fun t u x pc a b predNext d hx hd hw => ?_⟩
  · rintro rfl
    rfl
  · rintro v rfl
    exact readOperand_forwarded s hr v
  · rw [readOperand_not_forwarded s h, readReg_of_ne s hr]
  · obtain ⟨c, _, hew, hforward⟩ := executeStage_decoded h
    exact ⟨c.result, c.addr, c.data, hew, fun q v => by rw [hforward]; exact forwarded_eq_some⟩
  · have hcase := decodeStage_cases t x.forward
    rw [hd] at hcase
    cases hcase with
    | decoded _ _ _ _ _ _ hfree =>
      exact ⟨operand_after_execute hx hfree hw mem_srcs1, operand_after_execute hx hfree hw mem_srcs2⟩

/-! ### What Execute puts into EW (R161) -/

/-- Execute of a jump is the shared shape (R133, R134). -/
theorem execute_jump {rd rs1 : RegIdx} {imm : Word} {i : Instr} (hi : i ∈ jumpInstrs rd rs1 imm) (pc a b : Word) :
    ∃ target, (splitOf i).execute pc a b = executeJump target pc := by
  fin_cases hi <;> exact ⟨_, rfl⟩

/-- A jump that Execute passes computes the link and uses no address and no data. -/
theorem execute_jump_ok {rd rs1 : RegIdx} {imm : Word} {i : Instr} (hi : i ∈ jumpInstrs rd rs1 imm) {pc a b : Word}
    {c : Computed} (h : (splitOf i).execute pc a b = .ok c) : c.result = pc + 4#32 ∧ c.addr = 0#32 ∧ c.data = 0#32 := by
  obtain ⟨target, hx⟩ := execute_jump hi pc a b
  rw [hx, executeJump] at h
  split at h
  · cases h
  · cases h
    exact ⟨rfl, rfl, rfl⟩

/-- ALU, upper-immediate and jump instructions use no address and no data. -/
theorem execute_result_ok {rd rs1 rs2 : RegIdx} {imm : Word} {shamt : BitVec 5} {i : Instr}
    (hi : i ∈ aluInstrs rd rs1 rs2 imm shamt ++ upperInstrs rd imm ++ jumpInstrs rd rs1 imm) {pc a b : Word}
    {c : Computed} (h : (splitOf i).execute pc a b = .ok c) : c.addr = 0#32 ∧ c.data = 0#32 := by
  rcases List.mem_append.1 hi with hi | hi
  · obtain ⟨v, hx⟩ := (writesResult_of_mem hi).execute pc a b
    cases hx.symm.trans h
    exact ⟨rfl, rfl⟩
  · exact (execute_jump_ok hi h).2

theorem execute_load {rd rs1 : RegIdx} {imm : Word} {i : Instr} (hi : i ∈ loadInstrs rd rs1 imm) (pc a b : Word) :
    (splitOf i).execute pc a b = .ok { addr := a + imm } := by
  fin_cases hi <;> rfl

theorem execute_store {rs1 rs2 : RegIdx} {imm : Word} {i : Instr} (hi : i ∈ storeInstrs rs1 rs2 imm) (pc a b : Word) :
    (splitOf i).execute pc a b = .ok { addr := a + imm, data := b } := by
  fin_cases hi <;> rfl

/-- A branch that Execute passes uses neither result nor address nor data. -/
theorem execute_branch_ok {rs1 rs2 : RegIdx} {imm : Word} {i : Instr} (hi : i ∈ branchInstrs rs1 rs2 imm)
    {pc a b : Word} {c : Computed} (h : (splitOf i).execute pc a b = .ok c) :
    c.result = 0#32 ∧ c.addr = 0#32 ∧ c.data = 0#32 := by
  obtain ⟨taken, hx, _⟩ := execute_branch hi pc a b
  rw [hx] at h
  simp only [executeBranch] at h
  split at h
  · cases h
  · cases h
    exact ⟨rfl, rfl, rfl⟩

/-- Only control transfers can raise in Execute. -/
theorem execute_passes {rd rs1 rs2 : RegIdx} {imm : Word} {shamt : BitVec 5} {i : Instr}
    (hi : i ∈ aluInstrs rd rs1 rs2 imm shamt ++ upperInstrs rd imm ++ loadInstrs rd rs1 imm ++ storeInstrs rs1 rs2 imm)
    (pc a b : Word) : ∃ c, (splitOf i).execute pc a b = .ok c := by
  rcases List.mem_append.1 hi with hi | hi
  · rcases List.mem_append.1 hi with hi | hi
    · obtain ⟨v, hx⟩ := (writesResult_of_mem hi).execute pc a b
      exact ⟨_, hx⟩
    · exact ⟨_, execute_load hi pc a b⟩
  · exact ⟨_, execute_store hi pc a b⟩

/-- Settles O36: the Execute part of each kind of instruction, in the Execute stage. -/
theorem executeStageCases : Obligations.ExecuteStageCases := by
  refine ⟨rfl, fun _ _ => rfl, fun rd rs1 rs2 imm shamt pc a b predNext => ⟨fun i hi => ?passes, fun i _ e h => ?raises,
    fun x => ⟨fun i hi h => ?result, fun i hi h => ?load, fun i hi h => ?store, fun i hi h => ?branch⟩⟩,
    fun pc a b predNext i c h => ⟨_, executeStage_of_execute h predNext, rfl, rfl⟩⟩
  case passes =>
    obtain ⟨c, hx⟩ := execute_passes hi pc a b
    exact executeStage_passes hx predNext
  case raises =>
    rcases executeStage_error h with ⟨_, hde⟩ | ⟨_, _, _, _, _, hde, hx⟩
    · cases hde
    · cases hde
      obtain ⟨target, he, hmisaligned⟩ := execute_error hx
      exact ⟨target, hmisaligned, he⟩
  case result =>
    obtain ⟨c, hx, hew, _⟩ := executeStage_decoded h
    obtain ⟨haddr, hdata⟩ := execute_result_ok hi hx
    exact ⟨c.result, by rw [hew, haddr, hdata]⟩
  case load =>
    cases (executeStage_of_execute (execute_load hi pc a b) predNext).symm.trans h
    rfl
  case store =>
    cases (executeStage_of_execute (execute_store hi pc a b) predNext).symm.trans h
    rfl
  case branch =>
    obtain ⟨c, hx, hew, _⟩ := executeStage_decoded h
    obtain ⟨hresult, haddr, hdata⟩ := execute_branch_ok hi hx
    rw [hew, hresult, haddr, hdata]

/-! ### Forwarding (R158) -/

/-- ALU, upper-immediate and jump instructions write rd and are no loads. -/
theorem rdOf_result {rd rs1 rs2 : RegIdx} {imm : Word} {shamt : BitVec 5} {i : Instr}
    (hi : i ∈ aluInstrs rd rs1 rs2 imm shamt ++ upperInstrs rd imm ++ jumpInstrs rd rs1 imm) :
    rdOf i = some rd ∧ isLoad i = false := by
  fin_cases hi <;> exact ⟨rfl, rfl⟩

/-- The path carries the result of an instruction that writes rd and is no load, unless rd = x0. -/
theorem forwarded_result {i : Instr} {rd : RegIdx} (hrd : rdOf i = some rd) (hload : isLoad i = false) (v : Word) :
    forwarded i v = if rd = 0#5 then none else some (rd, v) := by
  simp [forwarded, hrd, hload]

/-- The path carries nothing for loads, stores and branches. -/
theorem forwarded_none {rd rs1 rs2 : RegIdx} {imm : Word} {i : Instr}
    (hi : i ∈ loadInstrs rd rs1 imm ++ storeInstrs rs1 rs2 imm ++ branchInstrs rs1 rs2 imm) (v : Word) :
    forwarded i v = none := by
  fin_cases hi <;> simp [forwarded, rdOf, isLoad]

/-- Settles O34: what Execute puts into EW, with the path's content for each kind of instruction. -/
theorem forwardingPath : Obligations.ForwardingPath := by
  refine ⟨fun rd rs1 rs2 imm shamt pc a b predNext x => ⟨fun i hi h => ?result, fun i hi h => ?others⟩,
    fun x h => ?bubble, fun pc err x h => ?token⟩
  case result =>
    obtain ⟨c, hx, hew, hforward⟩ := executeStage_decoded h
    obtain ⟨haddr, hdata⟩ := execute_result_ok hi hx
    obtain ⟨hrd, hload⟩ := rdOf_result hi
    exact ⟨c.result, by rw [hew, haddr, hdata], hforward.trans (forwarded_result hrd hload _),
      fun hjump => (execute_jump_ok hjump hx).1⟩
  case others =>
    obtain ⟨c, _, _, hforward⟩ := executeStage_decoded h
    exact hforward.trans (forwarded_none hi _)
  case bubble =>
    cases h
    rfl
  case token => cases h

/-! ### The load-use stall (R159) -/

/-- The loads are the five load instructions. -/
theorem isLoad_and_rdOf_iff {i : Instr} {rd : RegIdx} :
    isLoad i = true ∧ rdOf i = some rd ↔ ∃ rs1 imm, i ∈ loadInstrs rd rs1 imm := by
  constructor
  · rintro ⟨hload, hrd⟩
    cases i
    case lb _ rs1 imm | lh _ rs1 imm | lw _ rs1 imm | lbu _ rs1 imm | lhu _ rs1 imm =>
      cases hrd
      exact ⟨rs1, imm, by simp [loadInstrs]⟩
    all_goals cases hload
  · rintro ⟨rs1, imm, hi⟩
    fin_cases hi <;> exact ⟨rfl, rfl⟩

/-- With DE empty Decode never stalls. -/
theorem decodeStage_not_stall {s : State} (h : s.de = .empty) (forward : Option (RegIdx × Word)) :
    decodeStage s forward ≠ .stall := by
  intro hstall
  have hcase := decodeStage_cases s forward
  rw [hstall] at hcase
  cases hcase with
  | stall _ _ _ _ _ _ huse =>
    rw [h] at huse
    cases huse

/-- Settles O35: the condition, the stalling tick with the load that DE holds, and DE empty after it. -/
theorem loadUseStallLastsOneCycle : Obligations.LoadUseStallLastsOneCycle := by
  refine ⟨fun de d => ?condition, fun s x pc word predNext d hfd hdec huse hx => ?stall,
    fun s forward h => decodeStage_not_stall h forward⟩
  case condition =>
    rw [loadUse_eq_true]
    constructor
    · rintro ⟨pc, i, a, b, predNext, rd, hde, hload, hrd, h0, hmem⟩
      obtain ⟨rs1, imm, hi⟩ := isLoad_and_rdOf_iff.1 ⟨hload, hrd⟩
      exact ⟨pc, a, b, predNext, rd, rs1, imm, i, hi, hde, h0, hmem⟩
    · rintro ⟨pc, a, b, predNext, rd, rs1, imm, i, hi, hde, h0, hmem⟩
      obtain ⟨hload, hrd⟩ := isLoad_and_rdOf_iff.2 ⟨rs1, imm, hi⟩
      exact ⟨pc, i, a, b, predNext, rd, hde, hload, hrd, h0, hmem⟩
  case stall =>
    have hd : decodeStage s x.forward = .stall := decodeStage_eq (.stall pc word predNext d hfd hdec huse)
    obtain ⟨pc', i, a, b, pn, rd, hde, hload, _⟩ := loadUse_eq_true.1 huse
    obtain ⟨c, _, hew, _⟩ := executeStage_decoded (hde ▸ hx)
    exact ⟨stall_redirect hx hd, advance_stall hx hd, pc', a, b, pn, _, _, _, i, hload, hde, hew⟩

end Sys2Proof.Machine
end

section
/-! The tick (70_reset_and_hazards.md sections 2, 5, 6 and 7): the latches it leaves, the cost of a misprediction, the order of
Write-back, the two termination policies, and the counters. -/

namespace Sys2Proof.Machine

/-! ### Ways a tick can go (R151) -/

theorem writeBack_empty {s : State} (h : s.ew = .empty) : writeBack s = .ok s := by
  simp [writeBack, h]

theorem retireCountReached_empty {s : State} (h : s.ew = .empty) (t : State) : retireCountReached s t = false := by
  unfold retireCountReached
  split
  · simp [h]
  · rfl

/-- With DE empty Execute hands on a bubble. -/
theorem executeStage_bubble {de : DeLatch} {x : ExecuteOut} (h : de = .empty) (hx : executeStage de = .ok x) :
    x = { ew := .empty, forward := none, redirect := none } := by
  subst h
  cases hx
  rfl

/-- A tick in which the N-th instruction retires ends with what its Write-back left (R164). -/
theorem tick_of_reached {s t : State} (hr : s.status = .running)
    (hw : writeBack { s with cycles := s.cycles + 1 } = .ok t)
    (hs : retireCountReached { s with cycles := s.cycles + 1 } t = true) : tick s = { t with status := .stopped } := by
  have h := tick_cases hr
  generalize tick s = u at h
  cases h with
  | raiseWriteBack _ hw' => cases hw.symm.trans hw'
  | stop _ hw' =>
    cases hw.symm.trans hw'
    rfl
  | raiseExecute _ _ hw' hs' | advance _ _ hw' hs' =>
    cases hw.symm.trans hw'
    cases hs.symm.trans hs'

/-- A tick after which the core runs on has gone through all its stages. -/
theorem tick_of_running {s : State} (hr : s.status = .running) (hn : (tick s).status = .running) :
    ∃ t x, writeBack { s with cycles := s.cycles + 1 } = .ok t ∧ executeStage t.de = .ok x ∧ tick s = advance t x := by
  have h := tick_cases hr
  generalize tick s = u at h hn
  cases h with
  | raiseWriteBack | stop | raiseExecute => cases hn
  | advance t x hw _ hx => exact ⟨t, x, hw, hx, checkHaltAt_running hn⟩

/-- A tick that neither stalls nor redirects moves every latch on. -/
theorem advance_pass {s : State} {x : ExecuteOut} {de : DeLatch} (hx : executeStage s.de = .ok x)
    (hd : decodeStage s x.forward = .pass de) (hr : x.redirect = none) :
    advance s x = { (fetchStage s).state with ew := x.ew, de := de, fd := (fetchStage s).fd } := by
  have h := advance_cases hx
  generalize advance s x = u at h
  cases h with
  | stall hstall => cases hstall.symm.trans hd
  | redirect _ htarget => cases hr.symm.trans htarget
  | pass _ hd' =>
    cases hd.symm.trans hd'
    rfl

section
variable (s : State)
@[simp] theorem checkHaltAt_cfg : (checkHaltAt s).cfg = s.cfg := by rw [checkHaltAt_frame]
@[simp] theorem checkHaltAt_fwait : (checkHaltAt s).fwait = s.fwait := by rw [checkHaltAt_frame]
@[simp] theorem checkHaltAt_de : (checkHaltAt s).de = s.de := by rw [checkHaltAt_frame]
@[simp] theorem checkHaltAt_ew : (checkHaltAt s).ew = s.ew := by rw [checkHaltAt_frame]
@[simp] theorem checkHaltAt_cycles : (checkHaltAt s).cycles = s.cycles := by rw [checkHaltAt_frame]
@[simp] theorem checkHaltAt_retired : (checkHaltAt s).retired = s.retired := by rw [checkHaltAt_frame]
@[simp] theorem checkHaltAt_l1iHits : (checkHaltAt s).l1iHits = s.l1iHits := by rw [checkHaltAt_frame]
@[simp] theorem checkHaltAt_l1iMisses : (checkHaltAt s).l1iMisses = s.l1iMisses := by rw [checkHaltAt_frame]
@[simp] theorem checkHaltAt_flushes : (checkHaltAt s).flushes = s.flushes := by rw [checkHaltAt_frame]
end

/-! ### Latches (R152) -/

theorem advance_ew {s : State} {x : ExecuteOut} (hx : executeStage s.de = .ok x) : (advance s x).ew = x.ew := by
  obtain ⟨_, _, _, _, _, _, hew⟩ := advance_frame hx
  exact hew

/-- With FD empty DE becomes empty. -/
theorem advance_de_of_fd_empty {s : State} {x : ExecuteOut} (hx : executeStage s.de = .ok x) (hfd : s.fd = .empty) :
    (advance s x).de = .empty := by
  have h := advance_cases hx
  generalize advance s x = u at h
  cases h with
  | stall | redirect => rfl
  | pass _ hd =>
    cases (decodeStage_eq (.bubble hfd)).symm.trans hd
    rfl

/-- Settles O39, over the ways the rest of a tick can go. -/
theorem latchUpdate : Obligations.LatchUpdate := by
  intro s t x hr hw hs hx
  have hkept := afterWriteBack hw
  rw [tick_eq_advance hr hw hs hx, checkHaltAt_ew, checkHaltAt_fd, checkHaltAt_de, ← hkept.fd]
  have hx' : executeStage t.de = .ok x := hkept.de ▸ hx
  refine ⟨advance_ew hx', fun hne => ?redirect, fun hnone hd => ?stall, fun de hnone hd => ?pass,
    advance_de_of_fd_empty hx', fun hde => ?bubble⟩
  case redirect =>
    obtain ⟨target, htarget⟩ := Option.ne_none_iff_exists'.1 hne
    rw [advance_redirect hx' htarget]
    exact ⟨rfl, rfl⟩
  case stall =>
    rw [advance_stall hx' hd]
    exact ⟨rfl, rfl⟩
  case pass =>
    rw [advance_pass hx' hd hnone]
    exact ⟨rfl, rfl⟩
  case bubble => rw [advance_ew hx', executeStage_bubble hde hx]

/-! ### Mispredictions (R162) -/

/-- A misprediction hands the mispredicting instruction on to EW. -/
theorem redirect_ew {de : DeLatch} {x : ExecuteOut} {target : Word} (hx : executeStage de = .ok x)
    (hr : x.redirect = some target) : x.ew ≠ .empty := by
  cases executeStage_cases hx with
  | bubble => cases hr
  | executed => simp

/-- A flush after Fetch's access: of Fetch's work only what it did to the L1I and its counters stays. -/
theorem redirectTo_fetchStage (s : State) (ew : EwLatch) (target : Word) :
    redirectTo (fetchStage s).state ew target = { s with
      fd := .empty
      de := .empty
      ew := ew
      fpc := target
      fwait := 0
      flushes := s.flushes + 1
      l1i := (fetchStage s).state.l1i
      l1iHits := (fetchStage s).state.l1iHits
      l1iMisses := (fetchStage s).state.l1iMisses } := by
  obtain ⟨_, _, _, _, _, hframe⟩ := fetchStage_frame s
  rw [hframe]
  rfl

/-- A tick with a misprediction ends with the flush: EW is not empty, so no policy stops the run. -/
theorem tick_redirect {s t : State} {x : ExecuteOut} {target : Word} (hr : s.status = .running)
    (hw : writeBack { s with cycles := s.cycles + 1 } = .ok t)
    (hs : retireCountReached { s with cycles := s.cycles + 1 } t = false) (hx : executeStage s.de = .ok x)
    (htarget : x.redirect = some target) : tick s = redirectTo (fetchStage t).state x.ew target := by
  rw [tick_eq_advance hr hw hs hx, advance_redirect ((afterWriteBack hw).de ▸ hx) htarget]
  exact checkHaltAt_of_busy fun ⟨_, _, hew, _⟩ => redirect_ew hx htarget hew

/-- The tick after a flush, when the fetch address hits: its word goes into FD, and DE and EW are bubbles. -/
theorem tick_after_flush {s : State} {w : Word} (hr : s.status = .running) (hn : (tick s).status = .running)
    (hfd : s.fd = .empty) (hde : s.de = .empty) (hwait : s.fwait = 0) (ha : FetchAddressOk s.cfg s.fpc)
    (hl : lookup s.cfg s.l1i s.fpc = some w) :
    (tick s).fd = .fetched s.fpc w (s.fpc + 4#32) ∧ (tick s).de = .empty ∧ (tick s).ew = .empty := by
  obtain ⟨t, x, hw, hx, ht⟩ := tick_of_running hr hn
  have hkept := afterWriteBack hw
  obtain rfl := executeStage_bubble (hkept.de.trans hde) hx
  rw [ht, advance_pass hx (decodeStage_eq (.bubble (hkept.fd.trans hfd))) rfl]
  rw [← hkept.cfg, ← hkept.fpc] at ha
  rw [← hkept.cfg, ← hkept.l1i, ← hkept.fpc] at hl
  refine ⟨?_, rfl, rfl⟩
  rw [← hkept.fpc]
  exact fetchStage_hit_fd (hkept.fwait.trans hwait) ha hl

/-- With DE empty Decode makes something of a word in FD. -/
theorem decodeStage_fetched {s : State} {pc word predNext : Word} (hfd : s.fd = .fetched pc word predNext)
    (hde : s.de = .empty) (forward : Option (RegIdx × Word)) :
    ∃ de, decodeStage s forward = .pass de ∧ de ≠ .empty := by
  have hstall := decodeStage_not_stall hde forward
  have h := decodeStage_cases s forward
  generalize decodeStage s forward = out at h hstall
  cases h with
  | bubble hfd' => cases hfd.symm.trans hfd'
  | token | unknown | decoded => exact ⟨_, rfl, by simp⟩
  | stall => exact absurd rfl hstall

/-- With DE and EW empty a tick moves the word in FD into DE and leaves EW empty. -/
theorem tick_with_empty_back {s : State} {pc word predNext : Word} (hr : s.status = .running)
    (hfd : s.fd = .fetched pc word predNext) (hde : s.de = .empty) (hew : s.ew = .empty) :
    (tick s).de ≠ .empty ∧ (tick s).ew = .empty := by
  have hx : executeStage s.de = .ok { ew := .empty, forward := none, redirect := none } := by rw [hde]; rfl
  have hw : writeBack { s with cycles := s.cycles + 1 } = .ok { s with cycles := s.cycles + 1 } := writeBack_empty hew
  obtain ⟨de, hd, hne⟩ := decodeStage_fetched (s := { s with cycles := s.cycles + 1 }) hfd hde none
  rw [tick_eq_advance hr hw (retireCountReached_empty hew _) hx, checkHaltAt_de, checkHaltAt_ew,
    advance_pass (s := { s with cycles := s.cycles + 1 }) hx hd rfl]
  exact ⟨hne, rfl⟩

/-- Settles O37: the flush, and the two ticks that follow it with nothing in EW. -/
theorem mispredictionFlushesAndRedirects : Obligations.MispredictionFlushesAndRedirects := by
  intro s t x target hr hw hs hx htarget
  have hkept := afterWriteBack hw
  have ht := tick_redirect hr hw hs hx htarget
  rw [redirectTo_fetchStage, hkept.flushes] at ht
  refine ⟨ht, redirect_ew hx htarget, fun w hstop ha hb hl hn => ?_⟩
  rw [← hkept.cfg] at hstop hb hl
  obtain ⟨hfd, hde, hew⟩ : (ticks 2 s).fd = .fetched target w (target + 4#32) ∧ (ticks 2 s).de = .empty ∧
      (ticks 2 s).ew = .empty := by
    change (tick (tick s)).status = .running at hn
    change (tick (tick s)).fd = _ ∧ (tick (tick s)).de = _ ∧ (tick (tick s)).ew = _
    rw [ht] at hn hl ⊢
    exact tick_after_flush (hkept.status.trans hr) hn rfl rfl rfl ⟨ha, hb, hstop⟩ hl
  exact ⟨hfd, hde, hew, tick_with_empty_back hn hfd hde hew⟩

/-! ### Write-back (R163, R108) -/

/-- Write-back of an instruction whose commit answers a state is that state with one more retirement. -/
theorem writeBack_of_commit {s t : State} {pc result addr data : Word} {i : Instr}
    (hew : s.ew = .executed pc i result addr data) (hc : (splitOf i).commit pc result addr data s = .ok t) :
    writeBack s = .ok { t with retired := t.retired + 1 } := by
  rw [writeBack_executed hew, hc]

theorem commit_result_of_mem {rd rs1 rs2 : RegIdx} {imm : Word} {shamt : BitVec 5} {i : Instr}
    (hi : i ∈ aluInstrs rd rs1 rs2 imm shamt ++ upperInstrs rd imm ++ jumpInstrs rd rs1 imm) :
    (splitOf i).commit = commitResult rd := by
  fin_cases hi <;> rfl

theorem commit_branch {rs1 rs2 : RegIdx} {imm : Word} {i : Instr} (hi : i ∈ branchInstrs rs1 rs2 imm) :
    (splitOf i).commit = commitNothing := by
  fin_cases hi <;> rfl

/-- Write-back of an instruction that writes `v` to rd. -/
theorem writeBack_of_writeReg {s : State} {pc result addr data : Word} {i : Instr} {rd : RegIdx} {v : Word}
    (hew : s.ew = .executed pc i result addr data)
    (hc : (splitOf i).commit pc result addr data s = .ok (s.writeReg rd v)) :
    writeBack s = .ok { s.writeReg rd v with retired := s.retired + 1 } := by
  rw [writeBack_of_commit hew hc, writeReg_retired]

/-- Instructions retire in program order: after the instruction in EW, the one at its actual next address (R163, R169). -/
theorem tick_program_order {s : State} (h : CoreInv s) (hr : s.status = .running) (hn : (tick s).status = .running) :
    (∀ pc i result addr data, s.ew = .executed pc i result addr data → s.pcToRetire = pc ∧
      ∃ c, (splitOf i).execute pc (s.readSource (rs1Of i)) (s.readSource (rs2Of i)) = .ok c ∧
        (tick s).pcToRetire = c.transfer.actualNext pc) ∧
    (s.ew = .empty → (tick s).pcToRetire = s.pcToRetire) := by
  obtain ⟨t, _, hw, _⟩ := tick_of_running hr hn
  have hnext := (tick_after_writeBack hr hw).2 hn
  refine ⟨fun pc i result addr data hew => ?_, fun hew => ?_⟩
  · obtain ⟨c, hx, _, _, _, hafter⟩ := (h.execution hr).executed pc i result addr data hew
    exact ⟨by rw [State.pcToRetire, hew]; rfl, c, hx, hnext.trans hafter⟩
  · rw [hnext, State.pcToRetire, hew]
    rfl

/-- Settles O38: each kind of commit in Write-back, what the rest of a tick leaves of it, and program order. -/
theorem writeBackCommitsInOrder : Obligations.WriteBackCommitsInOrder := by
  refine ⟨fun _ => writeBack_empty, fun s pc result addr data rd rs1 rs2 imm shamt =>
    ⟨fun i hi hew => ?result, fun i hi hew => ?branch, fun i _ n hn hew =>
      ⟨fun ha => ?misaligned, fun ha hb => ?outOfBounds, fun ha hb => ⟨fun hi => ?load, fun hi => ?store⟩⟩⟩,
    fun _ _ => writeBack_fpc, fun s t hr hw => ?completes, fun s e hr hw => ?raises,
    fun s h hr hn => tick_program_order h hr hn⟩
  case result =>
    refine writeBack_of_writeReg hew ?_
    rw [commit_result_of_mem hi, commitResult]
  case branch =>
    refine writeBack_of_commit hew ?_
    rw [commit_branch hi, commitNothing]
  case misaligned => exact writeBack_access_error hn hew (checkAccess_misaligned ha)
  case outOfBounds => exact writeBack_access_error hn hew (checkAccess_outOfBounds ha hb)
  case load => exact writeBack_of_writeReg hew (commit_load_passes hi hn ha hb pc result data)
  case store => exact writeBack_of_commit hew (commit_store_passes hi hn ha hb pc result data)
  case completes =>
    obtain ⟨⟨hregs, hmem, hretired⟩, _⟩ := tick_after_writeBack hr hw
    exact ⟨hregs, hmem, hretired⟩
  case raises =>
    rw [tick_of_writeBack_error hr hw]
    exact ⟨rfl, rfl, rfl, rfl⟩

/-! ### Termination (R164) -/

/-- The check of `HaltAt` stops a running core exactly at the halt address with nothing in flight. -/
theorem checkHaltAt_stopped_iff {s : State} {h : Word} (hr : s.status = .running) (hstop : s.cfg.stop = .haltAt h) :
    (checkHaltAt s).status = .stopped ↔
      s.fpc = h ∧ s.fd = .empty ∧ s.de = .empty ∧ s.ew = .empty ∧ s.fwait = 0 := by
  have hcond : s.cfg.stop = .haltAt s.fpc ∧ s.drained = true ↔
      s.fpc = h ∧ s.fd = .empty ∧ s.de = .empty ∧ s.ew = .empty ∧ s.fwait = 0 := by
    rw [hstop, StopPolicy.haltAt.injEq, State.drained, decide_eq_true_iff]
    exact and_congr_left' eq_comm
  rcases checkHaltAt_cases s with ⟨hsame, hno⟩ | ⟨hstopped, hyes⟩
  · rw [hsame, hr, ← hcond]
    exact ⟨fun hcontra => (by cases hcontra), fun hyes => absurd hyes hno⟩
  · rw [hstopped]
    exact ⟨fun _ => hcond.1 hyes, fun _ => rfl⟩

/-- The check of `HaltAt` changes nothing under the other policy. -/
theorem checkHaltAt_retireCount {s : State} {n : Nat} (hstop : s.cfg.stop = .retireCount n) : checkHaltAt s = s := by
  rcases checkHaltAt_cases s with ⟨hsame, _⟩ | ⟨_, hhalt, _⟩
  · exact hsame
  · cases hstop.symm.trans hhalt

/-- Under `HaltAt(H)` a tick stops the run exactly when it leaves the fetch PC at H and nothing in flight: a tick that raises
leaves in its latch the instruction or token that raised. -/
theorem tick_stopped_haltAt {s : State} {h : Word} (hr : s.status = .running) (hstop : s.cfg.stop = .haltAt h) :
    (tick s).status = .stopped ↔
      (tick s).fpc = h ∧ (tick s).fd = .empty ∧ (tick s).de = .empty ∧ (tick s).ew = .empty ∧ (tick s).fwait = 0 := by
  have hc := tick_cases hr
  generalize tick s = u at hc
  cases hc with
  | raiseWriteBack e hw =>
    obtain ⟨_, _, _, _, _, hew, _⟩ := writeBack_error hw
    exact ⟨fun hcontra => (by cases hcontra), fun ⟨_, _, _, hempty, _⟩ => (by cases hew.symm.trans hempty)⟩
  | stop t hw hs =>
    rw [retireCountReached, hstop] at hs
    cases hs
  | raiseExecute t e hw _ hx =>
    refine ⟨fun hcontra => (by cases hcontra), fun ⟨_, _, hempty, _⟩ => ?_⟩
    rw [show t.de = .empty from hempty] at hx
    cases hx
  | advance t x hw _ hx =>
    obtain ⟨_, _, _, _, hcfg, hstatus, _⟩ := advance_frame hx
    have hkept := afterWriteBack hw
    rw [checkHaltAt_fpc, checkHaltAt_fd, checkHaltAt_de, checkHaltAt_ew, checkHaltAt_fwait]
    refine checkHaltAt_stopped_iff (hstatus.trans (hkept.status.trans hr)) ?_
    rw [hcfg, hkept.cfg, hstop]

/-- Below N retirements, a Write-back is the N-th exactly when it brings the count to N. -/
theorem retireCountReached_iff {s t : State} {n : Nat} (hstop : s.cfg.stop = .retireCount n) (hlt : s.retired < n)
    (hw : writeBack { s with cycles := s.cycles + 1 } = .ok t) :
    retireCountReached { s with cycles := s.cycles + 1 } t = true ↔ t.retired = n := by
  have hretired := (afterWriteBack hw).retired
  simp only [retireCountReached, hstop]
  refine decide_eq_true_iff.trans ⟨And.right, fun hn => ⟨fun hew => ?_, hn⟩⟩
  rw [if_pos hew] at hretired
  omega

/-- Under `RetireCount(N)` a tick of a core that has retired fewer than N stops the run exactly when it leaves N retired. -/
theorem tick_stopped_retireCount {s : State} {n : Nat} (hr : s.status = .running) (hstop : s.cfg.stop = .retireCount n)
    (hlt : s.retired < n) : (tick s).status = .stopped ↔ (tick s).retired = n := by
  have hc := tick_cases hr
  generalize tick s = u at hc
  cases hc with
  | raiseWriteBack e hw =>
    exact ⟨fun hcontra => (by cases hcontra), fun hn => absurd hn (Nat.ne_of_lt hlt)⟩
  | stop t hw hs => exact ⟨fun _ => (retireCountReached_iff hstop hlt hw).1 hs, fun _ => rfl⟩
  | raiseExecute t e hw hs _ =>
    exact ⟨fun hcontra => (by cases hcontra), fun hn => (by cases hs.symm.trans ((retireCountReached_iff hstop hlt hw).2 hn))⟩
  | advance t x hw hs hx =>
    obtain ⟨_, _, hretired, _, hcfg, hstatus, _⟩ := advance_frame hx
    have hkept := afterWriteBack hw
    rw [checkHaltAt_retireCount (by rw [hcfg, hkept.cfg, hstop]), hstatus, hkept.status, hr, hretired]
    exact ⟨fun hcontra => (by cases hcontra), fun hn => (by cases hs.symm.trans ((retireCountReached_iff hstop hlt hw).2 hn))⟩

/-- A launch is stopped right after reset exactly where the policy stops the reference. -/
theorem boot_stopped_iff (cfg : Params) (regs : Vector Word 32) (mem : Memory) :
    (boot cfg regs mem).status = .stopped ↔ stopsHere (State.launch cfg regs mem) = true := by
  rcases boot_cases cfg regs mem with ⟨hboot, hgo⟩ | ⟨hboot, hstop⟩ <;> rw [hboot]
  · simp [hgo]
  · simp [hstop]

/-- Settles O40: each policy's check over the ways a tick can go, and the check after reset. -/
theorem terminationPolicies : Obligations.TerminationPolicies := by
  refine ⟨fun s h hr hstop => ⟨tick_stopped_haltAt hr hstop, fun hwait hpc => ?idle⟩, fun s n hr hstop hlt =>
    ⟨tick_stopped_retireCount hr hstop hlt, fun t hw hn => ?reached⟩, fun cfg regs mem => ⟨fun h hstop => ?haltAt,
    fun n hstop => ?retireCount⟩⟩
  case idle => exact fetchStage_eq (.idle hwait (hpc ▸ hstop))
  case reached => exact tick_of_reached hr hw ((retireCountReached_iff hstop hlt hw).2 hn)
  case haltAt => exact (boot_stopped_iff cfg regs mem).trans (stopsHere_launch_haltAt hstop regs mem)
  case retireCount => exact (boot_stopped_iff cfg regs mem).trans (stopsHere_launch_retireCount hstop regs mem)

/-! ### Counters (R165) -/

/-- Fetch looks its address up: no wait is in progress, and the address is one that Fetch may look up (R153). -/
def LooksUp (s : State) : Prop := s.fwait = 0 ∧ FetchAddressOk s.cfg s.fpc

/-- A lookup that hits counts a hit and reads no block. -/
theorem fetchStage_counts_hit {s : State} (h : LooksUp s) (hl : lookup s.cfg s.l1i s.fpc ≠ none) :
    (fetchStage s).state.l1iHits = s.l1iHits + 1 ∧ (fetchStage s).state.l1iMisses = s.l1iMisses ∧
      (fetchStage s).state.l1i = s.l1i := by
  obtain ⟨hw, ha, hb, hs⟩ := h
  obtain ⟨w, hl⟩ := Option.ne_none_iff_exists'.1 hl
  rw [fetchStage_eq (.hit w hw hs ha hb hl)]
  exact ⟨rfl, rfl, rfl⟩

/-- A lookup that misses counts a miss and reads one block into the L1I. -/
theorem fetchStage_counts_miss {s : State} (h : LooksUp s) (hl : lookup s.cfg s.l1i s.fpc = none) :
    (fetchStage s).state.l1iHits = s.l1iHits ∧ (fetchStage s).state.l1iMisses = s.l1iMisses + 1 ∧
      (fetchStage s).state.l1i = fill s.cfg s.mem s.l1i s.fpc := by
  obtain ⟨hw, ha, hb, hs⟩ := h
  rw [fetchStage_eq (.miss hw hs ha hb hl)]
  exact ⟨rfl, rfl, rfl⟩

/-- Without a lookup nothing is counted and nothing is read. -/
theorem fetchStage_counts_nothing {s : State} (h : ¬ LooksUp s) :
    (fetchStage s).state.l1iHits = s.l1iHits ∧ (fetchStage s).state.l1iMisses = s.l1iMisses ∧
      (fetchStage s).state.l1i = s.l1i := by
  have hf := fetchStage_cases s
  generalize fetchStage s = f at hf
  cases hf with
  | wait | arrive | idle | token => exact ⟨rfl, rfl, rfl⟩
  | hit _ hw hs ha hb | miss hw hs ha hb => exact absurd ⟨hw, ha, hb, hs⟩ h

/-- The rest of a tick counts a flush exactly when Execute asks for a redirect. -/
theorem advance_flushes {s : State} {x : ExecuteOut} (hx : executeStage s.de = .ok x) :
    (advance s x).flushes = s.flushes + (if x.redirect = none then 0 else 1) := by
  obtain ⟨_, _, _, _, _, hframe⟩ := fetchStage_frame s
  have h := advance_cases hx
  generalize advance s x = u at h
  cases h with
  | stall _ hr => simp [hr]
  | redirect _ hr | pass _ _ hr => simp [hr, hframe]

/-- Without a stall the rest of a tick leaves the L1I and its counters as Fetch does, on the wrong path too. -/
theorem advance_fetch {s : State} {x : ExecuteOut} {de : DeLatch} (hx : executeStage s.de = .ok x)
    (hd : decodeStage s x.forward = .pass de) :
    (advance s x).l1iHits = (fetchStage s).state.l1iHits ∧ (advance s x).l1iMisses = (fetchStage s).state.l1iMisses ∧
      (advance s x).l1i = (fetchStage s).state.l1i := by
  have h := advance_cases hx
  generalize advance s x = u at h
  cases h with
  | stall hstall => cases hstall.symm.trans hd
  | redirect | pass => exact ⟨rfl, rfl, rfl⟩

/-- Every tick of a running core counts one cycle. -/
theorem tick_cycles {s : State} (hr : s.status = .running) : (tick s).cycles = s.cycles + 1 := by
  have h := tick_cases hr
  generalize tick s = u at h
  cases h with
  | raiseWriteBack => rfl
  | stop t hw | raiseExecute t _ hw => exact (afterWriteBack hw).cycles
  | advance t x hw _ hx =>
    obtain ⟨_, _, _, hcycles, _⟩ := advance_frame hx
    rw [checkHaltAt_cycles, hcycles, (afterWriteBack hw).cycles]

/-- A tick that ends early after its Write-back counts no hit, no miss and no flush. -/
theorem tick_counts_early_end {s t : State} (hr : s.status = .running)
    (hw : writeBack { s with cycles := s.cycles + 1 } = .ok t)
    (h : retireCountReached { s with cycles := s.cycles + 1 } t = true ∨ ∃ e, executeStage s.de = .error e) :
    (tick s).l1iHits = s.l1iHits ∧ (tick s).l1iMisses = s.l1iMisses ∧ (tick s).flushes = s.flushes := by
  have hkept := afterWriteBack hw
  cases hs : retireCountReached { s with cycles := s.cycles + 1 } t with
  | true =>
    rw [tick_of_reached hr hw hs]
    exact ⟨hkept.l1iHits, hkept.l1iMisses, hkept.flushes⟩
  | false =>
    obtain ⟨e, hx⟩ := h.resolve_left (by simp [hs])
    rw [tick_of_execute_error hr hw hs hx]
    exact ⟨hkept.l1iHits, hkept.l1iMisses, hkept.flushes⟩

/-- Settles O41: what each way a tick can go leaves of each counter, with Fetch's three cases of a lookup. -/
theorem counterEvents : Obligations.CounterEvents := by
  refine ⟨fun s hr => ⟨tick_cycles hr, fun e hw => ?raises, fun t hw => ⟨?retired, tick_counts_early_end hr hw,
    fun x hs hx => ?advance⟩⟩, fun cfg regs mem => ?launch⟩
  case raises =>
    rw [tick_of_writeBack_error hr hw]
    exact ⟨rfl, rfl, rfl, rfl⟩
  case retired => exact (tick_after_writeBack hr hw).1.retired.trans (afterWriteBack hw).retired
  case advance =>
    have hkept := afterWriteBack hw
    rw [← hkept.de] at hx
    rw [tick_eq_advance hr hw hs (hkept.de ▸ hx), checkHaltAt_flushes, checkHaltAt_l1iHits, checkHaltAt_l1iMisses,
      checkHaltAt_l1i, ← hkept.flushes, ← hkept.l1iHits, ← hkept.l1iMisses, ← hkept.l1i, ← hkept.fwait, ← hkept.cfg,
      ← hkept.fpc]
    refine ⟨advance_flushes hx, fun hd => ?_, fun de hd => ?_⟩
    · rw [advance_stall hx hd]
      exact ⟨rfl, rfl⟩
    · obtain ⟨hhits, hmisses, hl1i⟩ := advance_fetch hx hd
      rw [hhits, hmisses, hl1i]
      exact ⟨fun ⟨hwait, hhalt, ha, hb⟩ => fetchStage_counts_hit ⟨hwait, ha, hb, hhalt⟩,
        fun ⟨hwait, hhalt, ha, hb⟩ => fetchStage_counts_miss ⟨hwait, ha, hb, hhalt⟩,
        fun hno => fetchStage_counts_nothing fun ⟨hwait, ha, hb, hhalt⟩ => hno ⟨hwait, hhalt, ha, hb⟩⟩
  case launch =>
    rw [boot_eq]
    split <;> exact ⟨rfl, rfl, rfl, rfl, rfl⟩

end Sys2Proof.Machine
end

section
/-! The pipeline beside the sequential reference (70_reset_and_hazards.md section 9): where both start, and that one ends iff
the other does, in the same way. -/

namespace Sys2Proof.Machine

/-! ### Launch (R149) -/

/-- A launch that the policy does not stop at once meets the invariant. -/
theorem coreInv_launch {cfg : Params} {mem : Memory} (regs : Vector Word 32) (h : LaunchOk cfg mem)
    (hgo : stopsHere (State.launch cfg regs mem) = false) : CoreInv (State.launch cfg regs mem) where
  structural := structure_launch regs h
  execution _ :=
    { operands := by rintro _ _ _ _ _ ⟨⟩
      interlock := by rintro _ _ _ _ _ _ _ _ _ _ _ ⟨⟩
      executed := by rintro _ _ _ _ _ ⟨⟩
      policy := by
        simp only [stopsHere] at hgo
        split <;> rename_i hstop <;> rw [hstop] at hgo
        · exact fun hhalt => of_decide_eq_false hgo hhalt.1
        · exact Nat.pos_of_ne_zero fun hzero => of_decide_eq_false hgo hzero.symm }

/-- A launch that the policy does not stop at once is where the pipeline and the reference both start. -/
theorem sim_launch {cfg : Params} {mem : Memory} (regs : Vector Word 32) (h : LaunchOk cfg mem)
    (hcode : CodeUnmodified (State.launch cfg regs mem)) (hgo : stopsHere (State.launch cfg regs mem) = false) :
    Sim (State.launch cfg regs mem) (State.launch cfg regs mem) where
  inv := coreInv_launch regs h hgo
  run := rfl
  agree := ⟨rfl, rfl, rfl, rfl, rfl, rfl⟩
  code := hcode
  ew := by rintro _ _ _ _ _ ⟨⟩
  coh :=
    { de := by rintro _ _ _ _ _ ⟨⟩
      tok := by rintro _ _ _ ⟨⟩
      fd := by rintro _ _ _ ⟨⟩
      line := fun _ _ hl => by cases (lineAt_replicate cfg.numLines _).symm.trans hl }

/-! ### Ends of the reference (R167) -/

theorem sequentialStep_of_ended {s : State} (h : s.status ≠ .running) : ∃ r, sequentialStep s = .fault r := by
  unfold sequentialStep
  split
  · exact ⟨_, rfl⟩
  · exact ⟨_, rfl⟩
  · exact absurd (by assumption) h

theorem sequentialStep_of_stopsHere {s : State} (hr : s.status = .running) (h : stopsHere s = true) :
    sequentialStep s = .next { s with status := .stopped } := by
  simp [sequentialStep, hr, h]

/-- Steps asked for after the reference has ended change nothing. -/
theorem sequentialRun_of_le {m n : Nat} {s : State} (hmn : m ≤ n) (h : (sequentialRun m s).status ≠ .running) :
    sequentialRun n s = sequentialRun m s := by
  induction m generalizing n s with
  | zero =>
    obtain ⟨_, hfault⟩ := sequentialStep_of_ended (s := s) h
    cases n with
    | zero => rfl
    | succ n => simp [sequentialRun, hfault]
  | succ m ih =>
    obtain ⟨n, rfl⟩ : ∃ k, n = k + 1 := Nat.exists_eq_add_one.2 (by omega)
    unfold sequentialRun at h ⊢
    split at h
    · exact ih (by omega) h
    · rfl
    · rfl

/-- The reference ends in one state, however many steps it is asked for. -/
theorem sequentialRun_end_unique {m n : Nat} {s : State} (hm : (sequentialRun m s).status ≠ .running)
    (hn : (sequentialRun n s).status ≠ .running) : sequentialRun m s = sequentialRun n s := by
  rcases Nat.le_total m n with h | h
  · exact (sequentialRun_of_le h hm).symm
  · exact sequentialRun_of_le h hn

/-! ### Ends of the two runs (R168) -/

theorem SameEnd.symm {s t : State} (h : SameEnd s t) : SameEnd t s :=
  ⟨h.status.symm, h.results.regs.symm, h.results.mem.symm, h.results.retired.symm⟩

/-- When the pipeline has ended, the reference ends the same way: by induction over the ticks, each a step of the reference or
none. -/
theorem sim_pipeline_end {v s : State} (h : Sim v s) {n : Nat} (hn : (ticks n s).status ≠ .running) :
    ∃ k, SameEnd (ticks n s) (sequentialRun k v) := by
  induction n generalizing v s with
  | zero => exact absurd h.run hn
  | succ n ih =>
    rw [ticks_succ] at hn ⊢
    rcases sim_tick h with ⟨v', hv, h'⟩ | ⟨hended, k, hend⟩
    · obtain ⟨k, hend⟩ := ih h' hn
      rcases hv with ⟨_, rfl⟩ | ⟨_, hstep⟩
      · exact ⟨k, hend⟩
      · exact ⟨k + 1, by rwa [seqRun_succ_next hstep]⟩
    · exact ⟨k, by rw [ticks_ended hended]; exact hend.symm⟩

/-- When the reference ends, the pipeline does: by induction over the steps of the reference and, between two of them, over
the ticks that can pass before the next retirement. -/
theorem sim_pipeline_ends {v s : State} (h : Sim v s) {k : Nat} (hk : (sequentialRun k v).status ≠ .running) :
    ∃ n, (ticks n s).status ≠ .running := by
  induction k generalizing v s with
  | zero => exact absurd (h.agree.status.trans h.run) hk
  | succ k ih =>
    induction hm : waitMeasure s using Nat.strong_induction_on generalizing s with
    | _ m ihWait =>
      rcases sim_tick h with ⟨v', ⟨hew, rfl⟩ | ⟨_, hstep⟩, h'⟩ | ⟨hended, _⟩
      · obtain ⟨hless, _⟩ := tick_measure h.inv h.run hew h'.run
        obtain ⟨n, hn⟩ := ihWait _ (hm ▸ hless) h' rfl
        exact ⟨n + 1, hn⟩
      · rw [seqRun_succ_next hstep] at hk
        obtain ⟨n, hn⟩ := ih h' hk
        exact ⟨n + 1, hn⟩
      · exact ⟨1, hended⟩

/-- When the reference has ended, the pipeline ends the same way. -/
theorem sim_reference_end {v s : State} (h : Sim v s) {k : Nat} (hk : (sequentialRun k v).status ≠ .running) :
    ∃ n, SameEnd (ticks n s) (sequentialRun k v) := by
  obtain ⟨n, hn⟩ := sim_pipeline_ends h hk
  obtain ⟨k', hend⟩ := sim_pipeline_end h hn
  rw [sequentialRun_end_unique (hend.status ▸ hn) hk] at hend
  exact ⟨n, hend⟩

/-- Settles O58: from a launch that goes on, by the simulation; a launch that the policy stops at once is stopped by the
reference's first step. -/
theorem pipelineMatchesSequentialReference : Obligations.PipelineMatchesSequentialReference := by
  intro cfg regs mem hlaunch hcode
  rcases boot_cases cfg regs mem with ⟨hboot, hgo⟩ | ⟨hboot, hstop⟩ <;> rw [hboot]
  · have hsim := sim_launch regs hlaunch hcode hgo
    exact ⟨fun _ => sim_pipeline_end hsim, fun _ => sim_reference_end hsim⟩
  · have hrun : sequentialRun 1 (State.launch cfg regs mem) = { State.launch cfg regs mem with status := .stopped } := by
      rw [seqRun_succ_next (sequentialStep_of_stopsHere rfl hstop), sequentialRun]
    refine ⟨fun n _ => ⟨1, ?_⟩, fun k hk => ⟨0, ?_⟩⟩
    · rw [ticks_ended (by simp), hrun]
      exact ⟨rfl, rfl, rfl, rfl⟩
    · rw [sequentialRun_end_unique hk (n := 1) (by simp [hrun]), hrun]
      exact ⟨rfl, rfl, rfl, rfl⟩

end Sys2Proof.Machine
end

section
/-! The execution of one instruction by itself (R6): what it leaves unchanged, a load after a store, the bits of the logic
instructions, and the control transfers that complete. -/

namespace Sys2Proof.Machine

/-! ### What an execution can do -/

/-- An instruction whose Execute and Write-back pass retires what its commit left, at its next address. -/
theorem exec_commits {i : Instr} {s t : State} {c : Computed}
    (hx : (splitOf i).execute s.fpc (s.readSource (rs1Of i)) (s.readSource (rs2Of i)) = .ok c)
    (hc : (splitOf i).commit s.fpc c.result c.addr c.data s = .ok t) :
    exec i s = .next (t.retireTo (c.transfer.actualNext s.fpc)) := by
  simp only [exec_eq_runAlone, runAlone, hx, hc]
  rfl

/-- An instruction that Execute passes and Write-back does not raises the error of its commit. -/
theorem exec_commit_raises {i : Instr} {s : State} {c : Computed} {e : FatalError}
    (hx : (splitOf i).execute s.fpc (s.readSource (rs1Of i)) (s.readSource (rs2Of i)) = .ok c)
    (hc : (splitOf i).commit s.fpc c.result c.addr c.data s = .error e) : exec i s = .next (raise e s) := by
  simp only [exec_eq_runAlone, runAlone, hx, hc]

/-- What an execution can do: raise, or retire what its commit left. -/
inductive ExecCase (i : Instr) (s : State) : State → Prop where
  | raised (e : FatalError) : ExecCase i s (raise e s)
  | retired (c : Computed) (t : State)
      (hx : (splitOf i).execute s.fpc (s.readSource (rs1Of i)) (s.readSource (rs2Of i)) = .ok c)
      (hc : (splitOf i).commit s.fpc c.result c.addr c.data s = .ok t) :
      ExecCase i s (t.retireTo (c.transfer.actualNext s.fpc))

theorem exec_cases {i : Instr} {s t : State} (h : exec i s = .next t) : ExecCase i s t := by
  rw [exec_eq_runAlone] at h
  rcases runAlone_cases (splitOf i) (s.readSource (rs1Of i)) (s.readSource (rs2Of i)) s with
    ⟨e, _, hrun⟩ | ⟨_, e, _, _, hrun⟩ | ⟨c, u, hx, hc, hrun⟩ <;>
    cases hrun.symm.trans h
  · exact .raised e
  · exact .raised e
  · exact .retired c u hx hc

/-! ### Frames (R12, R36) -/

theorem exec_sameMachinery {i : Instr} {s t : State} (h : exec i s = .next t) : SameMachinery s t := by
  cases exec_cases h with
  | raised e => exact ⟨rfl, rfl, rfl, rfl, rfl, rfl, rfl, rfl, rfl, rfl⟩
  | retired c u _ hc =>
    rw [commit_frame hc]
    exact ⟨rfl, rfl, rfl, rfl, rfl, rfl, rfl, rfl, rfl, rfl⟩

/-- An instruction with a destination register changes no other register and no byte of memory. -/
theorem exec_of_dest {i : Instr} {rd : RegIdx} (hrd : rdOf i = some rd) {s t : State} (h : exec i s = .next t) :
    (∀ r, r ≠ rd → t.readReg r = s.readReg r) ∧ t.mem = s.mem := by
  cases exec_cases h with
  | raised e => exact ⟨fun _ _ => rfl, rfl⟩
  | retired c u _ hc =>
    rcases commit_ok hc with ⟨rd', v, hrd', rfl, _⟩ | ⟨hnone, _⟩ | ⟨hnone, _⟩
    · cases hrd.symm.trans hrd'
      exact ⟨fun r hr => readReg_writeReg_of_ne s v hr, writeReg_mem s rd v⟩
    · cases hrd.symm.trans hnone
    · cases hrd.symm.trans hnone

/-- An instruction without a destination register changes no register. -/
theorem exec_of_no_dest {i : Instr} (hrd : rdOf i = none) {s t : State} (h : exec i s = .next t) : t.regs = s.regs := by
  cases exec_cases h with
  | raised e => rfl
  | retired c u _ hc =>
    rcases commit_ok hc with ⟨rd, v, hsome, _⟩ | ⟨_, rfl⟩ | ⟨_, n, _, rfl⟩
    · cases hrd.symm.trans hsome
    · rfl
    · rfl

theorem rdOf_registerWriter {rd rs1 rs2 : RegIdx} {imm : Word} {shamt : BitVec 5} {i : Instr}
    (hi : i ∈ loadInstrs rd rs1 imm ++ aluInstrs rd rs1 rs2 imm shamt ++ upperInstrs rd imm ++ jumpInstrs rd rs1 imm) :
    rdOf i = some rd := by
  fin_cases hi <;> rfl

/-- Settles O10: every such instruction has rd as its destination. -/
theorem registerWriterFrame : Obligations.RegisterWriterFrame := by
  intro s t rd rs1 rs2 imm shamt i hi h
  obtain ⟨hregs, hmem⟩ := exec_of_dest (rdOf_registerWriter hi) h
  exact ⟨hregs, exec_sameMachinery h, fun x => by rw [hmem]⟩

theorem rdOf_branch {rs1 rs2 : RegIdx} {imm : Word} {i : Instr} (hi : i ∈ branchInstrs rs1 rs2 imm) : rdOf i = none := by
  fin_cases hi <;> rfl

theorem exec_branch_mem {rs1 rs2 : RegIdx} {imm : Word} {i : Instr} (hi : i ∈ branchInstrs rs1 rs2 imm) {s t : State}
    (h : exec i s = .next t) : t.mem = s.mem := by
  cases exec_cases h with
  | raised e => rfl
  | retired c u _ hc =>
    rw [commit_branch hi] at hc
    cases hc
    rfl

/-- Settles O11: a branch has no destination and commits nothing. -/
theorem branchFrame : Obligations.BranchFrame := by
  intro s t rs1 rs2 imm i hi h
  exact ⟨fun r => readReg_congr (exec_of_no_dest (rdOf_branch hi) h) r, exec_sameMachinery h,
    fun x => by rw [exec_branch_mem hi h]⟩

/-! ### Stores (R108, R110) -/

/-- A store either passes its checks and writes the low bytes of rs2, or raises the error of its checks. -/
theorem exec_store_cases {rs1 rs2 : RegIdx} {imm : Word} {i : Instr} {n : Nat} (hi : i ∈ storeInstrs rs1 rs2 imm)
    (hn : accessWidth i = some n) {s t : State} (h : exec i s = .next t) :
    (∃ e, t = raise e s) ∨
      (s.readReg rs1 + imm).toNat % n = 0 ∧ (s.readReg rs1 + imm).toNat + n ≤ s.cfg.memSize ∧
        t = ({ s with
          mem := Memory.writeBytes s.mem (s.readReg rs1 + imm).toNat n (s.readReg rs2) } : State).retireTo
            (s.fpc + 4#32) := by
  cases hcheck : checkAccess s.cfg.memSize s.fpc (accessAddress i s) n with
  | error e =>
    cases (exec_access_error hn hcheck).symm.trans h
    exact .inl ⟨e, rfl⟩
  | ok _ =>
    obtain ⟨ha, hb⟩ := checkAccess_ok.1 hcheck
    rw [accessAddress_store hi] at ha hb
    cases (exec_store_passes hi hn ha hb).symm.trans h
    exact .inr ⟨ha, hb, rfl⟩

theorem rdOf_store {rs1 rs2 : RegIdx} {imm : Word} {i : Instr} (hi : i ∈ storeInstrs rs1 rs2 imm) : rdOf i = none := by
  fin_cases hi <;> rfl

/-- The bytes a store writes are those of its access. -/
theorem storeSpan_store {rs1 rs2 : RegIdx} {imm : Word} {i : Instr} (hi : i ∈ storeInstrs rs1 rs2 imm) {s : State}
    {addr n : Nat} (h : storeSpan i s = some (addr, n)) :
    addr = (s.readReg rs1 + imm).toNat ∧ accessWidth i = some n := by
  fin_cases hi <;> cases h <;> exact ⟨rfl, rfl⟩

/-- Settles O9: a store has no destination, and outside the written bytes memory reads as before. -/
theorem storeFrame : Obligations.StoreFrame := by
  intro s t rs1 rs2 imm hm i hi h
  refine ⟨fun r => readReg_congr (exec_of_no_dest (rdOf_store hi) h) r, exec_sameMachinery h,
    fun addr n hspan x hx => ?_⟩
  obtain ⟨rfl, hn⟩ := storeSpan_store hi hspan
  rcases exec_store_cases hi hn h with ⟨e, rfl⟩ | ⟨_, _, rfl⟩
  · rfl
  · exact read_writeBytes_outside hm _ hx

/-! ### A load after a store (R38, R109, R110) -/

/-- A load that extends with zeros, of the width and address of a store that completed, reads back the low bytes of rs2. -/
theorem load_after_store {rs1 rs2 rd rs3 : RegIdx} {imm imm' : Word} {i j : Instr} {n : Nat}
    (hi : i ∈ storeInstrs rs1 rs2 imm) (hj : j ∈ loadInstrs rd rs3 imm') (hin : accessWidth i = some n)
    (hjn : accessWidth j = some n) {s t : State} (hm : Memory.wf s.mem) (hrd : rd ≠ 0#5) (ht : t.status = .running)
    (haddr : s.readReg rs3 + imm' = s.readReg rs1 + imm) (hzero : ∀ v, loadedNumber j v = v) (h : exec i s = .next t) :
    ∃ u, exec j t = .next u ∧ u.readReg rd = BitVec.ofNat 32 ((s.readReg rs2).toNat % 2 ^ (8 * n)) := by
  rcases exec_store_cases hi hin h with ⟨e, rfl⟩ | ⟨ha, hb, hstored⟩
  · cases ht
  · have hmem : t.mem = Memory.writeBytes s.mem (s.readReg rs1 + imm).toNat n (s.readReg rs2) := by rw [hstored]; rfl
    have hcfg : t.cfg = s.cfg := by rw [hstored]; rfl
    have hbase : t.readReg rs3 + imm' = s.readReg rs1 + imm := by rw [hstored]; exact haddr
    have hread := readBytes_writeBytes hm (s.readReg rs1 + imm).toNat n (s.readReg rs2) (Nat.le_of_eq (Nat.zero_add n))
    rw [Nat.add_zero, Nat.mul_zero, Nat.pow_zero, Nat.div_one, ← hmem, ← hbase] at hread
    rw [← hbase] at ha hb
    rw [← hcfg] at hb
    refine ⟨_, exec_load_passes hj hjn ha hb rfl, ?_⟩
    rw [hread, hzero, BitVec.ofInt_natCast]
    exact readReg_writeReg_same _ _ hrd

/-- Settles O12: the three pairs of one width, and the low bytes as a number. -/
theorem loadAfterStoreReturnsStoredValue : Obligations.LoadAfterStoreReturnsStoredValue := by
  intro s t rs1 rs2 rd rs3 imm imm' hm hrd ht haddr v
  refine ⟨fun h => ?word, fun h => ?half, fun h => ?byte⟩
  case word =>
    refine (load_after_store (i := .sw rs1 rs2 imm) (j := .lw rd rs3 imm') (rs2 := rs2) (by simp [storeInstrs])
      (by simp [loadInstrs]) rfl rfl hm hrd ht haddr (fun _ => rfl) h).imp fun u hu => hu.imp_right fun hv => ?_
    rw [hv, Nat.mod_eq_of_lt (s.readReg rs2).isLt, BitVec.ofNat_toNat, BitVec.setWidth_eq]
  case half =>
    refine (load_after_store (i := .sh rs1 rs2 imm) (j := .lhu rd rs3 imm') (rs2 := rs2) (by simp [storeInstrs])
      (by simp [loadInstrs]) rfl rfl hm hrd ht haddr (fun _ => rfl) h).imp fun u hu => hu.imp_right fun hv => ?_
    rw [hv, BitVec.toNat_ofNat]
    omega
  case byte =>
    refine (load_after_store (i := .sb rs1 rs2 imm) (j := .lbu rd rs3 imm') (rs2 := rs2) (by simp [storeInstrs])
      (by simp [loadInstrs]) rfl rfl hm hrd ht haddr (fun _ => rfl) h).imp fun u hu => hu.imp_right fun hv => ?_
    rw [hv, BitVec.toNat_ofNat]
    omega

/-! ### Logic instructions (R88 to R90, R99, R102, R103) -/

/-- Settles O16: each instruction writes the word operation's result, whose bits are the connective's. -/
theorem logicInstructionsActBitwise : Obligations.LogicInstructionsActBitwise := by
  intro s rd rs1 rs2 imm
  refine ⟨?xori, ?ori, ?andi, ?xor, ?or, ?and⟩
  case xori | xor => exact ⟨_, exec_of_result rfl rfl, fun _ _ => BitVec.getLsbD_xor⟩
  case ori | or => exact ⟨_, exec_of_result rfl rfl, fun _ _ => BitVec.getLsbD_or⟩
  case andi | and => exact ⟨_, exec_of_result rfl rfl, fun _ _ => BitVec.getLsbD_and⟩

/-! ### Control transfers that complete (R125 to R134) -/

theorem executeBranch_taken {imm pc : Word} (h : (pc + imm).toNat % 4 = 0) :
    executeBranch true imm pc = .ok { transfer := .branch true (pc + imm) } :=
  if_neg fun hna => hna.2 h

theorem executeJump_aligned {target pc : Word} (h : target.toNat % 4 = 0) :
    executeJump target pc = .ok { result := nextPc pc, transfer := .jump target } :=
  if_neg fun hna => hna h

/-- A branch that Execute passes goes on at its next address, and nothing else changes. -/
theorem exec_branch {rs1 rs2 : RegIdx} {imm : Word} {i : Instr} (hi : i ∈ branchInstrs rs1 rs2 imm) {s : State}
    {c : Computed} (hx : (splitOf i).execute s.fpc (s.readReg rs1) (s.readReg rs2) = .ok c) :
    exec i s = .next (s.retireTo (c.transfer.actualNext s.fpc)) := by
  obtain ⟨h1, h2⟩ := readSource_branch hi s
  rw [← h1, ← h2] at hx
  exact exec_commits hx (by rw [commit_branch hi, commitNothing])

/-- Settles O20: Execute passes a branch that is not taken, and a taken one to an aligned target. -/
theorem branchesCompleteAtTheirNextAddress : Obligations.BranchesCompleteAtTheirNextAddress := by
  refine fun s rs1 rs2 imm i hi => ⟨fun hc => ?_, fun hc ha => ?_⟩
  · exact exec_branch hi ((execute_branch_not_taken hi hc).trans (executeBranch_not_taken imm s.fpc))
  · exact exec_branch hi ((execute_branch_taken hi hc).trans (executeBranch_taken ha))

/-- A jump to an aligned target writes the link and goes on at the target. -/
theorem exec_jump {rd rs1 : RegIdx} {imm : Word} {i : Instr} (hi : i ∈ jumpInstrs rd rs1 imm) {s : State} {target : Word}
    (hx : (splitOf i).execute s.fpc (s.readSource (rs1Of i)) (s.readSource (rs2Of i)) = executeJump target s.fpc)
    (ha : target.toNat % 4 = 0) : exec i s = .next ((s.writeReg rd (s.fpc + 4#32)).retireTo target) := by
  have hcommit : (splitOf i).commit = commitResult rd :=
    commit_result_of_mem (rs2 := 0#5) (shamt := 0#5) (List.mem_append_right _ hi)
  exact exec_commits (hx.trans (executeJump_aligned ha)) (by rw [hcommit, commitResult]; rfl)

theorem jalrTarget_eq_ofNat (base imm : Word) :
    jalrTarget base imm = BitVec.ofNat 32 ((base + imm).toNat - (base + imm).toNat % 2) := by
  rw [← jalrTarget_toNat, BitVec.ofNat_toNat, BitVec.setWidth_eq]

/-- Settles O22: Execute passes a jump to an aligned target, which for JALR is the sum without its bit 0. -/
theorem jumpsLinkAndGoToTarget : Obligations.JumpsLinkAndGoToTarget := by
  intro s rd rs1 imm
  refine ⟨fun ha => ?jal, fun ha => ?jalr⟩
  case jal => exact exec_jump (rs1 := rs1) (imm := imm) (i := .jal rd imm) (by simp [jumpInstrs]) rfl ha
  case jalr =>
    rw [← jalrTarget_eq_ofNat] at ha ⊢
    exact exec_jump (rs1 := rs1) (imm := imm) (i := .jalr rd rs1 imm) (by simp [jumpInstrs]) rfl ha

end Sys2Proof.Machine
end

section
/-! Decoded words (30_encoding.md): a word is the encoding of what it decodes to, and the bytes of a table word spell it. -/

namespace Sys2Proof.Machine

/-! ### A word is put together again from its fields (R62) -/

section
variable {w : Word} {op : BitVec 7} {f3 : BitVec 3} {f7 : BitVec 7}

theorem encodeR_fields (ho : fieldOpcode w = op) (h3 : fieldFunct3 w = f3) (h7 : fieldFunct7 w = f7) :
    encodeR f7 (fieldRs2 w) (fieldRs1 w) f3 (fieldRd w) op = w := by
  subst ho h3 h7
  apply BitVec.eq_of_getLsbD_eq
  intro k hk
  simp only [encodeR, fieldFunct7, fieldRs2, fieldRs1, fieldFunct3, fieldRd, fieldOpcode, BitVec.getLsbD_append,
    BitVec.getLsbD_extractLsb']
  interval_cases k <;> simp

theorem encodeI_fields (ho : fieldOpcode w = op) (h3 : fieldFunct3 w = f3) :
    encodeI (fieldImmI w) (fieldRs1 w) f3 (fieldRd w) op = w := by
  subst ho h3
  apply BitVec.eq_of_getLsbD_eq
  intro k hk
  simp only [encodeI, fieldImmI, fieldRs1, fieldFunct3, fieldRd, fieldOpcode, BitVec.getLsbD_append,
    BitVec.getLsbD_extractLsb', BitVec.getLsbD_signExtend]
  interval_cases k <;> simp

theorem encodeS_fields (ho : fieldOpcode w = op) (h3 : fieldFunct3 w = f3) :
    encodeS (fieldImmS w) (fieldRs2 w) (fieldRs1 w) f3 op = w := by
  subst ho h3
  apply BitVec.eq_of_getLsbD_eq
  intro k hk
  simp only [encodeS, fieldImmS, fieldRs2, fieldRs1, fieldFunct3, fieldOpcode, BitVec.getLsbD_append,
    BitVec.getLsbD_extractLsb', BitVec.getLsbD_signExtend]
  interval_cases k <;> simp

theorem encodeB_fields (ho : fieldOpcode w = op) (h3 : fieldFunct3 w = f3) :
    encodeB (fieldImmB w) (fieldRs2 w) (fieldRs1 w) f3 op = w := by
  subst ho h3
  apply BitVec.eq_of_getLsbD_eq
  intro k hk
  simp only [encodeB, fieldImmB, fieldRs2, fieldRs1, fieldFunct3, fieldOpcode, BitVec.getLsbD_append,
    BitVec.getLsbD_extractLsb', BitVec.getLsbD_signExtend]
  interval_cases k <;> simp

theorem encodeU_fields (ho : fieldOpcode w = op) : encodeU (fieldImmU w) (fieldRd w) op = w := by
  subst ho
  apply BitVec.eq_of_getLsbD_eq
  intro k hk
  simp only [encodeU, fieldImmU, fieldRd, fieldOpcode, BitVec.getLsbD_append, BitVec.getLsbD_extractLsb']
  interval_cases k <;> simp

theorem encodeJ_fields (ho : fieldOpcode w = op) : encodeJ (fieldImmJ w) (fieldRd w) op = w := by
  subst ho
  apply BitVec.eq_of_getLsbD_eq
  intro k hk
  simp only [encodeJ, fieldImmJ, fieldRd, fieldOpcode, BitVec.getLsbD_append, BitVec.getLsbD_extractLsb',
    BitVec.getLsbD_signExtend]
  interval_cases k <;> simp

end

/-! ### Immediates of decoded words are in range (R63 to R67) -/

theorem toInt_signExtend_bounds {n : Nat} (hn : n ≤ 32) (v : BitVec n) :
    -2 ^ (n - 1) ≤ (v.signExtend 32).toInt ∧ (v.signExtend 32).toInt < 2 ^ (n - 1) := by
  rw [BitVec.toInt_signExtend_of_le hn]
  exact ⟨BitVec.le_toInt v, BitVec.toInt_lt⟩

theorem imm12Ok_fieldImmI (w : Word) : imm12Ok (fieldImmI w) := by
  obtain ⟨lo, hi⟩ := toInt_signExtend_bounds (by decide) (w.extractLsb' 20 12)
  exact ⟨lo, Int.le_of_lt_add_one hi⟩

theorem imm12Ok_fieldImmS (w : Word) : imm12Ok (fieldImmS w) := by
  obtain ⟨lo, hi⟩ := toInt_signExtend_bounds (by decide) (w.extractLsb' 25 7 ++ w.extractLsb' 7 5 : BitVec 12)
  exact ⟨lo, Int.le_of_lt_add_one hi⟩

theorem toInt_even {x : Word} (h : x.toNat % 2 = 0) : x.toInt % 2 = 0 := by
  rw [BitVec.toInt_eq_toNat_cond]
  split <;> omega

/-- The decoder ends a B-type offset in a zero bit, so the largest is two below the bound. -/
theorem immBOk_fieldImmB (w : Word) : immBOk (fieldImmB w) := by
  have heven : (fieldImmB w).toNat % 2 = 0 := signExtend_append_zero_even _
  have heven' := toInt_even heven
  obtain ⟨lo, hi⟩ : -4096 ≤ (fieldImmB w).toInt ∧ (fieldImmB w).toInt < 4096 := toInt_signExtend_bounds (by decide) _
  exact ⟨lo, by omega, heven⟩

/-- A J-type offset ends in a zero bit too. -/
theorem immJOk_fieldImmJ (w : Word) : immJOk (fieldImmJ w) := by
  have heven : (fieldImmJ w).toNat % 2 = 0 := signExtend_append_zero_even _
  have heven' := toInt_even heven
  obtain ⟨lo, hi⟩ : -1048576 ≤ (fieldImmJ w).toInt ∧ (fieldImmJ w).toInt < 1048576 :=
    toInt_signExtend_bounds (by decide) _
  exact ⟨lo, by omega, heven⟩

theorem immUOk_fieldImmU (w : Word) : immUOk (fieldImmU w) := by
  rw [immUOk, fieldImmU_toNat]
  exact Nat.mul_mod_right _ _

theorem Decodes.wf {w : Word} {i : Instr} (h : Decodes w i) : i.wf = true := by
  cases h
  case lui | auipc => exact decide_eq_true (immUOk_fieldImmU w)
  case jal => exact decide_eq_true (immJOk_fieldImmJ w)
  case beq | bne | blt | bge | bltu | bgeu => exact decide_eq_true (immBOk_fieldImmB w)
  case sb | sh | sw => exact decide_eq_true (imm12Ok_fieldImmS w)
  case slli | srli | srai | add | sub | sll | slt | sltu | xor | srl | sra | or | and => rfl
  all_goals exact decide_eq_true (imm12Ok_fieldImmI w)

theorem Decodes.encode_eq {w : Word} {i : Instr} (h : Decodes w i) : encode i = w := by
  cases h
  case lui ho | auipc ho => exact encodeU_fields ho
  case jal ho => exact encodeJ_fields ho
  case beq ho h3 | bne ho h3 | blt ho h3 | bge ho h3 | bltu ho h3 | bgeu ho h3 => exact encodeB_fields ho h3
  case sb ho h3 | sh ho h3 | sw ho h3 => exact encodeS_fields ho h3
  case slli ho h3 h7 | srli ho h3 h7 | srai ho h3 h7 | add ho h3 h7 | sub ho h3 h7 | sll ho h3 h7 | slt ho h3 h7 |
      sltu ho h3 h7 | xor ho h3 h7 | srl ho h3 h7 | sra ho h3 h7 | or ho h3 h7 | and ho h3 h7 =>
    exact encodeR_fields ho h3 h7
  all_goals
    rename_i ho h3
    exact encodeI_fields ho h3

/-- Settles O47: a decoded word's immediates are in range, and each format is put together again from its fields. -/
theorem encodeOfDecodeIsIdentity : Obligations.EncodeOfDecodeIsIdentity := by
  intro w i hd
  have hw := decode_eq_ok_iff.1 hd
  exact ⟨hw.wf, hw.encode_eq⟩

/-- Settles O48, by evaluation of the decoder on the ten words. -/
theorem familyWordsDecode : Obligations.FamilyWordsDecode := by
  unfold Obligations.FamilyWordsDecode
  decide

/-! ### Table words (R38, R60) -/

/-- The four bytes of a word, lowest first, spell the word. -/
theorem wordOfBytes_byteOfWord (w : Word) :
    wordOfBytes (byteOfWord w 0) (byteOfWord w 1) (byteOfWord w 2) (byteOfWord w 3) = w := by
  apply BitVec.eq_of_getLsbD_eq
  intro k hk
  simp only [wordOfBytes, byteOfWord, BitVec.getLsbD_append, BitVec.getLsbD_extractLsb']
  interval_cases k <;> simp

theorem decodeTableWord_eq (nbits w : Nat) :
    decodeTableWord nbits w = (decode (wordOfTable nbits w)).toOption := by
  simp only [decodeTableWord, decodeBytes, wordOfBytes_byteOfWord]
  cases decode (wordOfTable nbits w) <;> rfl

/-- Settles O49: the bytes of a word spell it, and the decoder gives a well-formed instruction's encoding back. -/
theorem tableWordsDecodeThroughBytes : Obligations.TableWordsDecodeThroughBytes := by
  refine ⟨decodeTableWord_eq, fun i hi => ?_⟩
  have hword : wordOfTable 32 (encode i).toNat = encode i := by
    rw [wordOfTable, Nat.mod_eq_of_lt (encode i).isLt, BitVec.ofNat_toNat, BitVec.setWidth_eq]
  rw [decodeTableWord_eq, hword, decodeOfEncodeIsIdentity i hi]
  rfl

end Sys2Proof.Machine
end

section
/-! Steps (70_reset_and_hazards.md): the invariant at launch and along a step, and the ticks that a step is. -/

namespace Sys2Proof.Machine

/-! ### Launches (R149) -/

/-- Settles O51: a launch meets the invariant if it goes on, and its form alone is asked for if it is stopped at once. -/
theorem invariantHoldsAfterLaunch : Obligations.InvariantHoldsAfterLaunch := by
  refine ⟨fun cfg regs mem h => ?_, ?_⟩
  · rcases boot_cases cfg regs mem with ⟨hboot, hgo⟩ | ⟨hboot, _⟩ <;> rw [hboot]
    · exact coreInv_launch regs h hgo
    · exact ⟨structure_status (structure_launch regs h) _, fun hrun => by cases hrun⟩
  · exact coreInv_launch _ ⟨by decide, Memory.wf_nil, by simp⟩ (by decide)

/-- Settles O3: the policy of that launch does not stop it at once, and its registers are all 0. -/
theorem modelResetIsAConventionalLaunch : Obligations.ModelResetIsAConventionalLaunch := by
  refine ⟨?_, fun r => ?_, fun a => rfl, rfl, rfl, rfl⟩
  · rw [boot_eq]
    rfl
  · by_cases hr : r = 0#5
    · subst hr; rfl
    · exact (readReg_launch _ _ _ hr).trans (Vector.getElem_replicate _)

/-! ### Steps as runs of ticks (log entries 5 and 7) -/

theorem inv_ticks {s : State} (h : CoreInv s) (n : Nat) : CoreInv (ticks n s) := by
  induction n generalizing s with
  | zero => exact h
  | succ n ih =>
    by_cases hr : s.status = .running
    · exact ih (inv_tick h hr)
    · rwa [ticks_ended hr]

theorem ticks_cfg (n : Nat) (s : State) : (ticks n s).cfg = s.cfg := by
  induction n generalizing s with
  | zero => rfl
  | succ n ih => rw [ticks_succ, ih, tick_cfg]

theorem step_running {s : State} (hr : s.status = .running) : step s = .next (ticksToRetire (retireBound s) s) := by
  simp [step, hr]

/-- Only a running core has a next state. -/
theorem running_of_step {s t : State} (h : step s = .next t) : s.status = .running := by
  unfold step at h
  split at h
  · assumption
  · cases h
  · cases h

/-- The core still runs after `k` ticks and has retired nothing in them. -/
def Pending (s : State) (k : Nat) : Prop := (ticks k s).status = .running ∧ (ticks k s).retired = s.retired

/-- A step is `k` ticks, none of which but the last retires an instruction or ends the run; the last does if fuel is left. -/
theorem step_ticks {s : State} (hr : s.status = .running) :
    ∃ k, 1 ≤ k ∧ k ≤ retireBound s ∧ step s = .next (ticks k s) ∧ (∀ j, j < k → Pending s j) ∧
      (k < retireBound s → ¬ Pending s k) := by
  obtain ⟨k, h1, hk, hticks, hbefore, hlast⟩ := ticksToRetire_eq (retireBound s) s hr (by simp [retireBound])
  exact ⟨k, h1, hk, by rw [step_running hr, hticks], hbefore, hlast⟩

/-- The measure bounds the ticks to the next retirement: with EW empty it shrinks in each, and with EW full the tick retires
an instruction or ends the run. -/
theorem not_pending_beyond_measure {s : State} (h : CoreInv s) (hr : s.status = .running) :
    ¬ ∀ j, j ≤ waitMeasure s + 1 → Pending s j := by
  induction hm : waitMeasure s using Nat.strong_induction_on generalizing s with
  | _ m ih =>
    subst hm
    intro hpending
    obtain ⟨hrun, hretired⟩ : Pending s 1 := hpending 1 (by omega)
    change (tick s).status = .running at hrun
    change (tick s).retired = s.retired at hretired
    by_cases hew : s.ew = .empty
    · obtain ⟨hless, _⟩ := tick_measure h hr hew hrun
      refine ih _ hless (inv_tick h hr) hrun rfl fun j hj => ?_
      obtain ⟨hrun', hretired'⟩ := hpending (j + 1) (by omega)
      exact ⟨hrun', hretired'.trans hretired.symm⟩
    · have := tick_retires hr hew hrun
      omega

theorem waitMeasure_lt_retireBound (s : State) : waitMeasure s + 1 < retireBound s := by
  unfold waitMeasure retireBound
  split_ifs <;> omega

/-- In a state that meets the invariant the last tick of a step retires an instruction or ends the run. -/
theorem step_ticks_of_inv {s : State} (h : CoreInv s) (hr : s.status = .running) :
    ∃ k, 1 ≤ k ∧ k ≤ retireBound s ∧ step s = .next (ticks k s) ∧ (∀ j, j < k → Pending s j) ∧ ¬ Pending s k := by
  obtain ⟨k, h1, hk, hstep, hbefore, hlast⟩ := step_ticks hr
  refine ⟨k, h1, hk, hstep, hbefore, fun hpending => ?_⟩
  have hbound := waitMeasure_lt_retireBound s
  rcases Nat.lt_or_eq_of_le hk with hlt | rfl
  · exact hlast hlt hpending
  · exact not_pending_beyond_measure h hr fun j hj => hbefore j (by omega)

/-- Settles O53: the ticks of a step, with the last one's work from the measure where the invariant holds. -/
theorem stepIsTicksToTheNextRetirement : Obligations.StepIsTicksToTheNextRetirement := by
  refine ⟨fun s hr => ?_, fun s hs => ⟨by simp [step, hs], tick_of_not_running (by simp [hs])⟩,
    fun s e hs => ⟨by simp [step, hs], tick_of_not_running (by simp [hs])⟩⟩
  by_cases h : CoreInv s
  · obtain ⟨k, h1, hk, hstep, hbefore, hlast⟩ := step_ticks_of_inv h hr
    exact ⟨k, h1, hk, hstep, hbefore, fun _ => hlast⟩
  · obtain ⟨k, h1, hk, hstep, hbefore, hlast⟩ := step_ticks hr
    exact ⟨k, h1, hk, hstep, hbefore, fun hor => hlast (hor.resolve_left h)⟩

theorem tick_retires_at_most_one {s : State} (hr : s.status = .running) (hn : (tick s).status = .running) :
    (tick s).retired = s.retired ∨ (tick s).retired = s.retired + 1 := by
  obtain ⟨t, _, hw, _⟩ := tick_of_running hr hn
  rw [(tick_after_writeBack hr hw).1.retired, (afterWriteBack hw).retired]
  split
  · exact .inl rfl
  · exact .inr rfl

/-- Settles O54: the last tick of a step retires at most one instruction, and the ticks before it none. -/
theorem stepMakesProgress : Obligations.StepMakesProgress := by
  intro s h hr
  obtain ⟨k, h1, _, hstep, hbefore, hlast⟩ := step_ticks_of_inv h hr
  refine ⟨_, hstep, fun hrun => ?_⟩
  obtain ⟨j, rfl⟩ := Nat.exists_eq_add_of_le' h1
  obtain ⟨hrunj, hretiredj⟩ := hbefore j (by omega)
  have hlastTick : ticks (j + 1) s = tick (ticks j s) := ticks_add j 1 s
  rw [hlastTick] at hrun ⊢
  rcases tick_retires_at_most_one hrunj hrun with hsame | hone
  · exact absurd ⟨hlastTick ▸ hrun, hlastTick ▸ hsame.trans hretiredj⟩ hlast
  · rw [hone, hretiredj]

/-- Settles O52: a step is ticks, and a tick keeps the invariant and the parameters. -/
theorem stepKeepsInvariant : Obligations.StepKeepsInvariant := by
  intro s t h hstep
  obtain ⟨k, _, _, hticks, _⟩ := step_ticks (running_of_step hstep)
  cases hticks.symm.trans hstep
  exact ⟨inv_ticks h k, ticks_cfg k s⟩

/-! ### Termination by retirement count (log entry 12) -/

/-- Settles O59: the comparison is that of `retireCountReached`, and the other policy's check stops nothing. -/
theorem retireCountComparesAtRetirements : Obligations.RetireCountComparesAtRetirements := by
  intro s n hr hstop s1
  have hreached (t : State) : retireCountReached s1 t = true ↔ s.ew ≠ .empty ∧ t.retired = n := by
    simp only [retireCountReached, s1, hstop]
    exact decide_eq_true_iff
  refine ⟨⟨fun h => ?_, fun ⟨t, hw, hew, hn⟩ => ?_⟩,
    fun t hw hew hn => tick_of_reached hr hw ((hreached t).2 ⟨hew, hn⟩)⟩
  · have hc := tick_cases hr
    generalize tick s = u at h hc
    cases hc with
    | raiseWriteBack | raiseExecute => cases h
    | stop t hw hs => exact ⟨t, hw, (hreached t).1 hs⟩
    | advance t x hw hs hx =>
      obtain ⟨_, _, _, _, hcfg, hstatus, _⟩ := advance_frame hx
      have hkept := afterWriteBack hw
      rw [checkHaltAt_retireCount (by rw [hcfg, hkept.cfg, hstop]), hstatus, hkept.status, hr] at h
      cases h
  · rw [tick_of_reached hr hw ((hreached t).2 ⟨hew, hn⟩)]

end Sys2Proof.Machine
end

section
/-! A tick beside the execution of one instruction by itself (R167, R168): what the tick that retires it shows, and the way of
an instruction from its fetch to its retirement. -/

namespace Sys2Proof.Machine

/-! ### The tick that retires an instruction (R163, R167) -/

/-- EW holds the instruction `i` as Execute computes it from the registers as they stand, and what follows EW is its next
address: the part of the invariant that the tick retiring `i` rests on. -/
def EwHolds (s : State) (i : Instr) : Prop :=
  ∃ pc c, s.ew = .executed pc i c.result c.addr c.data ∧
    (splitOf i).execute pc (s.readSource (rs1Of i)) (s.readSource (rs2Of i)) = .ok c ∧
    s.pcAfterEw = c.transfer.actualNext pc

theorem ewHolds_of_inv {s : State} (h : ExecutionInv s) {pc result addr data : Word} {i : Instr}
    (hew : s.ew = .executed pc i result addr data) : EwHolds s i := by
  obtain ⟨c, hx, rfl, rfl, rfl, hnext⟩ := h.executed _ _ _ _ _ hew
  exact ⟨pc, c, hew, hx, hnext⟩

/-- A raise in a tick shows the same raise in the sequential view. -/
theorem showsExec_raise (e : FatalError) (s : State) (n : Nat) :
    ShowsExec (raise e { s with cycles := n }) (raise e s.sequentialView) where
  results := ⟨rfl, rfl, rfl⟩
  halted _ h := h
  next h := by cases h

/-- The tick with `i` in EW shows what `i` does by itself in the sequential view. -/
theorem EwHolds.tick_showsExec {s : State} {i : Instr} (h : EwHolds s i) (hr : s.status = .running) :
    ∃ u, exec i s.sequentialView = .next u ∧ ShowsExec (tick s) u := by
  obtain ⟨pc, c, hew, hx, hnext⟩ := h
  obtain rfl : s.sequentialView.fpc = pc := by simp [State.sequentialView, State.pcToRetire, hew, EwLatch.pc?]
  have hwb := writeBack_executed (s := { s with cycles := s.cycles + 1 }) hew
  have hview := commit_congr (i := i) (pc := s.sequentialView.fpc) (result := c.result) (addr := c.addr) (data := c.data)
    (s := { s with cycles := s.cycles + 1 }) (t := s.sequentialView) rfl rfl rfl
  cases hc : (splitOf i).commit s.sequentialView.fpc c.result c.addr c.data { s with cycles := s.cycles + 1 } with
  | error e =>
    rw [hc] at hwb hview
    refine ⟨_, exec_commit_raises hx hview, ?_⟩
    rw [tick_of_writeBack_error hr hwb]
    exact showsExec_raise e s _
  | ok t =>
    rw [hc] at hwb hview
    obtain ⟨⟨hregs, hmem, hretired⟩, hrun⟩ := tick_after_writeBack hr hwb
    refine ⟨_, exec_commits hx hview, ⟨hregs, hmem, ?_⟩, fun e he => ?_, fun _ hn => (hrun hn).trans hnext⟩
    · rw [hretired, commit_frame hc]
      rfl
    · cases hr.symm.trans he

/-- A tick with nothing in EW leaves the sequential view's registers, memory, retirement count and next address. -/
theorem tick_empty_ew {s : State} (hr : s.status = .running) (hew : s.ew = .empty) :
    SameResults (tick s) s ∧ ((tick s).status = .running → (tick s).pcToRetire = s.pcToRetire) := by
  obtain ⟨⟨hregs, hmem, hretired⟩, hnext⟩ :=
    tick_after_writeBack hr (writeBack_empty (s := { s with cycles := s.cycles + 1 }) hew)
  refine ⟨⟨hregs, hmem, hretired⟩, fun hrun => ?_⟩
  rw [hnext hrun, State.pcToRetire, hew]
  rfl

/-- Settles O57: the invariant says of EW what its retirement rests on, and a tick with EW empty commits nothing. -/
theorem tickRefinesSequentialExecution : Obligations.TickRefinesSequentialExecution := by
  refine ⟨fun s pc result addr data i h hr hew => ?_, fun s _ hr hew => tick_empty_ew hr hew⟩
  exact (ewHolds_of_inv (h.execution hr) hew).tick_showsExec hr

/-! ### The way of one instruction through the pipeline (R151 to R163) -/

/-- No instruction and no token is in a latch. -/
structure LatchesEmpty (s : State) : Prop where
  fd : s.fd = .empty
  de : s.de = .empty
  ew : s.ew = .empty

/-- How far the instruction `i` has come that is the next to retire: it is about to be fetched, waited for, or stands in FD,
DE or EW, with nothing older in flight. Unlike the invariant this asks nothing of memory or of the other lines. -/
inductive Stage (i : Instr) (s : State) : Prop where
  | toFetch (h : ReadyToFetch s i)
  | waiting (h : LatchesEmpty s) (hwait : 0 < s.fwait) (hd : decode (deliveredWord s.cfg s.l1i s.fpc) = .ok i)
  | inFd (pc word : Word) (hfd : s.fd = .fetched pc word (nextPc pc)) (hde : s.de = .empty) (hew : s.ew = .empty)
      (hpc : s.fpc = nextPc pc) (hd : decode word = .ok i)
  | inDe (pc : Word) (hde : s.de = .decoded pc i (s.readSource (rs1Of i)) (s.readSource (rs2Of i)) (nextPc pc))
      (hew : s.ew = .empty) (hpc : s.pcAfterDe = nextPc pc)
  | inEw (h : EwHolds s i)

section
variable {s : State}

theorem waitMeasure_inEw (hew : s.ew ≠ .empty) : waitMeasure s = 0 := by simp [waitMeasure, hew]

theorem waitMeasure_inDe (hew : s.ew = .empty) (hde : s.de ≠ .empty) : waitMeasure s = 1 := by
  simp [waitMeasure, hew, hde]

theorem waitMeasure_inFd (hew : s.ew = .empty) (hde : s.de = .empty) (hfd : s.fd ≠ .empty) : waitMeasure s = 2 := by
  simp [waitMeasure, hew, hde, hfd]

theorem waitMeasure_waiting (h : LatchesEmpty s) (hwait : 0 < s.fwait) : waitMeasure s = s.fwait + 2 := by
  simp [waitMeasure, h.ew, h.de, h.fd, Nat.ne_of_gt hwait]

theorem waitMeasure_toFetch (h : LatchesEmpty s) (hwait : s.fwait = 0) : waitMeasure s = s.cfg.missPenalty + 3 := by
  simp [waitMeasure, h.ew, h.de, h.fd, hwait]

end

/-! ### One tick of that way -/

/-- Being closer to the retirement of `i` after a tick that retires nothing. -/
structure Nearer (i : Instr) (s t : State) : Prop where
  running : t.status = .running
  stage : Stage i t
  less : waitMeasure t < waitMeasure s

theorem tick_advance_of_empty_ew {s : State} {x : ExecuteOut} (hr : s.status = .running) (hew : s.ew = .empty)
    (hx : executeStage s.de = .ok x) : tick s = checkHaltAt (advance { s with cycles := s.cycles + 1 } x) :=
  tick_eq_advance hr (writeBack_empty hew) (retireCountReached_empty hew _) hx

/-- With every latch empty only Fetch does something in a tick, and then the run does not stop. -/
theorem tick_fetch {s : State} {f : FetchOut} (hr : s.status = .running) (h : LatchesEmpty s)
    (hf : FetchCase { s with cycles := s.cycles + 1 } f) (hbusy : ¬ (f.fd = .empty ∧ f.state.fwait = 0)) :
    tick s = { f.state with ew := .empty, de := .empty, fd := f.fd } := by
  have hx : executeStage s.de = .ok { ew := .empty, forward := none, redirect := none } := by rw [h.de]; rfl
  rw [tick_advance_of_empty_ew hr h.ew hx,
    advance_pass (s := { s with cycles := s.cycles + 1 }) hx (decodeStage_eq (.bubble h.fd)) rfl, fetchStage_eq hf]
  exact checkHaltAt_of_busy fun ⟨hfd, _, _, hwait⟩ => hbusy ⟨hfd, hwait⟩

theorem missPenalty_pos {p : Params} (hp : p.Valid) : 0 < p.missPenalty := by
  obtain ⟨_, _, _, _, _, _, _, h⟩ := hp
  exact h

/-- The lookup of an instruction about to be fetched hits with its word, or misses and fills the line with it. -/
theorem nearer_of_toFetch {i : Instr} {s : State} (h : ReadyToFetch s i) : Nearer i s (tick s) := by
  obtain ⟨hfd, hde, hew, hwait⟩ := h.nothingInFlight
  have hempty : LatchesEmpty s := ⟨hfd, hde, hew⟩
  have hmeasure := waitMeasure_toFetch hempty hwait
  rcases h.fresh with hmiss | hhit
  · have hpos := missPenalty_pos h.params
    have hword : deliveredWord s.cfg (fill s.cfg s.mem s.l1i s.fpc) s.fpc = memoryWord s :=
      deliveredWord_fill h.params h.lineCount h.aligned
    rw [tick_fetch h.running hempty (.miss hwait h.notHalt h.aligned h.bound hmiss) fun hidle => hpos.ne' hidle.2]
    refine ⟨h.running, .waiting ⟨rfl, rfl, rfl⟩ hpos (hword ▸ h.word), ?_⟩
    rw [hmeasure, waitMeasure_waiting ⟨rfl, rfl, rfl⟩ hpos]
    exact Nat.lt_succ_self _
  · rw [tick_fetch h.running hempty (.hit _ hwait h.notHalt h.aligned h.bound hhit) (by simp)]
    refine ⟨h.running, .inFd s.fpc _ rfl rfl rfl rfl h.word, ?_⟩
    rw [hmeasure, waitMeasure_inFd rfl rfl (by simp)]
    omega

/-- A miss wait goes on, or delivers the word of the line. -/
theorem nearer_of_waiting {i : Instr} {s : State} (hr : s.status = .running) (h : LatchesEmpty s) (hwait : 0 < s.fwait)
    (hd : decode (deliveredWord s.cfg s.l1i s.fpc) = .ok i) : Nearer i s (tick s) := by
  have hmeasure := waitMeasure_waiting h hwait
  rcases Nat.lt_or_eq_of_le hwait with hmore | hone
  · have hpos : 0 < s.fwait - 1 := Nat.sub_pos_of_lt hmore
    rw [tick_fetch hr h (.wait hmore) fun hidle => hpos.ne' hidle.2]
    refine ⟨hr, .waiting ⟨rfl, rfl, rfl⟩ hpos hd, ?_⟩
    rw [hmeasure, waitMeasure_waiting ⟨rfl, rfl, rfl⟩ hpos]
    exact Nat.add_lt_add_right (Nat.sub_lt hwait Nat.one_pos) 2
  · rw [tick_fetch hr h (.arrive hone.symm) (by simp)]
    refine ⟨hr, .inFd s.fpc _ rfl rfl rfl rfl hd, ?_⟩
    rw [hmeasure, waitMeasure_inFd rfl rfl (by simp)]
    omega

/-- Without a forwarded result Decode reads the register file. -/
theorem readOperand_none (s : State) (r : Option RegIdx) : readOperand s none r = s.readSource r := by
  cases r with
  | none => rfl
  | some r => exact readOperand_not_forwarded s (by simp)

/-- With DE and EW empty Decode passes the instruction on, with its operands from the register file. -/
theorem nearer_of_inFd {i : Instr} {s : State} (hr : s.status = .running) {pc word : Word}
    (hfd : s.fd = .fetched pc word (nextPc pc)) (hde : s.de = .empty) (hew : s.ew = .empty) (hpc : s.fpc = nextPc pc)
    (hd : decode word = .ok i) : Nearer i s (tick s) := by
  have hx : executeStage s.de = .ok { ew := .empty, forward := none, redirect := none } := by rw [hde]; rfl
  have hdecode := decodeStage_eq (forward := none)
    (.decoded (s := { s with cycles := s.cycles + 1 }) pc word _ i hfd hd (by rw [hde]; rfl))
  rw [readOperand_none, readOperand_none] at hdecode
  obtain ⟨hregs, _, _, _, _, hstatus, _⟩ := advance_frame (s := { s with cycles := s.cycles + 1 }) hx
  have hpass := advance_pass (s := { s with cycles := s.cycles + 1 }) hx hdecode rfl
  rw [hpass] at hregs hstatus
  rw [tick_advance_of_empty_ew hr hew hx, hpass, checkHaltAt_of_busy (by simp)]
  refine ⟨hstatus.trans hr, .inDe pc ?_ rfl ((fetch_pc _).trans hpc), ?_⟩
  · rw [readSource_congr hregs, readSource_congr hregs]
  · rw [waitMeasure_inFd hew hde (by simp [hfd]), waitMeasure_inDe rfl (by simp)]
    omega

/-- Mispredicted or not, an instruction that leaves Execute is followed by its next address. -/
theorem pcAfterEw_advance {s : State} {x : ExecuteOut} {pc a b : Word} {i : Instr} {c : Computed}
    (hde : s.de = .decoded pc i a b (nextPc pc)) (hpc : s.pcAfterDe = nextPc pc) (hx : executeStage s.de = .ok x)
    (hc : (splitOf i).execute pc a b = .ok c) : (advance s x).pcAfterEw = c.transfer.actualNext pc := by
  have hredirect : x.redirect = if mispredicts (nextPc pc) c.transfer then some (c.transfer.actualNext pc) else none := by
    obtain ⟨c', hc', hr⟩ := executeStage_redirect (hde ▸ hx)
    cases hc.symm.trans hc'
    exact hr
  have hnone (h : x.redirect = none) : c.transfer.actualNext pc = nextPc pc := by
    refine actualNext_of_not_mispredicts (Bool.eq_false_iff.2 fun hm => ?_)
    rw [hredirect, if_pos hm] at h
    cases h
  have h := advance_cases hx
  generalize advance s x = u at h
  cases h with
  | stall _ hr => exact hpc.trans (hnone hr).symm
  | redirect target hr =>
    rw [hredirect] at hr
    split at hr
    · cases hr
      rfl
    · cases hr
  | pass de hd hr =>
    rw [hnone hr, ← hpc]
    simp only [State.pcAfterEw, State.pcAfterDe, decode_pc hd, fetch_pc]

/-- An instruction in DE goes into EW, or its error ends the run. -/
theorem nearer_or_raise_of_inDe {i : Instr} {s : State} (hr : s.status = .running) {pc : Word}
    (hde : s.de = .decoded pc i (s.readSource (rs1Of i)) (s.readSource (rs2Of i)) (nextPc pc)) (hew : s.ew = .empty)
    (hpc : s.pcAfterDe = nextPc pc) :
    Nearer i s (tick s) ∨ ∃ e, tick s = raise e { s with cycles := s.cycles + 1 } ∧
      (splitOf i).execute pc (s.readSource (rs1Of i)) (s.readSource (rs2Of i)) = .error e := by
  cases hc : (splitOf i).execute pc (s.readSource (rs1Of i)) (s.readSource (rs2Of i)) with
  | error e =>
    have hx := executeStage_raises hc (nextPc pc)
    rw [← hde] at hx
    exact .inr ⟨e, tick_of_execute_error hr (writeBack_empty hew) (retireCountReached_empty hew _) hx, rfl⟩
  | ok c =>
    left
    obtain ⟨x, hx⟩ := executeStage_passes hc (nextPc pc)
    obtain ⟨c', hc', hxew, _⟩ := executeStage_decoded hx
    cases hc.symm.trans hc'
    rw [← hde] at hx
    obtain ⟨hregs, _, _, _, _, hstatus, hew'⟩ := advance_frame (s := { s with cycles := s.cycles + 1 }) hx
    have hnext := pcAfterEw_advance (s := { s with cycles := s.cycles + 1 }) hde hpc hx hc
    rw [hxew] at hew'
    rw [tick_advance_of_empty_ew hr hew hx, checkHaltAt_of_busy (by simp [hew'])]
    refine ⟨hstatus.trans hr, .inEw ⟨pc, c, hew', ?_, hnext⟩, ?_⟩
    · rwa [readSource_congr hregs, readSource_congr hregs]
    · rw [waitMeasure_inDe hew (by simp [hde]), waitMeasure_inEw (by simp [hew'])]
      exact Nat.one_pos

/-- A tick brings `i` nearer to its retirement, or it retires `i` or ends the run and shows what `i` does by itself. -/
theorem Stage.nearer_or_shows {i : Instr} {s : State} (h : Stage i s) (hr : s.status = .running) :
    (s.ew = .empty ∧ Nearer i s (tick s)) ∨
      (¬ ((tick s).status = .running ∧ (tick s).retired = s.retired) ∧
        ∃ u, exec i s.sequentialView = .next u ∧ ShowsExec (tick s) u) := by
  cases h with
  | toFetch h =>
    obtain ⟨_, _, hew, _⟩ := h.nothingInFlight
    exact .inl ⟨hew, nearer_of_toFetch h⟩
  | waiting h hwait hd => exact .inl ⟨h.ew, nearer_of_waiting hr h hwait hd⟩
  | inFd pc word hfd hde hew hpc hd => exact .inl ⟨hew, nearer_of_inFd hr hfd hde hew hpc hd⟩
  | inDe pc hde hew hpc =>
    rcases nearer_or_raise_of_inDe hr hde hew hpc with hnearer | ⟨e, ht, hx⟩
    · exact .inl ⟨hew, hnearer⟩
    · obtain rfl : s.sequentialView.fpc = pc := by
        simp [State.sequentialView, State.pcToRetire, hew, EwLatch.pc?, State.pcAfterEw, hde, DeLatch.pc?]
      rw [ht]
      exact .inr ⟨fun ⟨hrun, _⟩ => (by cases hrun), _, exec_raises hx, showsExec_raise e s _⟩
  | inEw h =>
    refine .inr ⟨fun ⟨hrun, hretired⟩ => ?_, h.tick_showsExec hr⟩
    obtain ⟨_, _, hew, _⟩ := h
    have := tick_retires hr (by simp [hew]) hrun
    omega

/-! ### The whole way (log entry 5) -/

theorem ShowsExec.of_agree {t u u' : State} (h : ShowsExec t u') (ha : Agree u u') : ShowsExec t u where
  results := ⟨h.results.regs.trans ha.regs.symm, h.results.mem.trans ha.mem.symm, h.results.retired.trans ha.retired.symm⟩
  halted e he := h.halted e (ha.status ▸ he)
  next hu ht := (h.next (ha.status ▸ hu) ht).trans ha.fpc.symm

theorem agree_tick {s : State} (hr : s.status = .running) (hew : s.ew = .empty) (hrun : (tick s).status = .running) :
    Agree s.sequentialView (tick s).sequentialView := by
  obtain ⟨⟨hregs, hmem, hretired⟩, hpc⟩ := tick_empty_ew hr hew
  exact ⟨(tick_cfg s).symm, hregs.symm, hmem.symm, (hpc hrun).symm, hretired.symm, hr.trans hrun.symm⟩

/-- With fuel beyond the measure, ticking up to the next retirement shows what `i` does by itself: by induction over the
ticks, each of which brings `i` nearer to its retirement or is the last. -/
theorem Stage.showsExec {i : Instr} {s : State} (h : Stage i s) (hr : s.status = .running) {n : Nat}
    (hn : waitMeasure s < n) : ∃ u, exec i s.sequentialView = .next u ∧ ShowsExec (ticksToRetire n s) u := by
  induction n generalizing s with
  | zero => omega
  | succ n ih =>
    rw [ticksToRetire]
    rcases h.nearer_or_shows hr with ⟨hew, hrun, hstage, hless⟩ | ⟨hlast, hshows⟩
    · rw [if_pos ⟨hrun, (tick_empty_ew hr hew).1.retired⟩]
      obtain ⟨u', hu', hshows⟩ := ih hstage hrun (by omega)
      obtain ⟨u, u'', hu, hu'', hagree⟩ := exec_agree (agree_tick hr hew hrun) i
      cases hu'.symm.trans hu''
      exact ⟨u, hu, hshows.of_agree hagree⟩
    · rwa [if_neg hlast]

theorem sequentialView_of_nothingInFlight {s : State} (h : s.fd = .empty ∧ s.de = .empty ∧ s.ew = .empty ∧ s.fwait = 0) :
    s.sequentialView = s := by
  obtain ⟨hfd, hde, hew, hwait⟩ := h
  cases s
  cases hfd
  cases hde
  cases hew
  cases hwait
  rfl

/-- Settles O55: the way of the instruction from its fetch, for which a step has ticks enough. -/
theorem stepRunsTheDecodedInstruction : Obligations.StepRunsTheDecodedInstruction := by
  intro s i h
  have hn : waitMeasure s < retireBound s := Nat.lt_of_succ_lt (waitMeasure_lt_retireBound s)
  obtain ⟨u, hu, hshows⟩ := (Stage.toFetch h).showsExec h.running hn
  rw [sequentialView_of_nothingInFlight h.nothingInFlight] at hu
  exact ⟨_, u, step_running h.running, hu, hshows⟩

/-! ### A placed instruction (log entry 10) -/

theorem memoryWord_withFetchWord {s : State} (hm : Memory.wf s.mem) (nbits w : Nat) :
    memoryWord (s.withFetchWord nbits w) = wordOfTable nbits w := by
  have hread := readBytes_writeBytes hm s.fpc.toNat 4 (wordOfTable nbits w) (Nat.le_of_eq (Nat.zero_add 4))
  rw [Nat.add_zero, Nat.mul_zero, Nat.pow_zero, Nat.div_one, Nat.mod_eq_of_lt (wordOfTable nbits w).isLt] at hread
  rw [memoryWord, State.withFetchWord, hread, BitVec.ofNat_toNat, BitVec.setWidth_eq]

theorem lookup_withFetchWord {s : State} (hp : s.cfg.Valid) (hlines : s.l1i.length = s.cfg.numLines) (nbits w : Nat) :
    lookup s.cfg (s.withFetchWord nbits w).l1i s.fpc = none := by
  simp [lookup, State.withFetchWord, lineAt_set (hlines ▸ lineIndex_lt hp s.fpc)]

theorem decodeTableWord_eq_some {nbits w : Nat} {i : Instr} :
    decodeTableWord nbits w = some i ↔ decode (wordOfTable nbits w) = .ok i := by
  rw [decodeTableWord_eq]
  cases decode (wordOfTable nbits w) <;> simp [Except.toOption]

/-- Settles O56: placing makes the core ready to fetch the word, with no line resident for its address. -/
theorem placedInstructionRunsNext : Obligations.PlacedInstructionRunsNext := by
  intro s nbits w i hi hp hlines hr hm hstop ha hb
  refine ⟨?_, fun r => rfl, fun x hx => read_writeBytes_outside hm _ hx⟩
  refine stepRunsTheDecodedInstruction _ i ⟨hp, ?_, hr, ⟨rfl, rfl, rfl, rfl⟩, hstop, ha, hb, .inl ?_, ?_⟩
  · exact (List.length_set ..).trans hlines
  · exact lookup_withFetchWord hp hlines nbits w
  · rw [memoryWord_withFetchWord hm]
    exact decodeTableWord_eq_some.1 hi

end Sys2Proof.Machine
end
